-- ==== Sys2Proof/Word.lean ====
section
/-! DEFINITION. The word types of the block (spec/00_scope.md section 5): a byte has 8 bits, a word 32, a command
descriptor 192. Every quantity of the block is unsigned (rule R95). -/

namespace Sys2Proof

/-- A byte: 8 bits. -/
abbrev Byte := BitVec 8

/-- A word: 32 bits, an entry of the P-box or of an S-box, or one half of a block (rules R10, R11). -/
abbrev Word := BitVec 32

/-- A command descriptor `CMD[191:0]` (rule R57). -/
abbrev Descriptor := BitVec 192

/-- A packed 64-bit value: a descriptor's `imm64`, or the result of a response (rules R42, R61). -/
abbrev Quad := BitVec 64

/-- A buffer identifier of `BUFW` = 8 bits (rules R5, R35). -/
abbrev BufId := BitVec 8

/-- A block: 8 bytes in buffer order, the byte at the lowest offset first (rule R41). -/
abbrev Block := Vector Byte 8

end Sys2Proof
end

