-- ==== Sys2Proof/Config.lean ====
section
/-! DEFINITION. The parameters of the block (spec/00_scope.md rules R4 and R5, Table 00-1). None of them is
configurable. The one parameter Table 00-1 leaves OPEN, `BufSize(b)`, is part of the launch state and stands in
`State.bufSize`; the constant words are the literal tables of Sys2Proof/Machine/PiTables.lean. One
value is free: what a byte of the output window of a command holds that reset cuts off. -/

namespace Sys2Proof.Config

/-- `BLOCK`: bytes of a block (rule R4). -/
abbrev blockBytes : Nat := 8

/-- `KEYMAX`: the longest key in bytes (rules R4, R74). -/
abbrev keyMax : Nat := 56

/-- `2^OFFW` with `OFFW` = 32: offsets, lengths and buffer sizes lie below it (rules R5, R36). -/
abbrev offLimit : Nat := 4294967296

/-- `2^BUFW` with `BUFW` = 8: the number of buffer identifiers (rule R5). -/
abbrev bufCount : Nat := 256

/-- The free values: a byte of the output window of a command cut off by reset holds any value
(spec/93_implementation_defined.md U6, rule R180). Each use takes the next index, so two uses have nothing to do with each
other; nothing is known of any of them (DESIGN CHOICE, notes/assumptions/16.md). -/
opaque freeByte : Nat → Byte

end Sys2Proof.Config
end

