-- ==== Sys2Proof/Syntax.lean ====
section
/-! DEFINITION. The 21 commands of spec/30_encoding.md Table 30-2, one constructor per row of
spec/opcode_table.json, each with the operands its format names (rule R58) and no others. Offsets and lengths are
naturals (rule R59); that they fit their descriptor fields is Sys2Proof/WellFormed.lean. -/

namespace Sys2Proof

/-- An address `(b, o)`: a buffer and a byte offset into it (rule R36). With a length it names a window. -/
structure Addr where
  buf : BufId
  off : Nat
  deriving DecidableEq, Repr

/-- The commands of Table 30-2, in the table's order. -/
inductive Instr where
  /-- `INIT_ECB key=(b,o,n)` (rule R77). -/
  | initEcb (key : Addr) (len : Nat)
  /-- `INIT_CBC key=(b,o,n)` (rule R78). -/
  | initCbc (key : Addr) (len : Nat)
  /-- `INIT_CBC_IV key=(b,o,n), iv=(b,o)` (rule R79). -/
  | initCbcIv (key : Addr) (len : Nat) (iv : Addr)
  /-- `INIT_CBC_IV64 key=(b,o,n), iv64=x` (rule R80). -/
  | initCbcIv64 (key : Addr) (len : Nat) (imm64 : Quad)
  /-- `INIT_CFB key=(b,o,n)` (rule R81). -/
  | initCfb (key : Addr) (len : Nat)
  /-- `INIT_CFB_IV key=(b,o,n), iv=(b,o)` (rule R82). -/
  | initCfbIv (key : Addr) (len : Nat) (iv : Addr)
  /-- `CLEANUP` (rule R83). -/
  | cleanup
  /-- `ECB_ENC in=(b,o), out=(b,o), len=n` (rule R110). -/
  | ecbEnc (inp out : Addr) (len : Nat)
  /-- `ECB_DEC in=(b,o), out=(b,o), len=n` (rule R111). -/
  | ecbDec (inp out : Addr) (len : Nat)
  /-- `CBC_ENC in=(b,o), out=(b,o), len=n` (rule R120). -/
  | cbcEnc (inp out : Addr) (len : Nat)
  /-- `CBC_DEC in=(b,o), out=(b,o), len=n` (rule R121). -/
  | cbcDec (inp out : Addr) (len : Nat)
  /-- `CBC_GETIV out=(b,o)` (rule R123). -/
  | cbcGetiv (out : Addr)
  /-- `CBC_SETIV in=(b,o)` (rule R122). -/
  | cbcSetiv (inp : Addr)
  /-- `CBC_GETIV64` (rule R125). -/
  | cbcGetiv64
  /-- `CBC_SETIV64 iv64=x` (rule R124). -/
  | cbcSetiv64 (imm64 : Quad)
  /-- `CFB_ENC in=(b,o), out=(b,o), len=n` (rule R137). -/
  | cfbEnc (inp out : Addr) (len : Nat)
  /-- `CFB_DEC in=(b,o), out=(b,o), len=n` (rule R138). -/
  | cfbDec (inp out : Addr) (len : Nat)
  /-- `CFB_GETIV out=(b,o)` (rule R140). -/
  | cfbGetiv (out : Addr)
  /-- `CFB_SETIV in=(b,o)` (rule R139). -/
  | cfbSetiv (inp : Addr)
  /-- `WEAKKEY` (rule R100). -/
  | weakkey
  /-- `SELFTEST` (rule R101). -/
  | selftest
  deriving DecidableEq, Repr

end Sys2Proof
end

