-- ==== Sys2Proof/WellFormed.lean ====
section
/-! DEFINITION. When a command has a descriptor: every offset and every length fits its 32-bit field
(spec/30_encoding.md Table 30-1 and rule R59). Buffer identifiers and `imm64` fit by their types. -/

namespace Sys2Proof

/-- The offset fits `aoff` or `boff`: `0 <= o < 2^OFFW` (rule R36). -/
def Addr.wellFormed (a : Addr) : Bool := decide (a.off < Config.offLimit)

/-- The length fits `len`. -/
def lenFits (n : Nat) : Bool := decide (n < Config.offLimit)

/-- Every operand fits the descriptor field its format gives it (rules R58, R59). -/
def Instr.wellFormed : Instr → Bool
  | .initEcb key len => key.wellFormed && lenFits len
  | .initCbc key len => key.wellFormed && lenFits len
  | .initCbcIv key len iv => key.wellFormed && lenFits len && iv.wellFormed
  | .initCbcIv64 key len _ => key.wellFormed && lenFits len
  | .initCfb key len => key.wellFormed && lenFits len
  | .initCfbIv key len iv => key.wellFormed && lenFits len && iv.wellFormed
  | .cleanup => true
  | .ecbEnc inp out len => inp.wellFormed && out.wellFormed && lenFits len
  | .ecbDec inp out len => inp.wellFormed && out.wellFormed && lenFits len
  | .cbcEnc inp out len => inp.wellFormed && out.wellFormed && lenFits len
  | .cbcDec inp out len => inp.wellFormed && out.wellFormed && lenFits len
  | .cbcGetiv out => out.wellFormed
  | .cbcSetiv inp => inp.wellFormed
  | .cbcGetiv64 => true
  | .cbcSetiv64 _ => true
  | .cfbEnc inp out len => inp.wellFormed && out.wellFormed && lenFits len
  | .cfbDec inp out len => inp.wellFormed && out.wellFormed && lenFits len
  | .cfbGetiv out => out.wellFormed
  | .cfbSetiv inp => inp.wellFormed
  | .weakkey => true
  | .selftest => true

end Sys2Proof
end

