-- ==== Sys2Proof/Decode.lean ====
section
/-! DEFINITION. The command descriptor (spec/30_encoding.md Tables 30-1 and 30-2, rules R57 to R60): the fields of a
descriptor, the decoder, total on every 192-bit value, and after it the encoder, written from the same tables. -/

namespace Sys2Proof

/-- The fields of Table 30-1, `op` lowest. Offsets and `len` are kept as the bits they are here; the decoder reads
them as unsigned numbers (rule R59). -/
structure Fields where
  op : BitVec 8
  abuf : BitVec 8
  bbuf : BitVec 8
  reserved : BitVec 8
  aoff : BitVec 32
  boff : BitVec 32
  len : BitVec 32
  imm64 : BitVec 64
  deriving DecidableEq, Repr

/-- The fields of a descriptor, at the bits Table 30-1 gives. -/
def Fields.ofDescriptor (d : Descriptor) : Fields where
  op := d.extractLsb' 0 8
  abuf := d.extractLsb' 8 8
  bbuf := d.extractLsb' 16 8
  reserved := d.extractLsb' 24 8
  aoff := d.extractLsb' 32 32
  boff := d.extractLsb' 64 32
  len := d.extractLsb' 96 32
  imm64 := d.extractLsb' 128 64

/-- The window operand the fields `abuf`, `aoff` assemble (rule R59). -/
def Fields.a (f : Fields) : Addr := ⟨f.abuf, f.aoff.toNat⟩

/-- The window operand the fields `bbuf`, `boff` assemble (rule R59). -/
def Fields.b (f : Fields) : Addr := ⟨f.bbuf, f.boff.toNat⟩

/-- Why a descriptor is no command: its `op` is not in Table 30-2 (rule R60). -/
inductive DecodeError where
  /-- The command code is none of the 21; the block answers `ILLEGAL_COMMAND` (rule R160). -/
  | unknownCode (op : BitVec 8)
  deriving DecidableEq, Repr

/-- The command the fields stand for, by the code of Table 30-2. Fields the format does not use, and the reserved
bits, are ignored (rules R58, R60). -/
def Fields.instr (f : Fields) : Except DecodeError Instr :=
  match f.op.toNat with
  | 0x01 => .ok (.initEcb f.a f.len.toNat)
  | 0x02 => .ok (.initCbc f.a f.len.toNat)
  | 0x03 => .ok (.initCbcIv f.a f.len.toNat f.b)
  | 0x04 => .ok (.initCbcIv64 f.a f.len.toNat f.imm64)
  | 0x05 => .ok (.initCfb f.a f.len.toNat)
  | 0x06 => .ok (.initCfbIv f.a f.len.toNat f.b)
  | 0x0F => .ok .cleanup
  | 0x10 => .ok (.ecbEnc f.a f.b f.len.toNat)
  | 0x11 => .ok (.ecbDec f.a f.b f.len.toNat)
  | 0x20 => .ok (.cbcEnc f.a f.b f.len.toNat)
  | 0x21 => .ok (.cbcDec f.a f.b f.len.toNat)
  | 0x24 => .ok (.cbcGetiv f.b)
  | 0x25 => .ok (.cbcSetiv f.a)
  | 0x26 => .ok .cbcGetiv64
  | 0x27 => .ok (.cbcSetiv64 f.imm64)
  | 0x30 => .ok (.cfbEnc f.a f.b f.len.toNat)
  | 0x31 => .ok (.cfbDec f.a f.b f.len.toNat)
  | 0x34 => .ok (.cfbGetiv f.b)
  | 0x35 => .ok (.cfbSetiv f.a)
  | 0x40 => .ok .weakkey
  | 0x41 => .ok .selftest
  | _ => .error (.unknownCode f.op)

/-- The decoder: every 192-bit value is a command of Table 30-2 or is rejected by name. -/
def decode (d : Descriptor) : Except DecodeError Instr := (Fields.ofDescriptor d).instr

/-- The descriptor whose first `nbits` bits are those of `w` and whose other bits are 0. The bits of a descriptor are
numbered as spec/opcode_table.json numbers them (rule R57). -/
def tableDescriptor (nbits w : Nat) : Descriptor := BitVec.ofNat 192 (w % 2 ^ nbits)

/-- What the decoder reads from a word of spec/opcode_table.json. -/
def decodeTableWord (nbits w : Nat) : Option Instr := (decode (tableDescriptor nbits w)).toOption

/-- The descriptor whose fields are `f` (Table 30-1). -/
def Fields.toDescriptor (f : Fields) : Descriptor :=
  f.imm64 ++ (f.len ++ (f.boff ++ (f.aoff ++ (f.reserved ++ (f.bbuf ++ (f.abuf ++ f.op))))))

/-- Format `N`: the code only. Every field a format does not name is encoded as zero (rule R62). -/
def Fields.formatN (op : BitVec 8) : Fields := ⟨op, 0, 0, 0, 0, 0, 0, 0⟩

/-- Format `RD`: a window to read, in `abuf`, `aoff`. -/
def Fields.formatRD (op : BitVec 8) (a : Addr) : Fields :=
  ⟨op, a.buf, 0, 0, BitVec.ofNat 32 a.off, 0, 0, 0⟩

/-- Format `WR`: a window to write, in `bbuf`, `boff`. -/
def Fields.formatWR (op : BitVec 8) (b : Addr) : Fields :=
  ⟨op, 0, b.buf, 0, 0, BitVec.ofNat 32 b.off, 0, 0⟩

/-- Format `Q`: a packed value. -/
def Fields.formatQ (op : BitVec 8) (x : Quad) : Fields := ⟨op, 0, 0, 0, 0, 0, 0, x⟩

/-- Format `K`: a key window. -/
def Fields.formatK (op : BitVec 8) (a : Addr) (len : Nat) : Fields :=
  ⟨op, a.buf, 0, 0, BitVec.ofNat 32 a.off, 0, BitVec.ofNat 32 len, 0⟩

/-- Format `KQ`: a key window and a packed value. -/
def Fields.formatKQ (op : BitVec 8) (a : Addr) (len : Nat) (x : Quad) : Fields :=
  ⟨op, a.buf, 0, 0, BitVec.ofNat 32 a.off, 0, BitVec.ofNat 32 len, x⟩

/-- Formats `KI` and `X`: two windows and a length. -/
def Fields.formatX (op : BitVec 8) (a b : Addr) (len : Nat) : Fields :=
  ⟨op, a.buf, b.buf, 0, BitVec.ofNat 32 a.off, BitVec.ofNat 32 b.off, BitVec.ofNat 32 len, 0⟩

/-- The fields of a command's descriptor (Table 30-2: code and format). -/
def Instr.fields : Instr → Fields
  | .initEcb key len => .formatK 0x01 key len
  | .initCbc key len => .formatK 0x02 key len
  | .initCbcIv key len iv => .formatX 0x03 key iv len
  | .initCbcIv64 key len imm64 => .formatKQ 0x04 key len imm64
  | .initCfb key len => .formatK 0x05 key len
  | .initCfbIv key len iv => .formatX 0x06 key iv len
  | .cleanup => .formatN 0x0F
  | .ecbEnc inp out len => .formatX 0x10 inp out len
  | .ecbDec inp out len => .formatX 0x11 inp out len
  | .cbcEnc inp out len => .formatX 0x20 inp out len
  | .cbcDec inp out len => .formatX 0x21 inp out len
  | .cbcGetiv out => .formatWR 0x24 out
  | .cbcSetiv inp => .formatRD 0x25 inp
  | .cbcGetiv64 => .formatN 0x26
  | .cbcSetiv64 imm64 => .formatQ 0x27 imm64
  | .cfbEnc inp out len => .formatX 0x30 inp out len
  | .cfbDec inp out len => .formatX 0x31 inp out len
  | .cfbGetiv out => .formatWR 0x34 out
  | .cfbSetiv inp => .formatRD 0x35 inp
  | .weakkey => .formatN 0x40
  | .selftest => .formatN 0x41

/-- The encoder: the descriptor of a well-formed command. -/
def encode (i : Instr) : Descriptor := i.fields.toDescriptor

end Sys2Proof
end

