-- ==== Sys2Proof/Machine/State.lean ====
section
/-! DEFINITION. The architectural state of the block (spec/10_state.md Table 10-1), the host's buffer space
(spec/20_memory.md section 1) and the two sides of the host interface: what the host does next and the response it was
last given. State is plain data and holds everything the spec gives the machine; INVENTORY.md '## State' lists it. -/

namespace Sys2Proof.Machine

open Sys2Proof

/-- `LIFE`: whether the block holds an instance (rule R18). Its encodings are not modelled (notes/assumptions/8.md). -/
inductive Life where
  | empty
  | keyed
  deriving DecidableEq, Repr

/-- `MODE`: the mode wrapper of the instance (rule R19). -/
inductive Mode where
  | none
  | ecb
  | cbc
  | cfb
  deriving DecidableEq, Repr

/-- The CipherState: the P-box `P[0..17]` and the S-boxes `S[1..4][0..255]` (rules R10 to R12). `s[k]` holds the
spec's `S[k+1]`. -/
structure CipherState where
  p : Vector Word 18
  s : Vector (Vector Word 256) 4
  deriving DecidableEq, Repr

/-- The status of a response (spec/60_exceptions.md Table 60-1, rule R155). Its number is `Status.code` in
Machine/Flags.lean; the values 6 to 255 are never returned and do not exist here. -/
inductive Status where
  | ok
  | invalidKeyLength
  | invalidBlockAlignment
  | bufferBounds
  | illegalState
  | illegalCommand
  deriving DecidableEq, Repr

/-- The response `(status, result)` a command ends with (rule R61). -/
structure Response where
  status : Status
  result : Quad
  deriving DecidableEq, Repr

/-- What the host can do to the block and its buffers. The host does one thing at a time, and the
next only after the response to the one before (rules R52, R183, R184). -/
inductive HostAction where
  /-- Present a command descriptor (rules R57, R183). -/
  | command (d : Descriptor)
  /-- Write bytes into a buffer of its own, in increasing offset (rules R52, R54). -/
  | writeBuffer (dst : Addr) (bytes : List Byte)
  /-- Reset the block between two commands (rule R180). -/
  | reset
  /-- Present a command descriptor and reset the block before the response (rule R180,
  spec/93_implementation_defined.md U6). -/
  | resetDuring (d : Descriptor)
  deriving DecidableEq, Repr

/-- The bytes of every buffer, in one canonical form (`Memory.wf`, Machine/Ops.lean): cells by rising key, where the
key of address `(b, o)` is `Addr.cell`, and no cell that holds what an unlisted one reads as. -/
abbrev Memory := List Host.Cell

/-- The whole state. -/
structure State where
  /-- The P-box and the S-boxes. -/
  cipher : CipherState
  /-- `V[0..7]`, the CBC chain register (rule R15). -/
  v : Block
  /-- `R[0..7]`, the CFB register (rule R16). -/
  r : Block
  /-- `BYTESLEFT`, an integer in `[0,8]` (rule R17): the values 9 to 15 of its four bits never occur and do not exist
  here (DESIGN CHOICE, notes/assumptions/7.md). -/
  bytesLeft : Fin 9
  /-- `LIFE` (rule R18). -/
  life : Life
  /-- `MODE` (rule R19). -/
  mode : Mode
  /-- `BufSize(b)` of each of the 256 buffer identifiers, a natural below `2^OFFW` (Table 00-1, rule R35). A buffer
  that does not exist has size 0 (DESIGN CHOICE, notes/assumptions/12.md). Launch state: no step changes it. -/
  bufSize : Vector (BitVec 32) 256
  /-- The bytes of the host's buffers (rules R35, R36). -/
  mem : Memory
  /-- What the host does from here on, the next action first. Not a register of the block (DESIGN CHOICE,
  notes/assumptions/3.md). -/
  inbox : List HostAction
  /-- The response of the last command; `none` before the first one. An output: no command reads it (rule R22; DESIGN
  CHOICE, notes/assumptions/4.md). -/
  response : Option Response
  /-- How many free bytes have been used up; the next one is `Config.freeByte` of it. The model's own, no register of the
  block (DESIGN CHOICE, notes/assumptions/16.md). -/
  freeCount : Nat
  deriving DecidableEq, Repr

/-- A fault stops the machine. -/
inductive Fault where
  /-- Raised by `step` when the host's own write names a byte that none of its buffers has (rules R35, R38 give it no
  such address). Safe: the model stops where a real host has nothing to write to. No command raises it: a command
  answers `BufferBounds` instead (DESIGN CHOICE, notes/assumptions/13.md). -/
  | noSuchBufferByte
  deriving DecidableEq, Repr

/-- A refusal: the spec gives the step no meaning. -/
inductive Refusal where
  /-- Raised by the dispatcher for a command that has no meaning yet; every command has one, so no arm raises it.
  Safe. -/
  | notModelled (mnemonic : String)
  /-- Raised by the six transfer commands when input and output windows overlap without being the same window: rule
  R51, "Partial overlap is not given a meaning", "A model refuses such a command". Safe (notes/assumptions/5.md). -/
  | partialOverlap
  deriving DecidableEq, Repr

/-- The CipherState with every word zero: after reset and after `CLEANUP` (rules R26, R27). -/
def CipherState.zero : CipherState := ⟨Vector.replicate 18 0, Vector.replicate 4 (Vector.replicate 256 0)⟩

/-- The 8-byte register with every byte zero. -/
def zeroBlock : Block := Vector.replicate 8 0

/-- The machine right after reset (rules R26, R180). The host's side of it is a choice of the model: every buffer
identifier names a buffer of the greatest size Table 00-1 allows, nothing is to be done, no response has been given and
no free value used (notes/assumptions/1.md to 4.md and 16.md). -/
def State.reset : State where
  cipher := CipherState.zero
  v := zeroBlock
  r := zeroBlock
  bytesLeft := 0
  life := .empty
  mode := .none
  bufSize := Vector.replicate 256 0xFFFFFFFF
  mem := []
  inbox := []
  response := none
  freeCount := 0

end Sys2Proof.Machine
end

