-- ==== Sys2Proof/Machine/Flags.lean ====
section
/-! DEFINITION. The block has no status flags or condition codes (spec/10_state.md rule R22). What a command reports
is its response; this file gives the numbers of Table 60-1 and the value of a boolean result. -/

namespace Sys2Proof.Machine

open Sys2Proof

/-- The `status` byte of Table 60-1 (rule R155). -/
def Status.code : Status → BitVec 8
  | .ok => 0
  | .invalidKeyLength => 1
  | .invalidBlockAlignment => 2
  | .bufferBounds => 3
  | .illegalState => 4
  | .illegalCommand => 5

/-- A boolean result: 1 for true, 0 for false (rule R61). -/
def boolResult (b : Bool) : Quad := if b then 1 else 0

end Sys2Proof.Machine
end

