-- ==== Sys2Proof/Machine/Ops.lean ====
section
/-! DEFINITION. The named operations every command is written over: byte order (spec/20_memory.md rules R40 to R42),
the two memory primitives (rules R36, R37), the accessors of the registers and boxes, the two ways a command ends
(spec/30_encoding.md rule R61): `State.respond`, and `State.raise`, which is how this block takes an exception
(spec/60_exceptions.md rules R155, R162). There is nothing to return from after an error (rule R163), so no
operation stands beside `raise`. -/

namespace Sys2Proof

/-- The key under which the byte at address `(b, o)` is kept. Different buffers are disjoint (rule R35): an offset lies
below `2^OFFW` (rule R36; DESIGN CHOICE, notes/assumptions/12.md). -/
def Addr.cell (a : Addr) : Nat := a.buf.toNat * Config.offLimit + a.off

namespace Machine

/-! ### Byte order -/

/-- `byte0(x) = x[31:24]`, the most significant byte (rule R44). -/
def byte0 (x : Word) : Byte := x.extractLsb' 24 8

/-- `byte1(x) = x[23:16]`. -/
def byte1 (x : Word) : Byte := x.extractLsb' 16 8

/-- `byte2(x) = x[15:8]`. -/
def byte2 (x : Word) : Byte := x.extractLsb' 8 8

/-- `byte3(x) = x[7:0]`, the least significant byte. -/
def byte3 (x : Word) : Byte := x.extractLsb' 0 8

/-- `BE32(b0,b1,b2,b3)`, the word `b0 || b1 || b2 || b3` (rule R40). -/
def be32 (b0 b1 b2 b3 : Byte) : Word := b0 ++ (b1 ++ (b2 ++ b3))

/-- The two halves of a block, the Engine's `hi` and `lo`. -/
structure Halves where
  hi : Word
  lo : Word
  deriving DecidableEq, Repr

/-- The halves of an 8-byte block, big-endian (rule R40). -/
def Halves.ofBlock (b : Block) : Halves := ⟨be32 b[0] b[1] b[2] b[3], be32 b[4] b[5] b[6] b[7]⟩

/-- The 8 bytes of a pair of halves: `Bytes32(hi)` then `Bytes32(lo)` (rule R40). -/
def Halves.toBlock (h : Halves) : Block :=
  #v[byte0 h.hi, byte1 h.hi, byte2 h.hi, byte3 h.hi, byte0 h.lo, byte1 h.lo, byte2 h.lo, byte3 h.lo]

/-- The packed big-endian 64-bit form of a register: `V[0]` is bits 63 to 56 (rule R42,
notes/assumptions/10.md). -/
def Block.pack (b : Block) : Quad :=
  b[0] ++ (b[1] ++ (b[2] ++ (b[3] ++ (b[4] ++ (b[5] ++ (b[6] ++ b[7]))))))

/-- The register whose packed form is `x`: `V[i] = x[63-8i : 56-8i]` (rules R80, R124). -/
def Block.unpack (x : Quad) : Block := Vector.ofFn fun i => x.extractLsb' (56 - 8 * i.val) 8

/-- Byte-wise exclusive-or of two blocks. -/
def Block.xor (a b : Block) : Block := Vector.ofFn fun i => a[i] ^^^ b[i]

/-- Byte `j` of a register. Every command asks for `j < 8` (rule R136). -/
def Block.byteAt (b : Block) (j : Nat) : Byte := b.getD j 0

/-- The register with byte `j` replaced. -/
def Block.setByte (b : Block) (j : Nat) (x : Byte) : Block := b.setIfInBounds j x

/-! ### The P-box and the S-boxes -/

/-- `P[i]`. -/
def CipherState.pAt (c : CipherState) (i : Fin 18) : Word := c.p[i]

/-- `S[k+1][i]`. -/
def CipherState.sAt (c : CipherState) (k : Fin 4) (i : Fin 256) : Word := c.s[k][i]

/-- `P[i] <- x`. -/
def CipherState.setP (c : CipherState) (i : Fin 18) (x : Word) : CipherState := { c with p := c.p.set i x }

/-- `S[k+1][i] <- x`. -/
def CipherState.setS (c : CipherState) (k : Fin 4) (i : Fin 256) (x : Word) : CipherState :=
  { c with s := c.s.set k (c.s[k].set i x) }

/-! ### Memory -/

/-- What a byte no cell lists reads as. A buffer may hold any bytes at launch (rule R39): those that are not this value
are listed (DESIGN CHOICE, notes/assumptions/2.md). -/
def Memory.unlisted : Byte := 0

/-- The byte under key `k`. -/
def Memory.readByte : Memory → Nat → Byte
  | [], _ => Memory.unlisted
  | c :: m, k => if c.1 = k then c.2 else Memory.readByte m k

/-- The cell `(k, x)` put before the first cell with a greater key. -/
def Memory.insertCell (k : Nat) (x : Byte) : Memory → Memory
  | [] => [(k, x)]
  | c :: m => if k < c.1 then (k, x) :: c :: m else c :: Memory.insertCell k x m

/-- The memory without a cell for `k`. -/
def Memory.erase (m : Memory) (k : Nat) : Memory := m.filter fun c => c.1 != k

/-- Byte `k` set to `x`. A byte that reads as an unlisted one does is not listed. -/
def Memory.writeByte (m : Memory) (k : Nat) (x : Byte) : Memory :=
  if x = Memory.unlisted then Memory.erase m k else Memory.insertCell k x (Memory.erase m k)

/-- The canonical form: keys strictly rising, and no cell holding what an unlisted byte reads as. -/
def Memory.wf (m : Memory) : Bool :=
  decide (m.Pairwise fun c d => c.1 < d.1) && m.all fun c => c.2 != Memory.unlisted

/-- `MemRead`: the `n` bytes from key `k` on, in increasing offset (rule R37). -/
def Memory.read (m : Memory) (k n : Nat) : List Byte := (List.range n).map fun i => Memory.readByte m (k + i)

/-- `MemRead` of 8 bytes, as a block. -/
def Memory.readBlock (m : Memory) (k : Nat) : Block := Vector.ofFn fun i => Memory.readByte m (k + i.val)

/-- `MemWrite`: the bytes stored from key `k` on, in increasing offset (rule R37). -/
def Memory.write (m : Memory) (k : Nat) : List Byte → Memory
  | [] => m
  | x :: xs => Memory.write (Memory.writeByte m k x) (k + 1) xs

/-- `MemWrite` of a block. -/
def Memory.writeBlock (m : Memory) (k : Nat) (b : Block) : Memory := Memory.write m k b.toList

/-- The byte `Buf[b][o]` of the host's buffers (rule R37). -/
def State.byteAt (s : State) (a : Addr) : Byte := Memory.readByte s.mem a.cell

/-! ### The registers of the block -/

/-- `V <- x`. -/
def State.setV (s : State) (x : Block) : State := { s with v := x }

/-- `R <- x ; BYTESLEFT <- n`. -/
def State.setCfb (s : State) (x : Block) (n : Fin 9) : State := { s with r := x, bytesLeft := n }

/-- Every buffer byte from `m`. -/
def State.setMem (s : State) (m : Memory) : State := { s with mem := m }

/-- `P, S <- c`, `MODE <- mode`, `LIFE <- life`. -/
def State.setInstance (s : State) (c : CipherState) (mode : Mode) (life : Life) : State :=
  { s with cipher := c, mode := mode, life := life }

/-- What the host does from here on. -/
def State.setInbox (s : State) (q : List HostAction) : State := { s with inbox := q }

/-- The response handed to the host. -/
def State.setResponse (s : State) (x : Response) : State := { s with response := some x }

/-- No response. -/
def State.clearResponse (s : State) : State := { s with response := none }

/-! ### Free values -/

/-- The next `n` free bytes when `c` have been used. -/
def freeBytes (c n : Nat) : List Byte := (List.range n).map fun k => Config.freeByte (c + k)

/-- How many free bytes have been used. -/
def State.setFreeCount (s : State) (c : Nat) : State := { s with freeCount := c }

/-! ### How a command ends -/

/-- `return OK(v)` (rule R61). -/
def State.respond (s : State) (v : Quad) : Host.Outcome State Fault Refusal := .next (s.setResponse ⟨.ok, v⟩)

/-- `raise e`: the error response, with result 0 and nothing else changed. The block's exceptions are these; nothing is
saved, no mode changes and no handler runs (rules R155, R162). -/
def State.raise (s : State) (e : Status) : Host.Outcome State Fault Refusal := .next (s.setResponse ⟨e, 0⟩)

end Machine

end Sys2Proof
end

