-- ==== Sys2Proof/Machine/Engine.lean ====
section
/-! DEFINITION. The Engine (spec/41_engine.md): the round function `F`, the forward and inverse 16-round transforms and
their byte-level forms. They read the CipherState they are given and nothing else, and write nothing (rule R94). All
arithmetic is exclusive-or and addition modulo 2^32 (rule R95). -/

namespace Sys2Proof.Machine

open Sys2Proof

/-- Entry `x` of S-box `S[k+1]`, selected by a byte. -/
def CipherState.sByte (c : CipherState) (k : Fin 4) (x : Byte) : Word := c.sAt k x.toFin

/-- `F(x) = ((S1[byte0(x)] + S2[byte1(x)]) XOR S3[byte2(x)]) + S4[byte3(x)]` (rule R90). -/
def CipherState.f (c : CipherState) (x : Word) : Word :=
  ((c.sByte 0 (byte0 x) + c.sByte 1 (byte1 x)) ^^^ c.sByte 2 (byte2 x)) + c.sByte 3 (byte3 x)

/-- Two rounds: `lo <- lo ^ F(hi) ^ P[i]`, then `hi <- hi ^ F(lo) ^ P[j]` with the new `lo` (rules R91, R92). -/
def CipherState.twoRounds (c : CipherState) (h : Halves) (ij : Fin 18 × Fin 18) : Halves :=
  let lo := h.lo ^^^ c.f h.hi ^^^ c.pAt ij.1
  ⟨h.hi ^^^ c.f lo ^^^ c.pAt ij.2, lo⟩

/-- The P-box indices of the forward direction, `(r, r+1)` for `r` = 1, 3, ..., 15 (rule R91). -/
def forwardRounds : List (Fin 18 × Fin 18) :=
  [(1, 2), (3, 4), (5, 6), (7, 8), (9, 10), (11, 12), (13, 14), (15, 16)]

/-- The P-box indices of the inverse direction, `(r, r-1)` for `r` = 16, 14, ..., 2 (rule R92). -/
def inverseRounds : List (Fin 18 × Fin 18) :=
  [(16, 15), (14, 13), (12, 11), (10, 9), (8, 7), (6, 5), (4, 3), (2, 1)]

/-- `BF_ENC(hi, lo)` (rule R91). -/
def CipherState.bfEnc (c : CipherState) (h : Halves) : Halves :=
  let x := forwardRounds.foldl c.twoRounds ⟨h.hi ^^^ c.pAt 0, h.lo⟩
  ⟨x.lo ^^^ c.pAt 17, x.hi⟩

/-- `BF_DEC(hi, lo)` (rule R92). -/
def CipherState.bfDec (c : CipherState) (h : Halves) : Halves :=
  let x := inverseRounds.foldl c.twoRounds ⟨h.hi ^^^ c.pAt 17, h.lo⟩
  ⟨x.lo ^^^ c.pAt 0, x.hi⟩

/-- `EncBlock(B)` (rule R96). -/
def CipherState.encBlock (c : CipherState) (b : Block) : Block := (c.bfEnc (Halves.ofBlock b)).toBlock

/-- `DecBlock(B)` (rule R96). -/
def CipherState.decBlock (c : CipherState) (b : Block) : Block := (c.bfDec (Halves.ofBlock b)).toBlock

end Sys2Proof.Machine
end

