-- ==== Sys2Proof/Machine/Operands.lean ====
section
/-! DEFINITION. The operand forms of the commands (spec/20_memory.md rules R36, R38, R51), the window each writes
(Table 20-1) and the checks made on them
before the first access, in the order of spec/60_exceptions.md rule R161
(notes/assumptions/9.md). A check answers the error of the first
condition that fails, or nothing. -/

namespace Sys2Proof.Machine

open Sys2Proof

/-- `BufSize(b)`. -/
def State.sizeOf (s : State) (b : BufId) : Nat := (s.bufSize[b.toNat]).toNat

/-- `InBounds((b,o), n)`: `o + n <= BufSize(b)`, the sum taken in the naturals (rule R38). -/
def State.inBounds (s : State) (a : Addr) (n : Nat) : Bool := decide (a.off + n ≤ s.sizeOf a.buf)

/-- The input and output windows of a transfer overlap without being the same window (rule R51). -/
def partialOverlap (inp out : Addr) (len : Nat) : Bool :=
  decide (inp.buf = out.buf ∧ inp.off ≠ out.off ∧ 0 < len ∧ inp.off < out.off + len ∧ out.off < inp.off + len)

/-- The block holds an instance of the given mode. -/
def State.keyedIn (s : State) (mode : Mode) : Bool := decide (s.life = .keyed ∧ s.mode = mode)

/-- The checks common to the six `INIT_*` (rule R76). `iv` is the IV window of format `KI`. -/
def State.initChecks (s : State) (key : Addr) (len : Nat) (iv : Option Addr) : Option Status :=
  if s.life ≠ .empty then some .illegalState
  else if Config.keyMax < len then some .invalidKeyLength
  else if !s.inBounds key len then some .bufferBounds
  else
    match iv with
    | none => none
    | some a => if !s.inBounds a Config.blockBytes then some .bufferBounds else none

/-- Checks (1) to (4) of `XferChecks(mode, blockAligned)` (rule R112); check (5) is `partialOverlap`. -/
def State.xferChecks (s : State) (mode : Mode) (blockAligned : Bool) (inp out : Addr) (len : Nat) : Option Status :=
  if !s.keyedIn mode then some .illegalState
  else if blockAligned && len % Config.blockBytes != 0 then some .invalidBlockAlignment
  else if !s.inBounds inp len then some .bufferBounds
  else if !s.inBounds out len then some .bufferBounds
  else none

/-- The checks of a register command with an 8-byte window (rules R122, R123, R139, R140). -/
def State.ivChecks (s : State) (mode : Mode) (a : Addr) : Option Status :=
  if !s.keyedIn mode then some .illegalState
  else if !s.inBounds a Config.blockBytes then some .bufferBounds
  else none

/-- A transfer command (rules R112, R61): the first failing check is raised, a partial overlap is refused (rule R51), and
otherwise the mode's own transfer runs and the length is the result. -/
def State.transfer (s : State) (mode : Mode) (blockAligned : Bool) (inp out : Addr) (len : Nat)
    (run : State → State) : Host.Outcome State Fault Refusal :=
  match s.xferChecks mode blockAligned inp out len with
  | some e => s.raise e
  | none => if partialOverlap inp out len then .refused .partialOverlap else (run s).respond (BitVec.ofNat 64 len)

/-- The window a command writes when it ends `OK` (Table 20-1). -/
def writeWindow : Instr → Option (Addr × Nat)
  | .initEcb _ _ => none
  | .initCbc _ _ => none
  | .initCbcIv _ _ _ => none
  | .initCbcIv64 _ _ _ => none
  | .initCfb _ _ => none
  | .initCfbIv _ _ _ => none
  | .cleanup => none
  | .ecbEnc _ out len => some (out, len)
  | .ecbDec _ out len => some (out, len)
  | .cbcEnc _ out len => some (out, len)
  | .cbcDec _ out len => some (out, len)
  | .cbcGetiv out => some (out, 8)
  | .cbcSetiv _ => none
  | .cbcGetiv64 => none
  | .cbcSetiv64 _ => none
  | .cfbEnc _ out len => some (out, len)
  | .cfbDec _ out len => some (out, len)
  | .cfbGetiv out => some (out, 8)
  | .cfbSetiv _ => none
  | .weakkey => none
  | .selftest => none

end Sys2Proof.Machine
end

