-- ==== Sys2Proof/Machine/Cbc.lean ====
section
/-! DEFINITION. CBC mode (spec/44_cbc.md rules R120 to R125). -/

namespace Sys2Proof.Machine

open Sys2Proof

/-- The chain register and the memory a CBC transfer works on. -/
structure CbcRun where
  v : Block
  mem : Memory
  deriving DecidableEq, Repr

/-- One block of `CBC_ENC`: `C <- EncBlock(B ^ V)`, `V <- C`, then the write (rule R120). -/
def CbcRun.encStep (c : CipherState) (a b : Nat) (x : CbcRun) : CbcRun :=
  let y := c.encBlock (Block.xor (x.mem.readBlock a) x.v)
  ⟨y, x.mem.writeBlock b y⟩

/-- One block of `CBC_DEC`: the ciphertext as read is kept, `B <- DecBlock(C) ^ V` with the old `V`, `V <- C`, then the
write (rules R50, R121). -/
def CbcRun.decStep (c : CipherState) (a b : Nat) (x : CbcRun) : CbcRun :=
  let y := x.mem.readBlock a
  ⟨y, x.mem.writeBlock b (Block.xor (c.decBlock y) x.v)⟩

/-- `n` blocks, lowest offset first (rule R48). -/
def CbcRun.blocks (stepAt : Nat → Nat → CbcRun → CbcRun) : Nat → Nat → Nat → CbcRun → CbcRun
  | 0, _, _, x => x
  | n + 1, a, b, x => CbcRun.blocks stepAt n (a + 8) (b + 8) (stepAt a b x)

/-- The state with the chain register and the memory a run left. -/
def State.setCbcRun (s : State) (x : CbcRun) : State := (s.setV x.v).setMem x.mem

/-- `CBC_ENC` (rule R120). -/
def execCbcEnc (inp out : Addr) (len : Nat) (s : State) : Host.Outcome State Fault Refusal :=
  s.transfer .cbc true inp out len fun s =>
    s.setCbcRun (CbcRun.blocks (CbcRun.encStep s.cipher) (len / 8) inp.cell out.cell ⟨s.v, s.mem⟩)

/-- `CBC_DEC` (rule R121). -/
def execCbcDec (inp out : Addr) (len : Nat) (s : State) : Host.Outcome State Fault Refusal :=
  s.transfer .cbc true inp out len fun s =>
    s.setCbcRun (CbcRun.blocks (CbcRun.decStep s.cipher) (len / 8) inp.cell out.cell ⟨s.v, s.mem⟩)

/-- `CBC_SETIV` (rule R122). -/
def execCbcSetiv (inp : Addr) (s : State) : Host.Outcome State Fault Refusal :=
  match s.ivChecks .cbc inp with
  | some e => s.raise e
  | none => (s.setV (s.mem.readBlock inp.cell)).respond 0

/-- `CBC_GETIV` (rule R123). -/
def execCbcGetiv (out : Addr) (s : State) : Host.Outcome State Fault Refusal :=
  match s.ivChecks .cbc out with
  | some e => s.raise e
  | none => (s.setMem (s.mem.writeBlock out.cell s.v)).respond 0

/-- `CBC_SETIV64` (rule R124). -/
def execCbcSetiv64 (imm64 : Quad) (s : State) : Host.Outcome State Fault Refusal :=
  if s.keyedIn .cbc then (s.setV (Block.unpack imm64)).respond 0 else s.raise .illegalState

/-- `CBC_GETIV64` (rule R125). -/
def execCbcGetiv64 (s : State) : Host.Outcome State Fault Refusal :=
  if s.keyedIn .cbc then s.respond (Block.pack s.v) else s.raise .illegalState

end Sys2Proof.Machine
end

