-- ==== Sys2Proof/Machine/Cfb.lean ====
section
/-! DEFINITION. CFB mode (spec/45_cfb.md rules R135 to R141). Only the Engine's forward direction is used. -/

namespace Sys2Proof.Machine

open Sys2Proof

/-- The register and the memory a CFB transfer works on. -/
structure CfbRun where
  r : Block
  mem : Memory
  deriving DecidableEq, Repr

/-- `n` bytes of the head or tail phase (rule R136): the input byte at `a` is read, exclusive-ored with register byte `j`,
the ciphertext byte replaces the register byte, the output byte is written at `b`; then the next byte. -/
def CfbRun.bytes (dec : Bool) : Nat → Nat → Nat → Nat → CfbRun → CfbRun
  | 0, _, _, _, x => x
  | n + 1, j, a, b, x =>
    let i := x.mem.readByte a
    let y := i ^^^ Block.byteAt x.r j
    CfbRun.bytes dec n (j + 1) (a + 1) (b + 1)
      ⟨Block.setByte x.r j (if dec then i else y), x.mem.writeByte b y⟩

/-- `n` full groups (rule R136): a fresh keystream block, the 8 input bytes read, the ciphertext block kept in the
register, the 8 output bytes written. -/
def CfbRun.groups (c : CipherState) (dec : Bool) : Nat → Nat → Nat → CfbRun → CfbRun
  | 0, _, _, x => x
  | n + 1, a, b, x =>
    let i := x.mem.readBlock a
    let y := Block.xor i (c.encBlock x.r)
    CfbRun.groups c dec n (a + 8) (b + 8) ⟨if dec then i else y, x.mem.writeBlock b y⟩

/-- `CfbRun(dec)` (rule R136): the head uses up what is left of the register, then come the full groups, then the tail on
one more keystream block, which leaves `8 - t` bytes of it (DEDUCED,
notes/assumptions/14.md). -/
def State.cfbRun (s : State) (dec : Bool) (a b len : Nat) : State :=
  let k := min s.bytesLeft.val len
  let head := CfbRun.bytes dec k (8 - s.bytesLeft.val) a b ⟨s.r, s.mem⟩
  let g := (len - k) / 8
  let full := CfbRun.groups s.cipher dec g (a + k) (b + k) head
  let t := (len - k) % 8
  if t = 0 then (s.setCfb full.r (Fin.ofNat 9 (s.bytesLeft.val - k))).setMem full.mem
  else
    let tail := CfbRun.bytes dec t 0 (a + k + 8 * g) (b + k + 8 * g) ⟨s.cipher.encBlock full.r, full.mem⟩
    (s.setCfb tail.r (Fin.ofNat 9 (8 - t))).setMem tail.mem

/-- `CFB_ENC` (rule R137). -/
def execCfbEnc (inp out : Addr) (len : Nat) (s : State) : Host.Outcome State Fault Refusal :=
  s.transfer .cfb false inp out len fun s => s.cfbRun false inp.cell out.cell len

/-- `CFB_DEC` (rule R138). -/
def execCfbDec (inp out : Addr) (len : Nat) (s : State) : Host.Outcome State Fault Refusal :=
  s.transfer .cfb false inp out len fun s => s.cfbRun true inp.cell out.cell len

/-- `CFB_SETIV` (rule R139): `BYTESLEFT` is cleared. -/
def execCfbSetiv (inp : Addr) (s : State) : Host.Outcome State Fault Refusal :=
  match s.ivChecks .cfb inp with
  | some e => s.raise e
  | none => (s.setCfb (s.mem.readBlock inp.cell) 0).respond 0

/-- `CFB_GETIV` (rule R140): the 8 bytes as they stand. -/
def execCfbGetiv (out : Addr) (s : State) : Host.Outcome State Fault Refusal :=
  match s.ivChecks .cfb out with
  | some e => s.raise e
  | none => (s.setMem (s.mem.writeBlock out.cell s.r)).respond 0

end Sys2Proof.Machine
end

