-- ==== Sys2Proof/Machine/KeySchedule.lean ====
section
/-! DEFINITION. The key schedule (spec/40_keyschedule.md rules R70 to R75): load the constants, mix the key into the
P-box, derive all 1042 words by repeated encryption. It depends on the key bytes alone. -/

namespace Sys2Proof.Machine

open Sys2Proof

/-- The cycled key stream `KS[m] = K[m mod n]` (rule R72). -/
def keyStream (key : List Byte) (m : Nat) : Byte := key.getD (m % key.length) 0

/-- The 32-bit chunk exclusive-ored into `P[i]`, big-endian (rules R43, R72). -/
def keyChunk (key : List Byte) (i : Nat) : Word :=
  be32 (keyStream key (4 * i)) (keyStream key (4 * i + 1)) (keyStream key (4 * i + 2)) (keyStream key (4 * i + 3))

/-- Step 2: `P[i] <- P[i] ^ chunk i`; a zero-length key performs no exclusive-or (rule R72). -/
def CipherState.mixKey (c : CipherState) (key : List Byte) : CipherState :=
  if key.isEmpty then c else { c with p := Vector.ofFn fun i => c.pAt i ^^^ keyChunk key i.val }

/-- The working block and the CipherState of step 3. -/
structure Derivation where
  block : Halves
  cipher : CipherState
  deriving DecidableEq, Repr

/-- One derivation step into `P[2j], P[2j+1]`: the working block is encrypted under the CipherState as it stands and its
halves overwrite the two entries (rule R73). -/
def Derivation.intoP (d : Derivation) (j : Fin 9) : Derivation :=
  let h := d.cipher.bfEnc d.block
  ⟨h, (d.cipher.setP ⟨2 * j.val, by omega⟩ h.hi).setP ⟨2 * j.val + 1, by omega⟩ h.lo⟩

/-- One derivation step into `S[k+1][2j], S[k+1][2j+1]` (rule R73). -/
def Derivation.intoS (k : Fin 4) (d : Derivation) (j : Fin 128) : Derivation :=
  let h := d.cipher.bfEnc d.block
  ⟨h, (d.cipher.setS k ⟨2 * j.val, by omega⟩ h.hi).setS k ⟨2 * j.val + 1, by omega⟩ h.lo⟩

/-- All 128 derivation steps of one S-box. -/
def Derivation.sbox (d : Derivation) (k : Fin 4) : Derivation := (List.finRange 128).foldl (Derivation.intoS k) d

/-- Step 3: 9 derivation steps into the P-box, then 128 into each S-box in turn. The working block starts as zero and each
result is the input of the next step (rule R73). -/
def CipherState.derive (c : CipherState) : CipherState :=
  let d := (List.finRange 9).foldl Derivation.intoP ⟨⟨0, 0⟩, c⟩
  ((List.finRange 4).foldl Derivation.sbox d).cipher

/-- `KeySchedule(K, n)` with `n` the length of `K` (rule R70). -/
def keySchedule (key : List Byte) : CipherState := (piCipher.mixKey key).derive

end Sys2Proof.Machine
end

