-- ==== Sys2Proof/Machine/Diagnostics.lean ====
section
/-! DEFINITION. The diagnostics `WEAKKEY` and `SELFTEST` (spec/42_diagnostics.md rules R100 to R103). -/

namespace Sys2Proof.Machine

open Sys2Proof

/-- Two entries of the list are equal words. -/
def hasRepeat : List Word → Bool
  | [] => false
  | x :: xs => xs.contains x || hasRepeat xs

/-- Some S-box holds two equal words; only entries of the same S-box are compared (rule R100). -/
def CipherState.weak (c : CipherState) : Bool := c.s.toList.any fun box => hasRepeat box.toList

/-- `WEAKKEY` (rule R100). -/
def execWeakkey (s : State) : Host.Outcome State Fault Refusal :=
  if s.life ≠ .keyed then s.raise .illegalState else s.respond (boolResult s.cipher.weak)

/-- A known answer: key, plaintext, ciphertext (rule R102). -/
structure KnownAnswer where
  key : List Byte
  plain : Block
  cipher : Block
  deriving DecidableEq, Repr

/-- `SELFTEST_VECTORS` (Table 42-1; values the spec marks general knowledge, notes/assumptions/11.md). -/
def selftestVectors : List KnownAnswer :=
  [ ⟨[0x00, 0x00, 0x00, 0x00, 0x00, 0x00, 0x00, 0x00],
     #v[0x00, 0x00, 0x00, 0x00, 0x00, 0x00, 0x00, 0x00],
     #v[0x4E, 0xF9, 0x97, 0x45, 0x61, 0x98, 0xDD, 0x78]⟩,
    ⟨[0xFF, 0xFF, 0xFF, 0xFF, 0xFF, 0xFF, 0xFF, 0xFF],
     #v[0xFF, 0xFF, 0xFF, 0xFF, 0xFF, 0xFF, 0xFF, 0xFF],
     #v[0x51, 0x86, 0x6F, 0xD5, 0xB8, 0x5E, 0xCB, 0x8A]⟩,
    ⟨[0x1C, 0x58, 0x7F, 0x1C, 0x13, 0x92, 0x4F, 0xEF],
     #v[0x30, 0x55, 0x32, 0x28, 0x6D, 0x6F, 0x29, 0x5A],
     #v[0x55, 0xCB, 0x37, 0x74, 0xD1, 0x3E, 0xF2, 0x01]⟩,
    ⟨[0x57, 0x68, 0x6F, 0x20, 0x69, 0x73, 0x20, 0x4A, 0x6F, 0x68, 0x6E, 0x20, 0x47, 0x61, 0x6C, 0x74, 0x3F],
     #v[0xFE, 0xDC, 0xBA, 0x98, 0x76, 0x54, 0x32, 0x10],
     #v[0xCC, 0x91, 0x73, 0x2B, 0x80, 0x22, 0xF6, 0x84]⟩ ]

/-- One known answer holds in both directions, on a scratch CipherState of its own key (rules R25, R101). -/
def KnownAnswer.passes (t : KnownAnswer) : Bool :=
  let c := keySchedule t.key
  decide (c.encBlock t.plain = t.cipher) && decide (c.decBlock t.cipher = t.plain)

/-- `SELFTEST` (rule R101): accepted in every state, it changes none. -/
def execSelftest (s : State) : Host.Outcome State Fault Refusal :=
  s.respond (boolResult (selftestVectors.all KnownAnswer.passes))

end Sys2Proof.Machine
end

