-- ==== Sys2Proof/Machine/Ecb.lean ====
section
/-! DEFINITION. ECB mode (spec/43_ecb.md rules R110, R111). -/

namespace Sys2Proof.Machine

open Sys2Proof

/-- `n` blocks from key `a` through `g` to key `b`, lowest offset first, each block read whole before it is written
(rule R48). -/
def Memory.mapBlocks (g : Block → Block) : Nat → Nat → Nat → Memory → Memory
  | 0, _, _, m => m
  | n + 1, a, b, m => Memory.mapBlocks g n (a + 8) (b + 8) (Memory.writeBlock m b (g (Memory.readBlock m a)))

/-- `ECB_ENC` (rule R110). -/
def execEcbEnc (inp out : Addr) (len : Nat) (s : State) : Host.Outcome State Fault Refusal :=
  s.transfer .ecb true inp out len fun s =>
    s.setMem (s.mem.mapBlocks s.cipher.encBlock (len / 8) inp.cell out.cell)

/-- `ECB_DEC` (rule R111). -/
def execEcbDec (inp out : Addr) (len : Nat) (s : State) : Host.Outcome State Fault Refusal :=
  s.transfer .ecb true inp out len fun s =>
    s.setMem (s.mem.mapBlocks s.cipher.decBlock (len / 8) inp.cell out.cell)

end Sys2Proof.Machine
end

