-- ==== Sys2Proof/Machine/Lifecycle.lean ====
section
/-! DEFINITION. The construction commands and `CLEANUP` (spec/40_keyschedule.md rules R76 to R83). -/

namespace Sys2Proof.Machine

open Sys2Proof

/-- The state a construction leaves before its own register load: the CipherState of the key in the window, `V`, `R`,
`BYTESLEFT` zero, `MODE` and `LIFE` set (rule R76). -/
def State.construct (s : State) (mode : Mode) (key : Addr) (len : Nat) : State :=
  ((s.setInstance (keySchedule (s.mem.read key.cell len)) mode .keyed).setV zeroBlock).setCfb zeroBlock 0

/-- `InitCommon(mode)` (rule R76): the checks, the construction, the command's own register load, `OK(0)`. -/
def State.initCommon (s : State) (mode : Mode) (key : Addr) (len : Nat) (iv : Option Addr) (load : State → State) :
    Host.Outcome State Fault Refusal :=
  match s.initChecks key len iv with
  | some e => s.raise e
  | none => (load (s.construct mode key len)).respond 0

/-- `INIT_ECB` (rule R77). -/
def execInitEcb (key : Addr) (len : Nat) (s : State) : Host.Outcome State Fault Refusal :=
  s.initCommon .ecb key len none id

/-- `INIT_CBC` (rule R78): `V` stays zero. -/
def execInitCbc (key : Addr) (len : Nat) (s : State) : Host.Outcome State Fault Refusal :=
  s.initCommon .cbc key len none id

/-- `INIT_CBC_IV` (rule R79): `V` is loaded from the IV window. -/
def execInitCbcIv (key : Addr) (len : Nat) (iv : Addr) (s : State) : Host.Outcome State Fault Refusal :=
  s.initCommon .cbc key len (some iv) fun t => t.setV (t.mem.readBlock iv.cell)

/-- `INIT_CBC_IV64` (rule R80): `V` is loaded from the packed value. -/
def execInitCbcIv64 (key : Addr) (len : Nat) (imm64 : Quad) (s : State) : Host.Outcome State Fault Refusal :=
  s.initCommon .cbc key len none fun t => t.setV (Block.unpack imm64)

/-- `INIT_CFB` (rule R81): `R` and `BYTESLEFT` stay zero. -/
def execInitCfb (key : Addr) (len : Nat) (s : State) : Host.Outcome State Fault Refusal :=
  s.initCommon .cfb key len none id

/-- `INIT_CFB_IV` (rule R82): `R` is loaded from the IV window and `BYTESLEFT` stays 0. -/
def execInitCfbIv (key : Addr) (len : Nat) (iv : Addr) (s : State) : Host.Outcome State Fault Refusal :=
  s.initCommon .cfb key len (some iv) fun t => t.setCfb (t.mem.readBlock iv.cell) 0

/-- The block with no instance: every sensitive element of Table 10-1 zero, `MODE = NONE`, `LIFE = EMPTY` (rule R27). -/
def State.wipe (s : State) : State :=
  ((s.setInstance CipherState.zero .none .empty).setV zeroBlock).setCfb zeroBlock 0

/-- `CLEANUP` (rule R83). -/
def execCleanup (s : State) : Host.Outcome State Fault Refusal :=
  if s.life ≠ .keyed then s.raise .illegalState else s.wipe.respond 0

end Sys2Proof.Machine
end

