-- ==== Sys2Proof/Machine/Dispatch.lean ====
section
/-! DEFINITION. One arm per command of spec/30_encoding.md Table 30-2, each one call of the command's meaning. -/

namespace Sys2Proof.Machine

open Sys2Proof

-- The command's whole effect on the state, its response included.
def exec (i : Instr) (s : State) : Host.Outcome State Fault Refusal :=
  match i with
  | .initEcb key len => Sys2Proof.Machine.execInitEcb key len s
  | .initCbc key len => Sys2Proof.Machine.execInitCbc key len s
  | .initCbcIv key len iv => Sys2Proof.Machine.execInitCbcIv key len iv s
  | .initCbcIv64 key len imm64 => Sys2Proof.Machine.execInitCbcIv64 key len imm64 s
  | .initCfb key len => Sys2Proof.Machine.execInitCfb key len s
  | .initCfbIv key len iv => Sys2Proof.Machine.execInitCfbIv key len iv s
  | .cleanup => Sys2Proof.Machine.execCleanup s
  | .ecbEnc inp out len => Sys2Proof.Machine.execEcbEnc inp out len s
  | .ecbDec inp out len => Sys2Proof.Machine.execEcbDec inp out len s
  | .cbcEnc inp out len => Sys2Proof.Machine.execCbcEnc inp out len s
  | .cbcDec inp out len => Sys2Proof.Machine.execCbcDec inp out len s
  | .cbcGetiv out => Sys2Proof.Machine.execCbcGetiv out s
  | .cbcSetiv inp => Sys2Proof.Machine.execCbcSetiv inp s
  | .cbcGetiv64 => Sys2Proof.Machine.execCbcGetiv64 s
  | .cbcSetiv64 imm64 => Sys2Proof.Machine.execCbcSetiv64 imm64 s
  | .cfbEnc inp out len => Sys2Proof.Machine.execCfbEnc inp out len s
  | .cfbDec inp out len => Sys2Proof.Machine.execCfbDec inp out len s
  | .cfbGetiv out => Sys2Proof.Machine.execCfbGetiv out s
  | .cfbSetiv inp => Sys2Proof.Machine.execCfbSetiv inp s
  | .weakkey => Sys2Proof.Machine.execWeakkey s
  | .selftest => Sys2Proof.Machine.execSelftest s

end Sys2Proof.Machine
end

