-- ==== Sys2Proof/Machine/HostSide.lean ====
section
/-! DEFINITION. What the host's side does to the machine besides a command that decodes (spec/20_memory.md rules R52,
R54; spec/60_exceptions.md rule R160; spec/70_reset_and_hazards.md rule R180). -/

namespace Sys2Proof.Machine

open Sys2Proof

/-- The host writes into a buffer of its own. A write outside the buffer names bytes that do not exist. -/
def hostWrite (dst : Addr) (bytes : List Byte) (s : State) : Host.Outcome State Fault Refusal :=
  if s.inBounds dst bytes.length then .next (s.setMem (s.mem.write dst.cell bytes))
  else .fault .noSuchBufferByte

/-- Reset with no command in flight: the state elements of Table 10-1 as after `CLEANUP`, no response
outstanding; the host's buffers and what it does next are not the block's to change (rule R180, notes/assumptions/4.md). -/
def hostReset (s : State) : State := s.wipe.clearResponse

/-- How many of the `n` bytes of a window its buffer has. -/
def State.present (s : State) (w : Addr) (n : Nat) : Nat := min n (s.sizeOf w.buf - w.off)

/-- Any value in every byte of a window that its buffer has. -/
def State.freeWindow (s : State) (w : Addr) (n : Nat) : State :=
  (s.setMem (s.mem.write w.cell (freeBytes s.freeCount (s.present w n)))).setFreeCount (s.freeCount + s.present w n)

/-- What a command leaves of the buffers when reset cuts it off: any value in every byte of its output window, whichever of
its checks would have passed (spec/93_implementation_defined.md U6, notes/assumptions/16.md). -/
def State.cutOff (s : State) (i : Instr) : State :=
  match writeWindow i with
  | none => s
  | some w => s.freeWindow w.1 w.2

/-- Reset while the command of a descriptor is in flight (rule R180, U6): the state after it is the reset state. A
descriptor that is no command has no output window. A command to which the spec gives no meaning (rule R51) is refused here
too. -/
def hostResetDuring (d : Descriptor) (s : State) : Host.Outcome State Fault Refusal :=
  match decode d with
  | .error _ => .next (hostReset s)
  | .ok i =>
    match exec i s with
    | .next _ => .next (hostReset (s.cutOff i))
    | .fault f => .fault f
    | .refused r => .refused r

/-- A descriptor whose code is not in Table 30-2 (rule R160). -/
def execIllegal (_e : DecodeError) (s : State) : Host.Outcome State Fault Refusal := s.raise .illegalCommand

end Sys2Proof.Machine
end

