-- ==== Sys2Proof/Machine/Step.lean ====
section
/-! DEFINITION. One step of the machine: the host's next action, carried out whole (spec/20_memory.md rule R52: a command
is atomic; what the model has no step for is in notes/assumptions/6.md). There is no
program counter and no fetch from memory (spec/10_state.md rule R21): the command comes from the host. -/

namespace Sys2Proof.Machine

open Sys2Proof

/-- One action of the host, on the state from which it has been taken. -/
def act (a : HostAction) (s : State) : Host.Outcome State Fault Refusal :=
  match a with
  | .command d =>
    match decode d with
    | .ok i => exec i s
    | .error e => execIllegal e s
  | .writeBuffer dst bytes => hostWrite dst bytes s
  | .reset => .next (hostReset s)
  | .resetDuring d => hostResetDuring d s

/-- One step. With nothing to do the block waits (rule R180). -/
def step (s : State) : Host.Outcome State Fault Refusal :=
  match s.inbox with
  | [] => .next s
  | a :: q => act a (s.setInbox q)

/-- The state whose next step runs the command whose first `nbits` bits are those of `w` (notes/assumptions/3.md). -/
def State.withFetchWord (s : State) (nbits w : Nat) : State :=
  s.setInbox (.command (tableDescriptor nbits w) :: s.inbox)

end Sys2Proof.Machine
end

