-- ==== Sys2Proof/Safety.lean ====
section
/-! DEFINITION. The terms claims about the machine are stated in: which descriptor bits a command code uses
(spec/30_encoding.md rule R58), windows of the host's buffers and what a command may read and write of them
(spec/20_memory.md), what a safe step is, the table of which command is accepted in which state (spec/60_exceptions.md
Table 60-2), the shape of the rules of construction, transfer and register commands, the order of the key schedule's words,
the invariants of spec/10_state.md rule R20 and of the byte memory, and the CFB byte stream (spec/45_cfb.md rule R135).
None of it is used by the machine. -/

namespace Sys2Proof

/-- The address `i` bytes further on in the same buffer. -/
def Addr.plus (a : Addr) (i : Nat) : Addr := ⟨a.buf, a.off + i⟩

/-- The address is one of the `n` bytes of the window that starts at `w` (rule R36). -/
def inWindow (w : Addr) (n : Nat) (a : Addr) : Prop := a.buf = w.buf ∧ w.off ≤ a.off ∧ a.off < w.off + n

/-- Two windows of `n` bytes are the same window or share no byte: no partial overlap (rules R51, R188). -/
def apartOrSame (inp out : Addr) (n : Nat) : Prop :=
  inp = out ∨ inp.buf ≠ out.buf ∨ n = 0 ∨ inp.off + n ≤ out.off ∨ out.off + n ≤ inp.off

namespace Machine

/-! ### Outcomes -/

/-- The step goes on: no fault and no refusal. -/
def Safe (o : Host.Outcome State Fault Refusal) : Prop := ∃ t, o = .next t

/-! ### Buffer contents -/

/-- The `n` bytes of a window, in increasing offset. -/
def State.bytes (s : State) (w : Addr) (n : Nat) : List Byte := (List.range n).map fun i => s.byteAt (w.plus i)

/-- The 8 bytes from an address on, as a block. -/
def State.block (s : State) (w : Addr) : Block := Vector.ofFn fun i => s.byteAt (w.plus i.val)

/-- Every byte of every buffer outside the window is as before. -/
def sameOutside (s t : State) (w : Addr) (n : Nat) : Prop :=
  ∀ a : Addr, a.off < Config.offLimit → ¬ inWindow w n a → t.byteAt a = s.byteAt a

/-- Every byte of every buffer is as before. -/
def sameBytes (s t : State) : Prop := ∀ a : Addr, t.byteAt a = s.byteAt a

/-- Every element of Table 10-1 is as before. -/
def sameRegisters (s t : State) : Prop :=
  t.cipher = s.cipher ∧ t.v = s.v ∧ t.r = s.r ∧ t.bytesLeft = s.bytesLeft ∧ t.life = s.life ∧ t.mode = s.mode

/-- What a command never changes: which buffers exist, what the host does next and how many free values are used. -/
def sameHost (s t : State) : Prop := t.bufSize = s.bufSize ∧ t.inbox = s.inbox ∧ t.freeCount = s.freeCount

/-- The windows a command reads when it ends `OK` (Table 20-1). -/
def readWindows : Instr → List (Addr × Nat)
  | .initEcb key len => [(key, len)]
  | .initCbc key len => [(key, len)]
  | .initCbcIv key len iv => [(key, len), (iv, 8)]
  | .initCbcIv64 key len _ => [(key, len)]
  | .initCfb key len => [(key, len)]
  | .initCfbIv key len iv => [(key, len), (iv, 8)]
  | .cleanup => []
  | .ecbEnc inp _ len => [(inp, len)]
  | .ecbDec inp _ len => [(inp, len)]
  | .cbcEnc inp _ len => [(inp, len)]
  | .cbcDec inp _ len => [(inp, len)]
  | .cbcGetiv _ => []
  | .cbcSetiv inp => [(inp, 8)]
  | .cbcGetiv64 => []
  | .cbcSetiv64 _ => []
  | .cfbEnc inp _ len => [(inp, len)]
  | .cfbDec inp _ len => [(inp, len)]
  | .cfbGetiv _ => []
  | .cfbSetiv inp => [(inp, 8)]
  | .weakkey => []
  | .selftest => []

/-! ### Which command is accepted in which state -/

/-- The columns of Table 60-2 in which a command goes on to its other checks: `EMPTY`, or `KEYED` in one of the modes. -/
def accepted (i : Instr) (life : Life) (mode : Mode) : Prop :=
  match i with
  | .initEcb _ _ | .initCbc _ _ | .initCbcIv _ _ _ | .initCbcIv64 _ _ _ | .initCfb _ _ | .initCfbIv _ _ _ =>
    life = .empty
  | .cleanup => life = .keyed
  | .ecbEnc _ _ _ | .ecbDec _ _ _ => life = .keyed ∧ mode = .ecb
  | .cbcEnc _ _ _ | .cbcDec _ _ _ | .cbcGetiv _ | .cbcSetiv _ | .cbcGetiv64 | .cbcSetiv64 _ =>
    life = .keyed ∧ mode = .cbc
  | .cfbEnc _ _ _ | .cfbDec _ _ _ | .cfbGetiv _ | .cfbSetiv _ => life = .keyed ∧ mode = .cfb
  | .weakkey => life = .keyed
  | .selftest => True

/-! ### Invariants -/

/-- The state invariants (a) to (e) of rule R20. -/
def RegistersInv (s : State) : Prop :=
  (s.life = .empty → s.mode = .none ∧ s.cipher = CipherState.zero ∧ s.v = zeroBlock ∧ s.r = zeroBlock ∧ s.bytesLeft = 0) ∧
  (s.life = .keyed → s.mode ≠ .none ∧ ∃ key : List Byte, key.length ≤ Config.keyMax ∧ s.cipher = keySchedule key) ∧
  (s.mode ≠ .cbc → s.v = zeroBlock) ∧
  (s.mode ≠ .cfb → s.r = zeroBlock ∧ s.bytesLeft = 0) ∧
  s.bytesLeft.val ≤ 7

/-- The byte memory is in canonical form and lists only bytes that a buffer has. -/
def MemoryInv (s : State) : Prop :=
  Memory.wf s.mem = true ∧ ∀ c ∈ s.mem, ∃ a : Addr, c.1 = a.cell ∧ a.off < s.sizeOf a.buf

/-! ### The CFB byte stream -/

/-- The register pair of CFB between two bytes of a stream: `R` and the number of unused bytes of it (rule R135). -/
structure CfbRegister where
  r : Block
  left : Nat
  deriving DecidableEq, Repr

/-- The register pair when the next byte is due: with nothing left, a fresh keystream block of which all 8 bytes are left
(rule R135). -/
def CfbRegister.ready (c : CipherState) (x : CfbRegister) : CfbRegister :=
  if x.left = 0 then ⟨c.encBlock x.r, 8⟩ else x

/-- The next output byte of the stream: the input byte exclusive-ored with `R[8 - n]` (rule R135). -/
def CfbRegister.output (c : CipherState) (x : CfbRegister) (i : Byte) : Byte :=
  i ^^^ Block.byteAt (x.ready c).r (8 - (x.ready c).left)

/-- The register pair after that byte: the ciphertext byte has replaced the used keystream byte (rules R135, R136). -/
def CfbRegister.next (c : CipherState) (dec : Bool) (x : CfbRegister) (i : Byte) : CfbRegister :=
  ⟨Block.setByte (x.ready c).r (8 - (x.ready c).left) (if dec then i else x.output c i), (x.ready c).left - 1⟩

/-- The output bytes of a stream. -/
def CfbRegister.stream (c : CipherState) (dec : Bool) (x : CfbRegister) : List Byte → List Byte
  | [] => []
  | i :: is => x.output c i :: CfbRegister.stream c dec (x.next c dec i) is

/-- The register pair after a stream. -/
def CfbRegister.after (c : CipherState) (dec : Bool) (x : CfbRegister) (is : List Byte) : CfbRegister :=
  is.foldl (fun y i => y.next c dec i) x

/-! ### The descriptor -/

/-- The 21 command codes of Table 30-2. -/
def commandCodes : List Nat :=
  [0x01, 0x02, 0x03, 0x04, 0x05, 0x06, 0x0F, 0x10, 0x11, 0x20, 0x21, 0x24, 0x25, 0x26, 0x27, 0x30, 0x31, 0x34, 0x35,
    0x40, 0x41]

/-- The descriptor bits the format of a command code uses (rule R58, Table 30-2); of an unknown code the code alone. -/
def usedBits (op : Nat) : Descriptor :=
  match op with
  | 0x01 | 0x02 | 0x05 => 0x0000000000000000FFFFFFFF00000000FFFFFFFF0000FFFF
  | 0x04 => 0xFFFFFFFFFFFFFFFFFFFFFFFF00000000FFFFFFFF0000FFFF
  | 0x03 | 0x06 | 0x10 | 0x11 | 0x20 | 0x21 | 0x30 | 0x31 => 0x0000000000000000FFFFFFFFFFFFFFFFFFFFFFFF00FFFFFF
  | 0x24 | 0x34 => 0x000000000000000000000000FFFFFFFF0000000000FF00FF
  | 0x25 | 0x35 => 0x00000000000000000000000000000000FFFFFFFF0000FFFF
  | 0x27 => 0xFFFFFFFFFFFFFFFF000000000000000000000000000000FF
  | _ => 0xFF

/-! ### Launch -/

/-- A launch state: the block as reset leaves it and buffers of any sizes with any contents (rules R26, R39), from any point
of the free values on. -/
def State.launch (sizes : Vector (BitVec 32) 256) (mem : Memory) (free : Nat) : State :=
  { State.reset with bufSize := sizes, mem := mem, freeCount := free }

/-! ### The shape of a command's rule -/

/-- The error response and nothing else changed (rule R162). -/
def State.failed (s : State) (e : Status) : State := { s with response := some ⟨e, 0⟩ }

/-- `InBounds(w, n)` (rule R38), as a sum of naturals. -/
def State.fits (s : State) (w : Addr) (n : Nat) : Prop := w.off + n ≤ s.sizeOf w.buf

/-- The block holds an instance of the mode. -/
def State.holds (s : State) (mode : Mode) : Prop := s.life = .keyed ∧ s.mode = mode

/-- The rule of an `INIT_*` (rules R76, R161): its errors, first that applies, and otherwise its effect, with what it loads
into `V` and `R`. -/
def InitRule (i : Instr) (mode : Mode) (key : Addr) (len : Nat) (iv : Option Addr) (v r : State → Block) : Prop :=
  ∀ s : State,
    (s.life ≠ .empty → exec i s = .next (s.failed .illegalState)) ∧
    (s.life = .empty → 56 < len → exec i s = .next (s.failed .invalidKeyLength)) ∧
    (s.life = .empty → len ≤ 56 → ¬ (s.fits key len ∧ ∀ a, iv = some a → s.fits a 8) →
      exec i s = .next (s.failed .bufferBounds)) ∧
    (s.life = .empty → len ≤ 56 → s.fits key len → (∀ a, iv = some a → s.fits a 8) →
      exec i s = .next { s with
        cipher := keySchedule (s.bytes key len), mode := mode, life := .keyed, v := v s, r := r s, bytesLeft := 0,
        response := some ⟨.ok, 0⟩ })

/-- The rule of a transfer (rules R112, R161, R46): its errors, first that applies; the refusal of a partial overlap (rule
R51); otherwise `OK(len)`, the mode's own effect, and no byte outside the output window changed. -/
def TransferRule (cmd : Addr → Addr → Nat → Instr) (mode : Mode) (blocks : Bool)
    (effect : Addr → Addr → Nat → State → State → Prop) : Prop :=
  ∀ (inp out : Addr) (len : Nat) (s : State),
    (¬ s.holds mode → exec (cmd inp out len) s = .next (s.failed .illegalState)) ∧
    (s.holds mode → blocks = true → len % 8 ≠ 0 →
      exec (cmd inp out len) s = .next (s.failed .invalidBlockAlignment)) ∧
    (s.holds mode → (blocks = true → len % 8 = 0) → ¬ (s.fits inp len ∧ s.fits out len) →
      exec (cmd inp out len) s = .next (s.failed .bufferBounds)) ∧
    (s.holds mode → (blocks = true → len % 8 = 0) → s.fits inp len → s.fits out len → ¬ apartOrSame inp out len →
      exec (cmd inp out len) s = .refused .partialOverlap) ∧
    (s.holds mode → (blocks = true → len % 8 = 0) → s.fits inp len → s.fits out len → apartOrSame inp out len →
      ∃ t, exec (cmd inp out len) s = .next t ∧ effect inp out len s t ∧ sameOutside s t out len ∧ sameHost s t ∧
        t.response = some ⟨.ok, BitVec.ofNat 64 len⟩)

/-- The rule of a register command with an 8-byte window (rules R122, R123, R139, R140): its errors, first that applies;
otherwise `OK(0)` and its own effect. -/
def WindowRule (cmd : Addr → Instr) (mode : Mode) (effect : Addr → State → State → Prop) : Prop :=
  ∀ (w : Addr) (s : State),
    (¬ s.holds mode → exec (cmd w) s = .next (s.failed .illegalState)) ∧
    (s.holds mode → ¬ s.fits w 8 → exec (cmd w) s = .next (s.failed .bufferBounds)) ∧
    (s.holds mode → s.fits w 8 →
      ∃ t, exec (cmd w) s = .next t ∧ effect w s t ∧ sameHost s t ∧ t.response = some ⟨.ok, 0⟩)

/-- The registers other than `V` are as before. -/
def sameButV (s t : State) : Prop :=
  t.cipher = s.cipher ∧ t.r = s.r ∧ t.bytesLeft = s.bytesLeft ∧ t.life = s.life ∧ t.mode = s.mode

/-- The registers other than `R` and `BYTESLEFT` are as before. -/
def sameButR (s t : State) : Prop := t.cipher = s.cipher ∧ t.v = s.v ∧ t.life = s.life ∧ t.mode = s.mode

/-- A transfer command, the mode it belongs to, and whether its length must be whole blocks (rule R112). -/
structure TransferKind where
  cmd : Addr → Addr → Nat → Instr
  mode : Mode
  blocks : Bool

/-- The four block transfers. -/
def blockTransfers : List TransferKind :=
  [⟨.ecbEnc, .ecb, true⟩, ⟨.ecbDec, .ecb, true⟩, ⟨.cbcEnc, .cbc, true⟩, ⟨.cbcDec, .cbc, true⟩]

/-- The two byte-stream transfers. -/
def streamTransfers : List TransferKind := [⟨.cfbEnc, .cfb, false⟩, ⟨.cfbDec, .cfb, false⟩]

/-- A transfer cut into commands of the given lengths over consecutive sub-windows (rules R142, R187). -/
def runChunks (cmd : Addr → Addr → Nat → Instr) : List Nat → Addr → Addr → State → Host.Outcome State Fault Refusal
  | [], _, _, s => .next s
  | n :: ns, inp, out, s =>
    match exec (cmd inp out n) s with
    | .next t => runChunks cmd ns (inp.plus n) (out.plus n) t
    | .fault f => .fault f
    | .refused r => .refused r

/-! ### Errors -/

/-- The key length of an `INIT_*`. -/
def keyLength : Instr → Option Nat
  | .initEcb _ len | .initCbc _ len | .initCbcIv _ len _ | .initCbcIv64 _ len _ | .initCfb _ len
  | .initCfbIv _ len _ => some len
  | .cleanup | .ecbEnc _ _ _ | .ecbDec _ _ _ | .cbcEnc _ _ _ | .cbcDec _ _ _ | .cbcGetiv _ | .cbcSetiv _ | .cbcGetiv64
  | .cbcSetiv64 _ | .cfbEnc _ _ _ | .cfbDec _ _ _ | .cfbGetiv _ | .cfbSetiv _ | .weakkey | .selftest => none

/-- The data length of a transfer that takes whole blocks only. -/
def blockLength : Instr → Option Nat
  | .ecbEnc _ _ len | .ecbDec _ _ len | .cbcEnc _ _ len | .cbcDec _ _ len => some len
  | .initEcb _ _ | .initCbc _ _ | .initCbcIv _ _ _ | .initCbcIv64 _ _ _ | .initCfb _ _ | .initCfbIv _ _ _ | .cleanup
  | .cbcGetiv _ | .cbcSetiv _ | .cbcGetiv64 | .cbcSetiv64 _ | .cfbEnc _ _ _ | .cfbDec _ _ _ | .cfbGetiv _ | .cfbSetiv _
  | .weakkey | .selftest => none

/-- Every window a command names (rule R158). -/
def windows (i : Instr) : List (Addr × Nat) := readWindows i ++ (writeWindow i).toList

/-- The command names a key longer than 56 bytes or a length that is not whole blocks. -/
def badLength (i : Instr) : Prop := (∃ n, keyLength i = some n ∧ 56 < n) ∨ (∃ n, blockLength i = some n ∧ n % 8 ≠ 0)

/-! ### The order of the key schedule -/

/-- The 1042 words of a CipherState in the order the key schedule writes them: `P[0..17]`, `S[1]`, `S[2]`, `S[3]`, `S[4]`
(rule R73). -/
def CipherState.word (c : CipherState) (n : Fin 1042) : Word :=
  if h : n.val < 18 then c.pAt ⟨n.val, h⟩
  else c.sAt ⟨(n.val - 18) / 256, by omega⟩ ⟨(n.val - 18) % 256, by omega⟩

end Machine

end Sys2Proof
end

