-- ==== Sys2Proof/Certificates/Slice0/Obligations.lean ====
section
/-! DEFINITION. The statements for the provers. Each docstring says which rule of spec/ it formalises; one that rests on a
choice of the model names the log entry. Terms are those of Sys2Proof/Safety.lean. -/

open Sys2Proof Sys2Proof.Machine

/-! ### Descriptors (spec/30_encoding.md) -/

/-- The worked encodings of rule R63, and one descriptor of every other format written out from Table 30-1. -/
def Obligations.WrittenOutDescriptorsDecode : Prop :=
  decode 0x000000000000000000000018000000000000001000020120 = .ok (.cbcEnc ⟨1, 16⟩ ⟨2, 0⟩ 24) ∧
  decode 0xFEDCBA987654321000000000000000000000000000000027 = .ok (.cbcSetiv64 0xFEDCBA9876543210) ∧
  decode 0x000000000000000000000008000000000000000500000301 = .ok (.initEcb ⟨3, 5⟩ 8) ∧
  decode 0x000000000000000000000038000000070000000900020103 = .ok (.initCbcIv ⟨1, 9⟩ 56 ⟨2, 7⟩) ∧
  decode 0x010203040506070800000010000000000000000000000104 = .ok (.initCbcIv64 ⟨1, 0⟩ 16 0x0102030405060708) ∧
  decode 0x000000000000000000000000000000200000000000FF0034 = .ok (.cfbGetiv ⟨255, 32⟩) ∧
  decode 0x00000000000000000000000000000000FFFFFFFF00008035 = .ok (.cfbSetiv ⟨128, 0xFFFFFFFF⟩) ∧
  decode 0x000000000000000000000000000000000000000000000041 = .ok .selftest

/-- Rules R55, R60, R160: a descriptor is a command exactly when its code is one of the 21, and any other is answered
`ILLEGAL_COMMAND` in every state, nothing else changed. -/
def Obligations.UnknownCodesAreIllegal : Prop :=
  ∀ d : Descriptor,
    ((d.extractLsb' 0 8).toNat ∈ commandCodes ↔ ∃ i, decode d = .ok i) ∧
    ((d.extractLsb' 0 8).toNat ∉ commandCodes → ∀ s, act (.command d) s = .next (s.failed .illegalCommand))

/-- Rules R57, R58: every well-formed command, with every value of every operand, is read back from its descriptor. -/
def Obligations.DecodeEncodeRoundTrip : Prop := ∀ i : Instr, i.wellFormed = true → decode (encode i) = .ok i

/-- Rules R59, R62: whatever a descriptor decodes to is well-formed, and its own descriptor is the given one with every bit
its format does not use cleared. -/
def Obligations.EncodeClearsUnusedBits : Prop :=
  ∀ (d : Descriptor) (i : Instr), decode d = .ok i →
    i.wellFormed = true ∧ encode i = d &&& usedBits (d.extractLsb' 0 8).toNat

/-- Rules R58, R60: descriptors that agree in the bits their code's format uses are the same command. -/
def Obligations.UnusedFieldsAreIgnored : Prop :=
  ∀ d d' : Descriptor,
    d &&& usedBits (d.extractLsb' 0 8).toNat = d' &&& usedBits (d.extractLsb' 0 8).toNat → decode d = decode d'

/-! ### The step -/

/-- A step runs the command the host presents next, on the state from which the presentation is taken; and a table word put
before the machine is run by the very next step (the host's list of actions is the model's, notes/assumptions/3.md). -/
def Obligations.StepRunsDecodedCommand : Prop :=
  (∀ (s : State) (d : Descriptor) (q : List HostAction) (i : Instr), s.inbox = .command d :: q → decode d = .ok i →
    step s = exec i { s with inbox := q }) ∧
  (∀ (s : State) (nbits w : Nat) (i : Instr), decodeTableWord nbits w = some i →
    step (s.withFetchWord nbits w) = exec i s)

/-- Rules R52, R54, R180: what a step does when the host presents no command. It waits; it lets the host write its own
buffers, every byte of which the next command then reads; it resets the block. That a write outside a buffer stops the
machine, and that reset keeps the buffers and takes the response away, are the model's choices (notes/assumptions/4.md and
13.md). -/
def Obligations.StepServesTheHost : Prop :=
  (∀ s : State, s.inbox = [] → step s = .next s) ∧
  (∀ (s : State) (w : Addr) (xs : List Byte) (q : List HostAction), s.inbox = .writeBuffer w xs :: q →
    s.fits w xs.length →
    ∃ t, step s = .next t ∧ t.bytes w xs.length = xs ∧ sameOutside s t w xs.length ∧ sameRegisters s t ∧
      t.bufSize = s.bufSize ∧ t.response = s.response ∧ t.inbox = q ∧ t.freeCount = s.freeCount) ∧
  (∀ (s : State) (w : Addr) (xs : List Byte) (q : List HostAction), s.inbox = .writeBuffer w xs :: q →
    ¬ s.fits w xs.length → step s = .fault .noSuchBufferByte) ∧
  (∀ (s : State) (q : List HostAction), s.inbox = .reset :: q →
    step s = .next { State.launch s.bufSize s.mem s.freeCount with inbox := q })

/-- Rule R26 (the spec's own decision D8): what reset leaves in every element of Table 10-1, whatever buffers the host has.
-/
def Obligations.ResetClearsEveryElement : Prop :=
  ∀ (sizes : Vector (BitVec 32) 256) (mem : Memory) (free : Nat),
    (State.launch sizes mem free).life = .empty ∧ (State.launch sizes mem free).mode = .none ∧
    (∀ i, (State.launch sizes mem free).cipher.pAt i = 0) ∧ (∀ k i, (State.launch sizes mem free).cipher.sAt k i = 0) ∧
    (∀ i : Fin 8, (State.launch sizes mem free).v[i] = 0 ∧ (State.launch sizes mem free).r[i] = 0) ∧
    (State.launch sizes mem free).bytesLeft = 0 ∧
    State.reset = State.launch State.reset.bufSize State.reset.mem State.reset.freeCount

/-- Rules R61, R155 (decision D5): every command that goes on gives exactly one response; an error's result is 0; the
statuses are numbered as Table 60-1 numbers them. -/
def Obligations.EveryCommandGivesAResponse : Prop :=
  (∀ (i : Instr) (s t : State), exec i s = .next t →
    ∃ r, t.response = some r ∧ (r.status ≠ .ok → r.result = 0)) ∧
  Status.ok.code = 0 ∧ Status.invalidKeyLength.code = 1 ∧ Status.invalidBlockAlignment.code = 2 ∧
  Status.bufferBounds.code = 3 ∧ Status.illegalState.code = 4 ∧ Status.illegalCommand.code = 5

/-- Rule R22 (decision D5): the response of an earlier command is not state: no command's outcome depends on it. -/
def Obligations.EarlierResponseIsNeverRead : Prop :=
  ∀ (i : Instr) (s : State) (r : Option Response), exec i { s with response := r } = exec i s

/-! ### Byte order (spec/20_memory.md) -/

/-- Rules R40, R42: blocks, halves and packed values are big-endian, the byte at index 0 the most significant. That of the
packed form is notes/assumptions/10.md (decision D13). -/
def Obligations.ByteOrderIsBigEndian : Prop :=
  (∀ b0 b1 b2 b3 : Byte,
    (be32 b0 b1 b2 b3).toNat = b0.toNat * 2 ^ 24 + b1.toNat * 2 ^ 16 + b2.toNat * 2 ^ 8 + b3.toNat) ∧
  (∀ b : Block, Halves.ofBlock b = ⟨be32 b[0] b[1] b[2] b[3], be32 b[4] b[5] b[6] b[7]⟩) ∧
  (∀ (h : Halves) (i : Fin 4),
    h.toBlock[i.val].toNat = h.hi.toNat / 2 ^ (24 - 8 * i.val) % 256 ∧
    h.toBlock[4 + i.val].toNat = h.lo.toNat / 2 ^ (24 - 8 * i.val) % 256) ∧
  (∀ b : Block, (Block.pack b).toNat =
    b[0].toNat * 2 ^ 56 + b[1].toNat * 2 ^ 48 + b[2].toNat * 2 ^ 40 + b[3].toNat * 2 ^ 32 +
      b[4].toNat * 2 ^ 24 + b[5].toNat * 2 ^ 16 + b[6].toNat * 2 ^ 8 + b[7].toNat) ∧
  (∀ (x : Quad) (i : Fin 8), (Block.unpack x)[i.val].toNat = x.toNat / 2 ^ (56 - 8 * i.val) % 256)

/-! ### The Engine (spec/41_engine.md) -/

/-- Rule R90, with its corner cases and its two examples: the round function in numbers modulo 2^32. That the additions
wrap modulo 2^32 is rule R95, decision D28 (notes/assumptions/11.md). -/
def Obligations.RoundFunction : Prop :=
  (∀ (c : CipherState) (x : Word),
    (c.f x).toNat =
      (((((c.sAt 0 (Fin.ofNat 256 (x.toNat / 2 ^ 24))).toNat + (c.sAt 1 (Fin.ofNat 256 (x.toNat / 2 ^ 16))).toNat) %
        2 ^ 32) ^^^ (c.sAt 2 (Fin.ofNat 256 (x.toNat / 2 ^ 8))).toNat) +
        (c.sAt 3 (Fin.ofNat 256 x.toNat)).toNat) % 2 ^ 32) ∧
  (∀ (c : CipherState) (x : Word),
    c.sAt 0 (Fin.ofNat 256 (x.toNat / 2 ^ 24)) = 0 → c.sAt 1 (Fin.ofNat 256 (x.toNat / 2 ^ 16)) = 0 →
    c.sAt 2 (Fin.ofNat 256 (x.toNat / 2 ^ 8)) = 0 → c.sAt 3 (Fin.ofNat 256 x.toNat) = 0 → c.f x = 0) ∧
  piCipher.f 0x00000000 = 0x2FCFF51E ∧ piCipher.f 0x01020304 = 0x3CEDFF8C

/-- Rules R91, R92: both directions as the sequence of half-updates the rules write out. `y 0` is `lo`, `y 1` is
`hi ^ P[0]` (or `P[17]`), and each later term is the half updated next; the halves cross at the end. -/
def Obligations.SixteenRounds : Prop :=
  ∀ (c : CipherState) (h : Halves),
    (∃ y : Nat → Word, y 0 = h.lo ∧ y 1 = h.hi ^^^ c.pAt 0 ∧
      (∀ r : Fin 16, y (r.val + 2) = y r.val ^^^ c.f (y (r.val + 1)) ^^^ c.pAt ⟨r.val + 1, by omega⟩) ∧
      c.bfEnc h = ⟨y 16 ^^^ c.pAt 17, y 17⟩) ∧
    (∃ y : Nat → Word, y 0 = h.lo ∧ y 1 = h.hi ^^^ c.pAt 17 ∧
      (∀ r : Fin 16, y (r.val + 2) = y r.val ^^^ c.f (y (r.val + 1)) ^^^ c.pAt ⟨16 - r.val, by omega⟩) ∧
      c.bfDec h = ⟨y 16 ^^^ c.pAt 0, y 17⟩)

/-- Rule R93 (derived in the spec): the two directions undo each other, for every CipherState. -/
def Obligations.EngineInverts : Prop :=
  ∀ (c : CipherState) (h : Halves), c.bfDec (c.bfEnc h) = h ∧ c.bfEnc (c.bfDec h) = h

/-- Rules R96, R40: the byte-level forms are the Engine on big-endian halves, and undo each other. That they undo each
other is rule R93, which the spec derives. -/
def Obligations.BlockTransforms : Prop :=
  ∀ (c : CipherState) (b : Block) (hi lo : Word),
    hi.toNat = b[0].toNat * 2 ^ 24 + b[1].toNat * 2 ^ 16 + b[2].toNat * 2 ^ 8 + b[3].toNat →
    lo.toNat = b[4].toNat * 2 ^ 24 + b[5].toNat * 2 ^ 16 + b[6].toNat * 2 ^ 8 + b[7].toNat →
    c.encBlock b = (c.bfEnc ⟨hi, lo⟩).toBlock ∧ c.decBlock b = (c.bfDec ⟨hi, lo⟩).toBlock ∧
    c.decBlock (c.encBlock b) = b ∧ c.encBlock (c.decBlock b) = b

/-! ### The constants and the key schedule (spec/11_pi_tables.md, spec/40_keyschedule.md) -/

/-- Rules R32, R33 (derived in the spec by computation): first and last word, exclusive-or and sum of every table, and no
word repeated inside an S-box table. -/
def Obligations.ConstantTablesCheck : Prop :=
  (piP[0] = 0x243F6A88 ∧ piP[17] = 0x8979FB1B ∧
    piP.toList.foldl (· ^^^ ·) 0 = 0xB73AD7EA ∧ piP.toList.foldl (· + ·) 0 = 0x8E4D14CC) ∧
  (piS1[0] = 0xD1310BA6 ∧ piS1[255] = 0x6E85076A ∧
    piS1.toList.foldl (· ^^^ ·) 0 = 0x4EB4DB7F ∧ piS1.toList.foldl (· + ·) 0 = 0x4B745115) ∧
  (piS2[0] = 0x4B7A70E9 ∧ piS2[255] = 0xDB83ADF7 ∧
    piS2.toList.foldl (· ^^^ ·) 0 = 0xC727E122 ∧ piS2.toList.foldl (· + ·) 0 = 0x72FF37B2) ∧
  (piS3[0] = 0xE93D5A68 ∧ piS3[255] = 0x406000E0 ∧
    piS3.toList.foldl (· ^^^ ·) 0 = 0x462A5D01 ∧ piS3.toList.foldl (· + ·) 0 = 0x2AC02B91) ∧
  (piS4[0] = 0x3A39CE37 ∧ piS4[255] = 0x3AC372E6 ∧
    piS4.toList.foldl (· ^^^ ·) 0 = 0x1779E2BC ∧ piS4.toList.foldl (· + ·) 0 = 0xF43E3A88) ∧
  piS1.toList.Nodup ∧ piS2.toList.Nodup ∧ piS3.toList.Nodup ∧ piS4.toList.Nodup

/-- Rule R72, with its example: the key is cycled, its chunks are big-endian, chunk `i` goes into `P[i]`, the S-boxes are
not touched, and the empty key does nothing. That a chunk is big-endian is rule R43, decision D11
(notes/assumptions/11.md). -/
def Obligations.KeyMixing : Prop :=
  (∀ c : CipherState, c.mixKey [] = c) ∧
  (∀ (c : CipherState) (key : List Byte), (c.mixKey key).s = c.s) ∧
  (∀ (c : CipherState) (key : List Byte) (i : Fin 18) (h : 0 < key.length),
    (c.mixKey key).pAt i = c.pAt i ^^^
      be32 (key[4 * i.val % key.length]'(Nat.mod_lt _ h)) (key[(4 * i.val + 1) % key.length]'(Nat.mod_lt _ h))
        (key[(4 * i.val + 2) % key.length]'(Nat.mod_lt _ h)) (key[(4 * i.val + 3) % key.length]'(Nat.mod_lt _ h))) ∧
  (piCipher.mixKey [0xAA, 0xBB, 0xCC]).pAt 0 = 0x8E84A622 ∧ (piCipher.mixKey [0xAA, 0xBB, 0xCC]).pAt 1 = 0x3E6FA268

/-- Rules R70, R71, R73 (R73 rests on decision D12): 521 encryptions, each of the result of the one before, the first of
zero, each under the CipherState all earlier ones have written; encryption `k` writes words `2k` and `2k+1` in the order P,
S1, S2, S3, S4 and no other. It starts from the constants with the key mixed in. -/
def Obligations.KeyScheduleDerivesInOrder : Prop :=
  ∀ key : List Byte, ∃ (cs : Nat → CipherState) (b : Nat → Halves),
    cs 0 = CipherState.mixKey ⟨piP, piS⟩ key ∧ b 0 = ⟨0, 0⟩ ∧
    (∀ k : Fin 521,
      b (k.val + 1) = (cs k.val).bfEnc (b k.val) ∧
      (cs (k.val + 1)).word ⟨2 * k.val, by omega⟩ = (b (k.val + 1)).hi ∧
      (cs (k.val + 1)).word ⟨2 * k.val + 1, by omega⟩ = (b (k.val + 1)).lo ∧
      ∀ n : Fin 1042, n.val ≠ 2 * k.val → n.val ≠ 2 * k.val + 1 →
        (cs (k.val + 1)).word n = (cs k.val).word n) ∧
    keySchedule key = cs 521

/-- The consequences listed under rule R75 (derived in the spec from rule R72): an all-zero key of any length is the empty
key, and a whole number of repetitions of a key that fits in 56 bytes is that key. -/
def Obligations.EquivalentKeys : Prop :=
  (∀ n : Nat, n ≤ 56 → keySchedule (List.replicate n 0) = keySchedule []) ∧
  (∀ (key : List Byte) (m : Nat), 0 < m → (List.replicate m key).flatten.length ≤ 56 →
    keySchedule (List.replicate m key).flatten = keySchedule key)

/-- The example of rule R77 and of rule R91 (values the spec gives by computation): words of the CipherState of the 8-byte
all-zero key, and the ciphertext of the zero block under it. -/
def Obligations.ZeroKeySchedule : Prop :=
  (keySchedule (List.replicate 8 0)).pAt 0 = 0x706D9FCC ∧ (keySchedule (List.replicate 8 0)).pAt 17 = 0x196A7C43 ∧
  (keySchedule (List.replicate 8 0)).sAt 0 0 = 0xBC29E0A1 ∧ (keySchedule (List.replicate 8 0)).sAt 3 255 = 0x265939B0 ∧
  (keySchedule (List.replicate 8 0)).bfEnc ⟨0, 0⟩ = ⟨0x4EF99745, 0x6198DD78⟩

/-! ### Construction and cleanup (spec/40_keyschedule.md) -/

/-- Rules R77, R78, R81, with the checks of rule R76: the constructions without an initial register leave `V` and `R`
zero. The order of the errors is notes/assumptions/9.md (decision D10). -/
def Obligations.InitWithoutRegister : Prop :=
  (∀ key len, InitRule (.initEcb key len) .ecb key len none (fun _ => zeroBlock) (fun _ => zeroBlock)) ∧
  (∀ key len, InitRule (.initCbc key len) .cbc key len none (fun _ => zeroBlock) (fun _ => zeroBlock)) ∧
  (∀ key len, InitRule (.initCfb key len) .cfb key len none (fun _ => zeroBlock) (fun _ => zeroBlock))

/-- Rules R79, R82, with the checks of rule R76: the IV window is checked too, and loaded into `V` or `R`. The order of
the errors is notes/assumptions/9.md (decision D10). -/
def Obligations.InitWithIvWindow : Prop :=
  (∀ key len iv, InitRule (.initCbcIv key len iv) .cbc key len (some iv) (fun s => s.block iv) (fun _ => zeroBlock)) ∧
  (∀ key len iv, InitRule (.initCfbIv key len iv) .cfb key len (some iv) (fun _ => zeroBlock) (fun s => s.block iv))

/-- Rules R80, R78: the packed value is loaded most significant byte first, and `INIT_CBC` is the same command with value
0. The byte order is notes/assumptions/10.md (decision D13), the order of the errors 9.md (decision D10). -/
def Obligations.InitWithPackedIv : Prop :=
  (∀ key len x, InitRule (.initCbcIv64 key len x) .cbc key len none
    (fun _ => Vector.ofFn fun i => x.extractLsb' (56 - 8 * i.val) 8) (fun _ => zeroBlock)) ∧
  (∀ key len s, exec (.initCbc key len) s = exec (.initCbcIv64 key len 0) s)

/-- Rule R75: two constructions whose key windows hold the same bytes make the same CipherState, wherever the windows lie
and whatever else the buffers hold. -/
def Obligations.KeyWindowIndependence : Prop :=
  ∀ (s s' : State) (key key' : Addr) (len : Nat) (i i' : Instr) (t t' : State) (iv iv' : Addr) (x x' : Quad),
    s.bytes key len = s'.bytes key' len →
    (i, i') ∈ [(.initEcb key len, .initEcb key' len), (.initCbc key len, .initCbc key' len),
      (.initCbcIv key len iv, .initCbcIv key' len iv'), (.initCbcIv64 key len x, .initCbcIv64 key' len x'),
      (.initCfb key len, .initCfb key' len), (.initCfbIv key len iv, .initCfbIv key' len iv')] →
    exec i s = .next t → exec i' s' = .next t' → t.response = some ⟨.ok, 0⟩ → t'.response = some ⟨.ok, 0⟩ →
    t.cipher = t'.cipher

/-- Rules R83, R27, R185: `CLEANUP` of a keyed block leaves every element of Table 10-1 zero and no buffer changed, after
which only construction and `SELFTEST` are accepted; without an instance it is refused. That a second cleanup is refused
is decision D21; that the other commands are refused after it is rule R159, decision D18; that `BYTESLEFT`, `LIFE` and
`MODE` are set is what rule R27 gives as the spec's own, `LIFE` and `MODE` being decisions D6 and D7. -/
def Obligations.CleanupWipesEverything : Prop :=
  (∀ s : State, s.life ≠ .keyed → exec .cleanup s = .next (s.failed .illegalState)) ∧
  (∀ s : State, s.life = .keyed → ∃ t, exec .cleanup s = .next t ∧
    (∀ i, t.cipher.pAt i = 0) ∧ (∀ k i, t.cipher.sAt k i = 0) ∧ (∀ i : Fin 8, t.v[i] = 0 ∧ t.r[i] = 0) ∧
    t.bytesLeft = 0 ∧ t.mode = .none ∧ t.life = .empty ∧ sameBytes s t ∧ sameHost s t ∧
    t.response = some ⟨.ok, 0⟩ ∧
    ∀ i, keyLength i = none → i ≠ .selftest → exec i t = .next (t.failed .illegalState))

/-! ### ECB (spec/43_ecb.md) -/

/-- Rule R110, with the checks of rule R112: each output block is the encryption of the input block at the same index.
That the first failing check is the one reported is notes/assumptions/9.md (decision D10), and that a partial overlap is
refused is notes/assumptions/5.md (decision D15). -/
def Obligations.EcbEncrypt : Prop :=
  TransferRule .ecbEnc .ecb true fun inp out len s t =>
    (∀ i, i < len / 8 → t.block (out.plus (8 * i)) = s.cipher.encBlock (s.block (inp.plus (8 * i)))) ∧ sameRegisters s t

/-- Rule R111, with the checks of rule R112: the same with the inverse direction. That the first failing check is the one
reported is notes/assumptions/9.md (decision D10), and that a partial overlap is refused is notes/assumptions/5.md
(decision D15). -/
def Obligations.EcbDecrypt : Prop :=
  TransferRule .ecbDec .ecb true fun inp out len s t =>
    (∀ i, i < len / 8 → t.block (out.plus (8 * i)) = s.cipher.decBlock (s.block (inp.plus (8 * i)))) ∧ sameRegisters s t

/-- Rule R113 (derived in the spec): decrypting the output of an encryption gives the message back, and conversely. -/
def Obligations.EcbRoundTrip : Prop :=
  ∀ (first second : Addr → Addr → Nat → Instr), (first, second) ∈ [(.ecbEnc, .ecbDec), (.ecbDec, .ecbEnc)] →
  ∀ (inp mid out : Addr) (len : Nat) (s : State), s.holds .ecb → len % 8 = 0 → s.fits inp len → s.fits mid len →
    s.fits out len → apartOrSame inp mid len → apartOrSame mid out len →
    ∃ t u, exec (first inp mid len) s = .next t ∧ exec (second mid out len) t = .next u ∧
      u.bytes out len = s.bytes inp len

/-! ### CBC (spec/44_cbc.md) -/

/-- Rule R120, with the checks of rule R112: each block is exclusive-ored with the ciphertext block before it, the first
with `V`, and encrypted; `V` ends as the last ciphertext block. That the first failing check is the one reported is
notes/assumptions/9.md (decision D10), and that a partial overlap is refused is notes/assumptions/5.md (decision D15). -/
def Obligations.CbcEncrypt : Prop :=
  TransferRule .cbcEnc .cbc true fun inp out len s t =>
    (∀ i, i < len / 8 → t.block (out.plus (8 * i)) =
      s.cipher.encBlock (Block.xor (s.block (inp.plus (8 * i)))
        (if i = 0 then s.v else t.block (out.plus (8 * (i - 1)))))) ∧
    (t.v = if len = 0 then s.v else t.block (out.plus (len - 8))) ∧ sameButV s t

/-- Rule R121, with the checks of rule R112: each block is decrypted and exclusive-ored with the ciphertext block before
it as it was read, the first with `V`; `V` ends as the last ciphertext block read, also when it has been overwritten. That
the first failing check is the one reported is notes/assumptions/9.md (decision D10), and that a partial overlap is
refused is notes/assumptions/5.md (decision D15). -/
def Obligations.CbcDecrypt : Prop :=
  TransferRule .cbcDec .cbc true fun inp out len s t =>
    (∀ i, i < len / 8 → t.block (out.plus (8 * i)) =
      Block.xor (s.cipher.decBlock (s.block (inp.plus (8 * i))))
        (if i = 0 then s.v else s.block (inp.plus (8 * (i - 1))))) ∧
    (t.v = if len = 0 then s.v else s.block (inp.plus (len - 8))) ∧ sameButV s t

/-- Rule R127 (derived in the spec): decrypting the output of an encryption from the same chain value gives the message
back, and both runs end with the same `V`. -/
def Obligations.CbcRoundTrip : Prop :=
  ∀ (inp mid out : Addr) (len : Nat) (s : State), s.holds .cbc → len % 8 = 0 → s.fits inp len → s.fits mid len →
    s.fits out len → apartOrSame inp mid len → apartOrSame mid out len →
    ∃ t u, exec (.cbcEnc inp mid len) s = .next t ∧ exec (.cbcDec mid out len) { t with v := s.v } = .next u ∧
      u.bytes out len = s.bytes inp len ∧ u.v = t.v

/-- Rule R126: from `V = 0` the first output block of `CBC_ENC` is what `ECB_ENC` writes for the same block under the same
key. -/
def Obligations.FirstCbcBlockIsEcb : Prop :=
  ∀ (inp out : Addr) (len : Nat) (s : State), s.holds .cbc → s.v = zeroBlock → len % 8 = 0 → 0 < len → s.fits inp len →
    s.fits out len → apartOrSame inp out len →
    ∃ t u, exec (.cbcEnc inp out len) s = .next t ∧ exec (.ecbEnc inp out 8) { s with mode := .ecb } = .next u ∧
      t.block out = u.block out ∧ t.block out = s.cipher.encBlock (s.block inp)

/-- Rules R122, R123: `V` read and written as the raw 8 bytes of a window, `V[i]` at offset `o + i`. The order of the two
errors is notes/assumptions/9.md (decision D10). -/
def Obligations.CbcRegisterAsBytes : Prop :=
  (WindowRule .cbcSetiv .cbc fun w s t =>
    (∀ i : Fin 8, t.v[i] = s.byteAt (w.plus i.val)) ∧ sameButV s t ∧ sameBytes s t) ∧
  (WindowRule .cbcGetiv .cbc fun w s t =>
    (∀ i : Fin 8, t.byteAt (w.plus i.val) = s.v[i]) ∧ sameOutside s t w 8 ∧ sameRegisters s t)

/-- Rules R124, R125: `V` read and written as a packed big-endian number; every value is legal. The byte order is
notes/assumptions/10.md (decision D13, open question U9). -/
def Obligations.CbcRegisterAsNumber : Prop :=
  (∀ (x : Quad) (s : State), ¬ s.holds .cbc → exec (.cbcSetiv64 x) s = .next (s.failed .illegalState)) ∧
  (∀ (x : Quad) (s : State), s.holds .cbc →
    exec (.cbcSetiv64 x) s =
      .next { s with v := Vector.ofFn fun i => x.extractLsb' (56 - 8 * i.val) 8, response := some ⟨.ok, 0⟩ }) ∧
  (∀ s : State, ¬ s.holds .cbc → exec .cbcGetiv64 s = .next (s.failed .illegalState)) ∧
  (∀ s : State, s.holds .cbc → ∃ x : Quad, exec .cbcGetiv64 s = .next { s with response := some ⟨.ok, x⟩ } ∧
    x.toNat = s.v[0].toNat * 2 ^ 56 + s.v[1].toNat * 2 ^ 48 + s.v[2].toNat * 2 ^ 40 + s.v[3].toNat * 2 ^ 32 +
      s.v[4].toNat * 2 ^ 24 + s.v[5].toNat * 2 ^ 16 + s.v[6].toNat * 2 ^ 8 + s.v[7].toNat)

/-- Rule R127 (derived in the spec): the raw and the packed accessors agree, and setting a value that was got restores `V`
whatever was done to it in between. The byte order of the packed form is notes/assumptions/10.md (decision D13). -/
def Obligations.CbcAccessorsAgree : Prop :=
  ∀ (s : State) (w : Addr) (x : Quad) (y : Block), s.holds .cbc → s.fits w 8 →
    (∃ t u, exec (.cbcSetiv64 x) s = .next t ∧ exec (.cbcGetiv w) t = .next u ∧
      ∀ i : Fin 8, u.byteAt (w.plus i.val) = x.extractLsb' (56 - 8 * i.val) 8) ∧
    (∃ t, exec (.cbcSetiv w) s = .next t ∧
      exec .cbcGetiv64 t = .next (t.setResponse ⟨.ok, Block.pack (s.block w)⟩)) ∧
    (∃ t u, exec (.cbcGetiv w) s = .next t ∧ exec (.cbcSetiv w) { t with v := y } = .next u ∧ u.v = s.v) ∧
    (∃ t z u, exec .cbcGetiv64 s = .next t ∧ t.response = some ⟨.ok, z⟩ ∧
      exec (.cbcSetiv64 z) { t with v := y } = .next u ∧ u.v = s.v)

/-! ### CFB (spec/45_cfb.md) -/

/-- Rules R135 to R138, with the checks of rule R112: a CFB transfer puts its input through the byte stream that `R` and
`BYTESLEFT` stand for, and leaves them as the stream leaves them. The rule's three phases are the model's definition
(`State.cfbRun`); this says what they amount to, byte by byte. That the first failing check is the one reported is
notes/assumptions/9.md (decision D10), and that a partial overlap is refused is notes/assumptions/5.md (decision D15). -/
def Obligations.CfbIsOneByteStream : Prop :=
  (TransferRule .cfbEnc .cfb false fun inp out len s t =>
    t.bytes out len = CfbRegister.stream s.cipher false ⟨s.r, s.bytesLeft.val⟩ (s.bytes inp len) ∧
    CfbRegister.mk t.r t.bytesLeft.val = CfbRegister.after s.cipher false ⟨s.r, s.bytesLeft.val⟩ (s.bytes inp len) ∧
    sameButR s t) ∧
  (TransferRule .cfbDec .cfb false fun inp out len s t =>
    t.bytes out len = CfbRegister.stream s.cipher true ⟨s.r, s.bytesLeft.val⟩ (s.bytes inp len) ∧
    CfbRegister.mk t.r t.bytesLeft.val = CfbRegister.after s.cipher true ⟨s.r, s.bytesLeft.val⟩ (s.bytes inp len) ∧
    sameButR s t)

/-- Rule R143, stream form (derived in the spec): from a consumed register, byte `i` is exclusive-ored with byte `i mod 8` of
the encryption of `R` (group 0) or of the ciphertext block of the group before. The ciphertext is the output of `CFB_ENC` and
the input of `CFB_DEC`. -/
def Obligations.CfbIsFullBlockFeedback : Prop :=
  ∀ (inp out : Addr) (len : Nat) (s : State), s.holds .cfb → s.bytesLeft = 0 → s.fits inp len → s.fits out len →
    apartOrSame inp out len →
    (∃ t, exec (.cfbEnc inp out len) s = .next t ∧
      ∀ i, i < len → t.byteAt (out.plus i) = s.byteAt (inp.plus i) ^^^
        Block.byteAt (s.cipher.encBlock (if i < 8 then s.r else t.block (out.plus (8 * (i / 8) - 8)))) (i % 8)) ∧
    (∃ t, exec (.cfbDec inp out len) s = .next t ∧
      ∀ i, i < len → t.byteAt (out.plus i) = s.byteAt (inp.plus i) ^^^
        Block.byteAt (s.cipher.encBlock (if i < 8 then s.r else s.block (inp.plus (8 * (i / 8) - 8)))) (i % 8))

/-- Table 45-1 and the formula under it (rule R141, decision D26): `BYTESLEFT` after a CFB transfer. -/
def Obligations.BytesLeftAfterCfb : Prop :=
  ∀ k ∈ streamTransfers, ∀ (inp out : Addr) (len : Nat) (s : State), s.holds .cfb → s.bytesLeft.val ≤ 7 →
    s.fits inp len → s.fits out len → apartOrSame inp out len →
    ∃ t, exec (k.cmd inp out len) s = .next t ∧
      (len ≤ s.bytesLeft.val → t.bytesLeft.val = s.bytesLeft.val - len) ∧
      (s.bytesLeft.val < len → (len - s.bytesLeft.val) % 8 = 0 → t.bytesLeft.val = 0) ∧
      (s.bytesLeft.val < len → (len - s.bytesLeft.val) % 8 ≠ 0 →
        t.bytesLeft.val = 8 - (len - s.bytesLeft.val) % 8) ∧
      (t.bytesLeft.val : Int) = ((s.bytesLeft.val : Int) - len) % 8

/-- Rule R142: a CFB stream cut into commands of any lengths, zeros among them, ends with the same bytes in every buffer and
the same registers as one command. -/
def Obligations.CfbChunkingInvariance : Prop :=
  ∀ k ∈ streamTransfers, ∀ (ns : List Nat) (inp out : Addr) (s : State), s.holds .cfb → s.fits inp ns.sum →
    s.fits out ns.sum → apartOrSame inp out ns.sum →
    ∃ t u, runChunks k.cmd ns inp out s = .next t ∧ exec (k.cmd inp out ns.sum) s = .next u ∧
      { t with response := u.response } = u

/-- Rules R113, R127, chunking (derived in the spec): the same for ECB and CBC, in both directions, for lengths that are
multiples of 8. -/
def Obligations.BlockChunkingInvariance : Prop :=
  ∀ k ∈ blockTransfers, ∀ (ns : List Nat) (inp out : Addr) (s : State), s.holds k.mode → (∀ n ∈ ns, n % 8 = 0) →
    s.fits inp ns.sum → s.fits out ns.sum → apartOrSame inp out ns.sum →
    ∃ t u, runChunks k.cmd ns inp out s = .next t ∧ exec (k.cmd inp out ns.sum) s = .next u ∧
      { t with response := u.response } = u

/-- Rule R143, round trip (derived in the spec): decryption of the output of an encryption, from the same register under
the same key, gives the plaintext back for every length, however either side is chunked, and both sides end with the same
register. -/
def Obligations.CfbRoundTrip : Prop :=
  ∀ (ns ms : List Nat) (inp mid out : Addr) (s : State), ns.sum = ms.sum → s.holds .cfb → s.fits inp ns.sum →
    s.fits mid ns.sum → s.fits out ns.sum → apartOrSame inp mid ns.sum → apartOrSame mid out ns.sum →
    ∃ t u, runChunks .cfbEnc ns inp mid s = .next t ∧
      runChunks .cfbDec ms mid out { t with r := s.r, bytesLeft := s.bytesLeft } = .next u ∧
      u.bytes out ns.sum = s.bytes inp ns.sum ∧ u.r = t.r ∧ u.bytesLeft = t.bytesLeft

/-- Rules R139, R140 (that a later set clears `BYTESLEFT` is decision D14): `R` read and written as the raw 8 bytes of a
window. The order of the two errors is notes/assumptions/9.md (decision D10). -/
def Obligations.CfbRegisterAsBytes : Prop :=
  (WindowRule .cfbSetiv .cfb fun w s t =>
    (∀ i : Fin 8, t.r[i] = s.byteAt (w.plus i.val)) ∧ t.bytesLeft = 0 ∧ sameButR s t ∧ sameBytes s t) ∧
  (WindowRule .cfbGetiv .cfb fun w s t =>
    (∀ i : Fin 8, t.byteAt (w.plus i.val) = s.r[i]) ∧ sameOutside s t w 8 ∧ sameRegisters s t)

/-! ### Diagnostics (spec/42_diagnostics.md) -/

/-- Rule R100: weak exactly when two different entries of one S-box are equal; nothing but the response changes. The
answer without an instance is rule R159, decision D18, and the numbers 1 and 0 are decision D29. -/
def Obligations.WeakKeyQuery : Prop :=
  (∀ s : State, s.life ≠ .keyed → exec .weakkey s = .next (s.failed .illegalState)) ∧
  (∀ s : State, s.life = .keyed → (∃ k i j, i < j ∧ s.cipher.sAt k i = s.cipher.sAt k j) →
    exec .weakkey s = .next { s with response := some ⟨.ok, 1⟩ }) ∧
  (∀ s : State, s.life = .keyed → (∀ k i j, i < j → s.cipher.sAt k i ≠ s.cipher.sAt k j) →
    exec .weakkey s = .next { s with response := some ⟨.ok, 0⟩ })

/-- Rules R101, R102 (that every comparison succeeds is derived in the spec by computation): `SELFTEST` passes in every
state and changes nothing but the response. -/
def Obligations.SelftestPasses : Prop := ∀ s : State, exec .selftest s = .next { s with response := some ⟨.ok, 1⟩ }

/-- Rule R103: a diagnostic leaves all state and all buffers as they were and gives the same response when asked again. -/
def Obligations.DiagnosticsAreIdempotent : Prop :=
  ∀ (i : Instr) (s : State), i ∈ [Instr.weakkey, Instr.selftest] →
    ∃ t, exec i s = .next t ∧ sameRegisters s t ∧ sameBytes s t ∧ sameHost s t ∧ exec i t = .next t

/-! ### Errors (spec/60_exceptions.md) -/

/-- Rule R159 and Table 60-2 (decision D18): `ILLEGAL_STATE` is the answer exactly where the table says no. -/
def Obligations.IllegalStateExactlyByTable : Prop :=
  ∀ (i : Instr) (s : State), exec i s = .next (s.failed .illegalState) ↔ ¬ accepted i s.life s.mode

/-- Rules R156, R157, R158, in the priority of rule R161 (decision D10): each error of an accepted command is the answer
exactly when its condition holds and none of higher priority does. -/
def Obligations.OperandErrorsExactlyWhen : Prop :=
  ∀ (i : Instr) (s : State), accepted i s.life s.mode →
    (exec i s = .next (s.failed .invalidKeyLength) ↔ ∃ n, keyLength i = some n ∧ 56 < n) ∧
    (exec i s = .next (s.failed .invalidBlockAlignment) ↔ ∃ n, blockLength i = some n ∧ n % 8 ≠ 0) ∧
    (exec i s = .next (s.failed .bufferBounds) ↔ ¬ badLength i ∧ ∃ w ∈ windows i, ¬ s.fits w.1 w.2)

/-- Rules R162, R163: an error response changes nothing else, its result is 0, and the same command in the resulting state
gives the same error. That the result is 0 is rules R61 and R155, decision D5; that the same command gives the same error
again is rule R163. -/
def Obligations.ErrorsHaveNoEffect : Prop :=
  ∀ (i : Instr) (s t : State) (e : Status) (x : Quad), exec i s = .next t → t.response = some ⟨e, x⟩ → e ≠ .ok →
    t = s.failed e ∧ exec i t = .next t

/-- No command faults, and the only refusal is that of a transfer whose windows overlap partially (rules R51, R112). That
it is refused is notes/assumptions/5.md (decision D15). -/
def Obligations.OnlyPartialOverlapStops : Prop :=
  ∀ (i : Instr) (s : State),
    Safe (exec i s) ∨
    (exec i s = .refused .partialOverlap ∧
      ∃ k ∈ blockTransfers ++ streamTransfers, ∃ inp out len, i = k.cmd inp out len ∧ ¬ apartOrSame inp out len)

/-! ### The whole machine -/

/-- Rules R12, R18, R19 (`LIFE` and `MODE` as registers are decisions D6 and D7): while an instance lives, no command but
`CLEANUP` changes the CipherState, `LIFE` or `MODE`. -/
def Obligations.InstanceIsImmutable : Prop :=
  ∀ (i : Instr) (s t : State), s.life = .keyed → i ≠ .cleanup → exec i s = .next t →
    t.cipher = s.cipher ∧ t.life = s.life ∧ t.mode = s.mode

/-- Rules R46, R47 and Table 20-1: a command changes no byte outside the one window it writes, and no byte at all if it
writes none. -/
def Obligations.OnlyTheOutputWindowIsWritten : Prop :=
  ∀ (i : Instr) (s t : State), exec i s = .next t →
    (∀ w n, writeWindow i = some (w, n) → sameOutside s t w n) ∧ (writeWindow i = none → sameBytes s t)

/-- Rules R47, R52, R165 and Table 20-1: a command's registers, response and output depend on the buffers only through the
windows it reads: two states that differ in no other way than in bytes outside them cannot be told apart by it. The
refusal is that of notes/assumptions/5.md. -/
def Obligations.OutcomeDependsOnReadWindowsOnly : Prop :=
  ∀ (i : Instr) (s s' : State), sameRegisters s s' → s'.bufSize = s.bufSize →
    (∀ p ∈ readWindows i, s'.bytes p.1 p.2 = s.bytes p.1 p.2) →
    (∀ t, exec i s = .next t → ∃ t', exec i s' = .next t' ∧ sameRegisters t t' ∧ t'.response = t.response ∧
      ∀ p x, t.response = some ⟨.ok, x⟩ → writeWindow i = some p → t'.bytes p.1 p.2 = t.bytes p.1 p.2) ∧
    (∀ r, exec i s = .refused r → exec i s' = .refused r)

/-- Rule R49: a transfer in place gives the bytes that the same transfer into a disjoint window gives, where the input
was, and the same registers and response. Rule R49 is about the bytes; that the registers and the response agree follows
from rules R48, R50 (decision D22) and R61 (decision D5). -/
def Obligations.InPlaceEqualsDisjoint : Prop :=
  ∀ k ∈ blockTransfers ++ streamTransfers, ∀ (inp out : Addr) (len : Nat) (s : State), s.holds k.mode →
    (k.blocks = true → len % 8 = 0) → s.fits inp len → s.fits out len →
    (inp.buf ≠ out.buf ∨ inp.off + len ≤ out.off ∨ out.off + len ≤ inp.off) →
    ∃ t u, exec (k.cmd inp inp len) s = .next t ∧ exec (k.cmd inp out len) s = .next u ∧
      t.bytes inp len = u.bytes out len ∧ sameRegisters u t ∧ t.response = u.response

/-- Rule R20 (derived in the spec): every step keeps the invariants (a) to (e) of the registers. -/
def Obligations.StepKeepsRegistersInv : Prop := ∀ s t : State, RegistersInv s → step s = .next t → RegistersInv t

/-- The invariants of rule R20 hold in every launch state (rule R26, decision D8). -/
def Obligations.LaunchMeetsRegistersInv : Prop := ∀ sizes mem free, RegistersInv (State.launch sizes mem free)

/-- The byte memory stays in canonical form and inside the buffers, and no step changes which buffers there are (the form is
the model's, notes/assumptions/2.md and 12.md; rule R37 leaves every byte but the written ones as it was). -/
def Obligations.StepKeepsMemoryInv : Prop :=
  ∀ s t : State, step s = .next t → t.bufSize = s.bufSize ∧ (MemoryInv s → MemoryInv t)

/-- The state right after reset meets both invariants (the host's side of that state is the model's choice,
notes/assumptions/1.md). -/
def Obligations.ResetMeetsInvariants : Prop := RegistersInv State.reset ∧ MemoryInv State.reset

/-- Rule R180 and its open case U6 (spec/93_implementation_defined.md): reset while a command is in flight leaves the reset
state, any value in every byte of the command's output window, and every other byte as it was. The host's list of actions,
the bytes as free values, each used once, and that a command without a meaning stays refused are the model's choices
(notes/assumptions/3.md, 16.md and 5.md); what it says holds of every value of the free bytes and of the counter. -/
def Obligations.ResetCutsOffACommand : Prop :=
  (∀ (s : State) (d : Descriptor) (q : List HostAction) (e : DecodeError), s.inbox = .resetDuring d :: q →
    decode d = .error e → step s = .next { State.launch s.bufSize s.mem s.freeCount with inbox := q }) ∧
  (∀ (s u : State) (d : Descriptor) (q : List HostAction) (i : Instr), s.inbox = .resetDuring d :: q →
    decode d = .ok i → exec i { s with inbox := q } = .next u →
    ∃ t, step s = .next t ∧ t = { State.launch s.bufSize t.mem t.freeCount with inbox := q } ∧
      s.freeCount ≤ t.freeCount ∧ (writeWindow i = none → sameBytes s t) ∧
      ∀ w n, writeWindow i = some (w, n) → sameOutside s t w n ∧
        ∀ k, k < n → w.off + k < s.sizeOf w.buf →
          t.byteAt (w.plus k) = Config.freeByte (s.freeCount + k) ∧ s.freeCount + k < t.freeCount) ∧
  (∀ (s : State) (d : Descriptor) (q : List HostAction) (i : Instr) (r : Refusal), s.inbox = .resetDuring d :: q →
    decode d = .ok i → exec i { s with inbox := q } = .refused r → step s = .refused r)
end

