-- ==== Sys2Proof/Laws/Bytes.lean ====
section
/-! SUPPORT. Byte order and blocks: words and their four bytes, halves and blocks, the packed 64-bit form, exclusive-or of
blocks, and reads and writes of one register byte. -/

namespace Sys2Proof.Machine

open Sys2Proof

/-! ### Words and bytes -/

/-- A bit read through the slice it lies in. -/
theorem getLsbD_slice {w : Nat} (x : BitVec w) {i k n : Nat} (h1 : k ≤ i) (h2 : i < k + n) :
    (decide (i - k < n) && x.getLsbD (k + (i - k))) = x.getLsbD i := by
  rw [Nat.add_sub_cancel' h1, decide_eq_true (by omega), Bool.true_and]

theorem be32_bytes (x : Word) : be32 (byte0 x) (byte1 x) (byte2 x) (byte3 x) = x := by
  apply BitVec.eq_of_getLsbD_eq
  intro i hi
  simp only [be32, byte0, byte1, byte2, byte3, BitVec.getLsbD_append, BitVec.getLsbD_extractLsb']
  simp only [Nat.reduceAdd]
  split_ifs
  · simpa using getLsbD_slice x (k := 0) (n := 8) (Nat.zero_le i) (by omega)
  all_goals exact getLsbD_slice x (by omega) (by omega)

theorem byte0_be32 (b0 b1 b2 b3 : Byte) : byte0 (be32 b0 b1 b2 b3) = b0 := by
  apply BitVec.eq_of_getLsbD_eq
  intro i hi
  simp only [be32, byte0, BitVec.getLsbD_append, BitVec.getLsbD_extractLsb', hi, decide_true, Bool.true_and]
  split_ifs <;> first | omega | (congr 1; omega)

theorem byte1_be32 (b0 b1 b2 b3 : Byte) : byte1 (be32 b0 b1 b2 b3) = b1 := by
  apply BitVec.eq_of_getLsbD_eq
  intro i hi
  simp only [be32, byte1, BitVec.getLsbD_append, BitVec.getLsbD_extractLsb', hi, decide_true, Bool.true_and]
  split_ifs <;> first | omega | (congr 1; omega)

theorem byte2_be32 (b0 b1 b2 b3 : Byte) : byte2 (be32 b0 b1 b2 b3) = b2 := by
  apply BitVec.eq_of_getLsbD_eq
  intro i hi
  simp only [be32, byte2, BitVec.getLsbD_append, BitVec.getLsbD_extractLsb', hi, decide_true, Bool.true_and]
  split_ifs <;> first | omega | (congr 1; omega)

theorem byte3_be32 (b0 b1 b2 b3 : Byte) : byte3 (be32 b0 b1 b2 b3) = b3 := by
  apply BitVec.eq_of_getLsbD_eq
  intro i hi
  simp only [be32, byte3, BitVec.getLsbD_append, BitVec.getLsbD_extractLsb', hi, decide_true, Bool.true_and]
  split_ifs <;> first | omega | (congr 1; omega)

/-! ### Blocks and halves -/

theorem ofBlock_toBlock (h : Halves) : Halves.ofBlock h.toBlock = h := by
  show Halves.mk (be32 (byte0 h.hi) (byte1 h.hi) (byte2 h.hi) (byte3 h.hi))
    (be32 (byte0 h.lo) (byte1 h.lo) (byte2 h.lo) (byte3 h.lo)) = h
  rw [be32_bytes, be32_bytes]

/-- Two blocks are equal when their eight bytes are. -/
theorem Block.ext8 {a b : Block} (h : ∀ (i : Nat) (hi : i < 8), a[i] = b[i]) : a = b := Vector.ext h

theorem toBlock_ofBlock (b : Block) : (Halves.ofBlock b).toBlock = b := by
  apply Block.ext8
  intro i hi
  simp only [Halves.ofBlock, Halves.toBlock, byte0_be32, byte1_be32, byte2_be32, byte3_be32]
  match i, hi with
  | 0, _ | 1, _ | 2, _ | 3, _ | 4, _ | 5, _ | 6, _ | 7, _ => rfl

/-! ### Exclusive-or of blocks -/

@[simp] theorem Block.getElem_xor (a b : Block) (i : Nat) (h : i < 8) : (Block.xor a b)[i] = a[i] ^^^ b[i] := by
  simp [Block.xor]

theorem Block.xor_xor_cancel_right (a b : Block) : Block.xor (Block.xor a b) b = a := by
  apply Block.ext8
  intro i hi
  simp

theorem Block.xor_comm (a b : Block) : Block.xor a b = Block.xor b a := by
  apply Block.ext8
  intro i hi
  simp [BitVec.xor_comm]

@[simp] theorem zeroBlock_getElem (i : Nat) (h : i < 8) : zeroBlock[i] = 0 := by simp [zeroBlock]

theorem Block.xor_zeroBlock (a : Block) : Block.xor a zeroBlock = a := by
  apply Block.ext8
  intro i hi
  simp

/-! ### The packed form -/

@[simp] theorem Block.getElem_unpack (x : Quad) (i : Nat) (h : i < 8) :
    (Block.unpack x)[i] = x.extractLsb' (56 - 8 * i) 8 := by
  simp [Block.unpack]

theorem pack_unpack (x : Quad) : Block.pack (Block.unpack x) = x := by
  apply BitVec.eq_of_getLsbD_eq
  intro i hi
  simp only [Block.pack, Block.getElem_unpack, BitVec.getLsbD_append, BitVec.getLsbD_extractLsb']
  simp only [Nat.reduceAdd, Nat.reduceMul, Nat.reduceSub]
  split_ifs
  · simpa using getLsbD_slice x (k := 0) (n := 8) (Nat.zero_le i) (by omega)
  all_goals exact getLsbD_slice x (by omega) (by omega)

theorem unpack_pack (b : Block) : Block.unpack (Block.pack b) = b := by
  apply Block.ext8
  intro i hi
  rw [Block.getElem_unpack]
  apply BitVec.eq_of_getLsbD_eq
  intro j hj
  simp only [Block.pack, BitVec.getLsbD_append, BitVec.getLsbD_extractLsb', hj, decide_true, Bool.true_and]
  match i, hi with
  | 0, _ | 1, _ | 2, _ | 3, _ | 4, _ | 5, _ | 6, _ | 7, _ =>
    simp only [Nat.reduceMul, Nat.reduceSub]
    split_ifs <;> first | omega | (congr 1; omega)

/-! ### One byte of a register -/

theorem Block.byteAt_eq (b : Block) {j : Nat} (h : j < 8) : Block.byteAt b j = b[j] := by
  simp [Block.byteAt, Vector.getD, h]

theorem Block.getElem_setByte (b : Block) (j : Nat) (x : Byte) (i : Nat) (h : i < 8) :
    (Block.setByte b j x)[i] = if j = i then x else b[i] := by
  simp [Block.setByte, Vector.getElem_setIfInBounds]

theorem Block.byteAt_setByte (b : Block) (j : Nat) (x : Byte) {i : Nat} (h : i < 8) :
    Block.byteAt (Block.setByte b j x) i = if j = i then x else Block.byteAt b i := by
  rw [Block.byteAt_eq _ h, Block.byteAt_eq _ h, Block.getElem_setByte]

end Sys2Proof.Machine
end

