-- ==== Sys2Proof/Laws/Memory.lean ====
section
/-! SUPPORT. The laws of the byte memory: a read after a write, what a write leaves alone, and that every memory operation
keeps the canonical form. -/

namespace Sys2Proof.Machine.Memory

open Sys2Proof

variable (m : Memory)

/-! ### Read after write -/

theorem readByte_erase (k k' : Nat) : readByte (erase m k) k' = if k' = k then unlisted else readByte m k' := by
  induction m with
  | nil => simp [erase, readByte]
  | cons c m ih =>
    simp only [erase, List.filter_cons] at ih ⊢
    by_cases hc : c.1 = k
    · simp only [hc, bne_self_eq_false, Bool.false_eq_true, ↓reduceIte, ih, readByte]
      split <;> simp_all [eq_comm]
    · simp only [bne_iff_ne, ne_eq, hc, not_false_eq_true, ↓reduceIte, readByte, ih]
      split <;> simp_all

theorem fst_ne_of_mem_erase {k : Nat} {c : Host.Cell} (h : c ∈ erase m k) : c.1 ≠ k := by
  simpa using (List.mem_filter.mp h).2

theorem readByte_insertCell {k : Nat} (h : ∀ c ∈ m, c.1 ≠ k) (x : Byte) (k' : Nat) :
    readByte (insertCell k x m) k' = if k' = k then x else readByte m k' := by
  induction m with
  | nil => simp [insertCell, readByte, eq_comm]
  | cons c m ih =>
    have hc : c.1 ≠ k := h c (by simp)
    simp only [insertCell]
    split
    · simp [readByte, eq_comm]
    · simp only [readByte, ih fun d hd => h d (by simp [hd])]
      split <;> simp_all

/-- A byte read after a byte was written. -/
theorem readByte_writeByte (k : Nat) (x : Byte) (k' : Nat) :
    readByte (writeByte m k x) k' = if k' = k then x else readByte m k' := by
  unfold writeByte
  split
  · rw [readByte_erase]; simp_all
  · rw [readByte_insertCell _ fun c hc => fst_ne_of_mem_erase m hc, readByte_erase]
    split <;> simp_all

/-- A byte read after a sequence was written: inside the written range the sequence, elsewhere the byte before. -/
theorem readByte_write (k : Nat) (xs : List Byte) (k' : Nat) :
    readByte (write m k xs) k' = if k ≤ k' ∧ k' < k + xs.length then xs.getD (k' - k) 0 else readByte m k' := by
  induction xs generalizing m k with
  | nil => rw [write, if_neg (by simp)]
  | cons x xs ih =>
    rw [write, ih, readByte_writeByte]
    rcases Nat.lt_trichotomy k' k with h | h | h
    · rw [if_neg (by omega), if_neg (by omega), if_neg (by omega)]
    · subst h
      rw [if_neg (by omega), if_pos rfl, if_pos (by simp)]; simp
    · by_cases h2 : k' < k + (x :: xs).length
      · rw [if_pos (by simp at h2 ⊢; omega), if_pos (by omega)]
        obtain ⟨d, rfl⟩ := Nat.exists_eq_add_of_lt h
        simp [show k + d + 1 - k = d + 1 by omega, show k + d + 1 - (k + 1) = d by omega]
      · rw [if_neg (by simp at h2 ⊢; omega), if_neg (by omega), if_neg (by omega)]

/-- A write leaves every other byte alone. -/
theorem readByte_write_outside (k : Nat) (xs : List Byte) {k' : Nat} (h : k' < k ∨ k + xs.length ≤ k') :
    readByte (write m k xs) k' = readByte m k' := by
  rw [readByte_write, if_neg (by omega)]

@[simp] theorem readBlock_getElem (k i : Nat) (h : i < 8) : (readBlock m k)[i] = readByte m (k + i) := by
  simp [readBlock]

/-- A byte read after a block was written. -/
theorem readByte_writeBlock (k : Nat) (b : Block) (k' : Nat) :
    readByte (writeBlock m k b) k' = if h : k ≤ k' ∧ k' < k + 8 then b[k' - k] else readByte m k' := by
  rw [writeBlock, readByte_write]
  simp only [Vector.length_toList]
  split
  · rename_i h
    have h8 : k' - k < 8 := by omega
    simp [List.getD_eq_getElem?_getD, h8]
  · rfl

theorem readByte_writeBlock_outside (k : Nat) (b : Block) {k' : Nat} (h : k' < k ∨ k + 8 ≤ k') :
    readByte (writeBlock m k b) k' = readByte m k' := by
  rw [readByte_writeBlock, dif_neg (by omega)]

/-- A block read after it was written. -/
theorem readBlock_writeBlock_self (k : Nat) (b : Block) : readBlock (writeBlock m k b) k = b := by
  refine Vector.ext fun i hi => ?_
  rw [readBlock_getElem, readByte_writeBlock, dif_pos (by omega)]
  simp

theorem readBlock_writeBlock_outside (k : Nat) (b : Block) {k' : Nat} (h : k' + 8 ≤ k ∨ k + 8 ≤ k') :
    readBlock (writeBlock m k b) k' = readBlock m k' := by
  refine Vector.ext fun i hi => ?_
  simp only [readBlock_getElem]
  exact readByte_writeBlock_outside m k b (by omega)

theorem readBlock_congr {m m' : Memory} {k : Nat} (h : ∀ i < 8, readByte m (k + i) = readByte m' (k + i)) :
    readBlock m k = readBlock m' k := by
  refine Vector.ext fun i hi => ?_
  simpa using h i hi

/-! ### The canonical form -/

theorem wf_iff : wf m = true ↔ m.Pairwise (fun c d => c.1 < d.1) ∧ ∀ c ∈ m, c.2 ≠ unlisted := by
  simp [wf]

theorem wf_nil : wf [] = true := rfl

theorem erase_wf (h : wf m = true) (k : Nat) : wf (erase m k) = true := by
  rw [wf_iff] at h ⊢
  exact ⟨h.1.filter _, fun c hc => h.2 c (List.mem_filter.mp hc).1⟩

theorem mem_insertCell {k : Nat} {x : Byte} {c : Host.Cell} :
    c ∈ insertCell k x m ↔ c = (k, x) ∨ c ∈ m := by
  induction m with
  | nil => simp [insertCell]
  | cons d m ih =>
    simp only [insertCell]
    split <;> simp [ih, or_left_comm]

theorem insertCell_wf (h : wf m = true) {k : Nat} (hk : ∀ c ∈ m, c.1 ≠ k) {x : Byte} (hx : x ≠ unlisted) :
    wf (insertCell k x m) = true := by
  rw [wf_iff] at h ⊢
  refine ⟨?_, fun c hc => ?_⟩
  · obtain ⟨hp, -⟩ := h
    induction m with
    | nil => simp [insertCell]
    | cons d m ih =>
      rw [List.pairwise_cons] at hp
      simp only [insertCell]
      split
      · rename_i hlt
        refine List.pairwise_cons.mpr ⟨fun c hc => ?_, List.pairwise_cons.mpr hp⟩
        rcases List.mem_cons.mp hc with rfl | hc
        · exact hlt
        · exact Nat.lt_trans hlt (hp.1 c hc)
      · rename_i hge
        have hd : d.1 ≠ k := hk d (by simp)
        refine List.pairwise_cons.mpr ⟨fun c hc => ?_, ih (fun c hc => hk c (by simp [hc])) hp.2⟩
        rcases (mem_insertCell m).mp hc with rfl | hc
        · show d.1 < k
          omega
        · exact hp.1 c hc
  · rcases (mem_insertCell m).mp hc with rfl | hc
    · exact hx
    · exact h.2 c hc

/-- A byte write keeps the canonical form. -/
theorem writeByte_wf (h : wf m = true) (k : Nat) (x : Byte) : wf (writeByte m k x) = true := by
  unfold writeByte
  split
  · exact erase_wf m h k
  · rename_i hx
    exact insertCell_wf _ (erase_wf m h k) (fun c hc => fst_ne_of_mem_erase m hc) hx

theorem write_wf (h : wf m = true) (k : Nat) (xs : List Byte) : wf (write m k xs) = true := by
  induction xs generalizing m k with
  | nil => exact h
  | cons x xs ih => exact ih _ (writeByte_wf m h k x) (k + 1)

theorem writeBlock_wf (h : wf m = true) (k : Nat) (b : Block) : wf (writeBlock m k b) = true := write_wf m h k _

/-- A cell that a byte write lists is the written one or was listed before. -/
theorem mem_writeByte {k : Nat} {x : Byte} {c : Host.Cell} (h : c ∈ writeByte m k x) : c = (k, x) ∨ c ∈ m := by
  unfold writeByte at h
  split at h
  · exact .inr (List.mem_filter.mp h).1
  · rcases (mem_insertCell _).mp h with h | h
    · exact .inl h
    · exact .inr (List.mem_filter.mp h).1

/-- A cell that a write lists has a key in the written range or was listed before. -/
theorem mem_write {k : Nat} {xs : List Byte} {c : Host.Cell} (h : c ∈ write m k xs) :
    (k ≤ c.1 ∧ c.1 < k + xs.length) ∨ c ∈ m := by
  induction xs generalizing m k with
  | nil => exact .inr h
  | cons x xs ih =>
    rcases ih _ h with h | h
    · exact .inl (by simp; omega)
    · rcases mem_writeByte m h with rfl | h
      · exact .inl (by simp)
      · exact .inr h

/-- Two canonical memories that read alike are the same list. -/
theorem eq_of_readByte_eq {m m' : Memory} (h : wf m = true) (h' : wf m' = true)
    (he : ∀ k, readByte m k = readByte m' k) : m = m' := by
  have below : ∀ {l : Memory} {k : Nat}, (∀ c ∈ l, k < c.1) → readByte l k = unlisted := by
    intro l k hl
    induction l with
    | nil => rfl
    | cons c l ih =>
      rw [readByte, if_neg (by have := hl c (by simp); omega)]
      exact ih fun d hd => hl d (by simp [hd])
  rw [wf_iff] at h h'
  induction m generalizing m' with
  | nil =>
    cases m' with
    | nil => rfl
    | cons d m' =>
      have := he d.1
      simp [readByte] at this
      exact absurd this.symm (h'.2 d (by simp))
  | cons c m ih =>
    cases m' with
    | nil =>
      have := he c.1
      simp [readByte] at this
      exact absurd this (h.2 c (by simp))
    | cons d m' =>
      obtain ⟨hp, hz⟩ := h
      obtain ⟨hp', hz'⟩ := h'
      rw [List.pairwise_cons] at hp hp'
      rcases Nat.lt_trichotomy c.1 d.1 with hlt | heq | hgt
      · have := he c.1
        rw [readByte, if_pos rfl, below (l := d :: m')
          fun e hm => by rcases List.mem_cons.mp hm with rfl | hm; exacts [hlt, Nat.lt_trans hlt (hp'.1 e hm)]] at this
        exact absurd this (hz c (by simp))
      · have hcd : c = d := by
          have := he c.1
          rw [readByte, if_pos rfl, readByte, if_pos heq.symm] at this
          exact Prod.ext heq this
        subst hcd
        congr 1
        refine ih ⟨hp.2, fun e hm => hz e (by simp [hm])⟩
          ⟨hp'.2, fun e hm => hz' e (by simp [hm])⟩ fun k => ?_
        by_cases hk : c.1 = k
        · subst hk; rw [below hp.1, below hp'.1]
        · simpa [readByte, hk] using he k
      · have := he d.1
        rw [readByte.eq_def (d :: m'), below (l := c :: m)
          fun e hm => by rcases List.mem_cons.mp hm with rfl | hm; exacts [hgt, Nat.lt_trans hgt (hp.1 e hm)]] at this
        simp at this
        exact absurd this.symm (hz' d (by simp))

end Sys2Proof.Machine.Memory
end

