-- ==== Sys2Proof/Laws/State.lean ====
section
/-! SUPPORT. What each named update of the state leaves in each field, one lemma per field per update. -/

namespace Sys2Proof.Machine.State

open Sys2Proof

variable (s : State)

/-! ### `setV` -/

@[simp] theorem setV_cipher (x : Block) : (s.setV x).cipher = s.cipher := rfl
@[simp] theorem setV_v (x : Block) : (s.setV x).v = x := rfl
@[simp] theorem setV_r (x : Block) : (s.setV x).r = s.r := rfl
@[simp] theorem setV_bytesLeft (x : Block) : (s.setV x).bytesLeft = s.bytesLeft := rfl
@[simp] theorem setV_life (x : Block) : (s.setV x).life = s.life := rfl
@[simp] theorem setV_mode (x : Block) : (s.setV x).mode = s.mode := rfl
@[simp] theorem setV_bufSize (x : Block) : (s.setV x).bufSize = s.bufSize := rfl
@[simp] theorem setV_mem (x : Block) : (s.setV x).mem = s.mem := rfl
@[simp] theorem setV_inbox (x : Block) : (s.setV x).inbox = s.inbox := rfl
@[simp] theorem setV_response (x : Block) : (s.setV x).response = s.response := rfl
@[simp] theorem setV_freeCount (x : Block) : (s.setV x).freeCount = s.freeCount := rfl

/-! ### `setCfb` -/

@[simp] theorem setCfb_cipher (x : Block) (n : Fin 9) : (s.setCfb x n).cipher = s.cipher := rfl
@[simp] theorem setCfb_v (x : Block) (n : Fin 9) : (s.setCfb x n).v = s.v := rfl
@[simp] theorem setCfb_r (x : Block) (n : Fin 9) : (s.setCfb x n).r = x := rfl
@[simp] theorem setCfb_bytesLeft (x : Block) (n : Fin 9) : (s.setCfb x n).bytesLeft = n := rfl
@[simp] theorem setCfb_life (x : Block) (n : Fin 9) : (s.setCfb x n).life = s.life := rfl
@[simp] theorem setCfb_mode (x : Block) (n : Fin 9) : (s.setCfb x n).mode = s.mode := rfl
@[simp] theorem setCfb_bufSize (x : Block) (n : Fin 9) : (s.setCfb x n).bufSize = s.bufSize := rfl
@[simp] theorem setCfb_mem (x : Block) (n : Fin 9) : (s.setCfb x n).mem = s.mem := rfl
@[simp] theorem setCfb_inbox (x : Block) (n : Fin 9) : (s.setCfb x n).inbox = s.inbox := rfl
@[simp] theorem setCfb_response (x : Block) (n : Fin 9) : (s.setCfb x n).response = s.response := rfl
@[simp] theorem setCfb_freeCount (x : Block) (n : Fin 9) : (s.setCfb x n).freeCount = s.freeCount := rfl

/-! ### `setMem` -/

@[simp] theorem setMem_cipher (m : Memory) : (s.setMem m).cipher = s.cipher := rfl
@[simp] theorem setMem_v (m : Memory) : (s.setMem m).v = s.v := rfl
@[simp] theorem setMem_r (m : Memory) : (s.setMem m).r = s.r := rfl
@[simp] theorem setMem_bytesLeft (m : Memory) : (s.setMem m).bytesLeft = s.bytesLeft := rfl
@[simp] theorem setMem_life (m : Memory) : (s.setMem m).life = s.life := rfl
@[simp] theorem setMem_mode (m : Memory) : (s.setMem m).mode = s.mode := rfl
@[simp] theorem setMem_bufSize (m : Memory) : (s.setMem m).bufSize = s.bufSize := rfl
@[simp] theorem setMem_mem (m : Memory) : (s.setMem m).mem = m := rfl
@[simp] theorem setMem_inbox (m : Memory) : (s.setMem m).inbox = s.inbox := rfl
@[simp] theorem setMem_response (m : Memory) : (s.setMem m).response = s.response := rfl
@[simp] theorem setMem_freeCount (m : Memory) : (s.setMem m).freeCount = s.freeCount := rfl

/-! ### `setInstance` -/

@[simp] theorem setInstance_cipher (c : CipherState) (md : Mode) (l : Life) : (s.setInstance c md l).cipher = c := rfl
@[simp] theorem setInstance_v (c : CipherState) (md : Mode) (l : Life) : (s.setInstance c md l).v = s.v := rfl
@[simp] theorem setInstance_r (c : CipherState) (md : Mode) (l : Life) : (s.setInstance c md l).r = s.r := rfl
@[simp] theorem setInstance_bytesLeft (c : CipherState) (md : Mode) (l : Life) :
    (s.setInstance c md l).bytesLeft = s.bytesLeft := rfl
@[simp] theorem setInstance_life (c : CipherState) (md : Mode) (l : Life) : (s.setInstance c md l).life = l := rfl
@[simp] theorem setInstance_mode (c : CipherState) (md : Mode) (l : Life) : (s.setInstance c md l).mode = md := rfl
@[simp] theorem setInstance_bufSize (c : CipherState) (md : Mode) (l : Life) :
    (s.setInstance c md l).bufSize = s.bufSize := rfl
@[simp] theorem setInstance_mem (c : CipherState) (md : Mode) (l : Life) : (s.setInstance c md l).mem = s.mem := rfl
@[simp] theorem setInstance_inbox (c : CipherState) (md : Mode) (l : Life) :
    (s.setInstance c md l).inbox = s.inbox := rfl
@[simp] theorem setInstance_response (c : CipherState) (md : Mode) (l : Life) :
    (s.setInstance c md l).response = s.response := rfl
@[simp] theorem setInstance_freeCount (c : CipherState) (md : Mode) (l : Life) :
    (s.setInstance c md l).freeCount = s.freeCount := rfl

/-! ### `setInbox` -/

@[simp] theorem setInbox_cipher (q : List HostAction) : (s.setInbox q).cipher = s.cipher := rfl
@[simp] theorem setInbox_v (q : List HostAction) : (s.setInbox q).v = s.v := rfl
@[simp] theorem setInbox_r (q : List HostAction) : (s.setInbox q).r = s.r := rfl
@[simp] theorem setInbox_bytesLeft (q : List HostAction) : (s.setInbox q).bytesLeft = s.bytesLeft := rfl
@[simp] theorem setInbox_life (q : List HostAction) : (s.setInbox q).life = s.life := rfl
@[simp] theorem setInbox_mode (q : List HostAction) : (s.setInbox q).mode = s.mode := rfl
@[simp] theorem setInbox_bufSize (q : List HostAction) : (s.setInbox q).bufSize = s.bufSize := rfl
@[simp] theorem setInbox_mem (q : List HostAction) : (s.setInbox q).mem = s.mem := rfl
@[simp] theorem setInbox_inbox (q : List HostAction) : (s.setInbox q).inbox = q := rfl
@[simp] theorem setInbox_response (q : List HostAction) : (s.setInbox q).response = s.response := rfl
@[simp] theorem setInbox_freeCount (q : List HostAction) : (s.setInbox q).freeCount = s.freeCount := rfl

/-! ### `setResponse` -/

@[simp] theorem setResponse_cipher (x : Response) : (s.setResponse x).cipher = s.cipher := rfl
@[simp] theorem setResponse_v (x : Response) : (s.setResponse x).v = s.v := rfl
@[simp] theorem setResponse_r (x : Response) : (s.setResponse x).r = s.r := rfl
@[simp] theorem setResponse_bytesLeft (x : Response) : (s.setResponse x).bytesLeft = s.bytesLeft := rfl
@[simp] theorem setResponse_life (x : Response) : (s.setResponse x).life = s.life := rfl
@[simp] theorem setResponse_mode (x : Response) : (s.setResponse x).mode = s.mode := rfl
@[simp] theorem setResponse_bufSize (x : Response) : (s.setResponse x).bufSize = s.bufSize := rfl
@[simp] theorem setResponse_mem (x : Response) : (s.setResponse x).mem = s.mem := rfl
@[simp] theorem setResponse_inbox (x : Response) : (s.setResponse x).inbox = s.inbox := rfl
@[simp] theorem setResponse_response (x : Response) : (s.setResponse x).response = some x := rfl
@[simp] theorem setResponse_freeCount (x : Response) : (s.setResponse x).freeCount = s.freeCount := rfl

/-! ### `setCbcRun` -/

@[simp] theorem setCbcRun_cipher (x : CbcRun) : (s.setCbcRun x).cipher = s.cipher := rfl
@[simp] theorem setCbcRun_v (x : CbcRun) : (s.setCbcRun x).v = x.v := rfl
@[simp] theorem setCbcRun_r (x : CbcRun) : (s.setCbcRun x).r = s.r := rfl
@[simp] theorem setCbcRun_bytesLeft (x : CbcRun) : (s.setCbcRun x).bytesLeft = s.bytesLeft := rfl
@[simp] theorem setCbcRun_life (x : CbcRun) : (s.setCbcRun x).life = s.life := rfl
@[simp] theorem setCbcRun_mode (x : CbcRun) : (s.setCbcRun x).mode = s.mode := rfl
@[simp] theorem setCbcRun_bufSize (x : CbcRun) : (s.setCbcRun x).bufSize = s.bufSize := rfl
@[simp] theorem setCbcRun_mem (x : CbcRun) : (s.setCbcRun x).mem = x.mem := rfl
@[simp] theorem setCbcRun_inbox (x : CbcRun) : (s.setCbcRun x).inbox = s.inbox := rfl
@[simp] theorem setCbcRun_response (x : CbcRun) : (s.setCbcRun x).response = s.response := rfl
@[simp] theorem setCbcRun_freeCount (x : CbcRun) : (s.setCbcRun x).freeCount = s.freeCount := rfl

/-! ### `construct` -/

@[simp] theorem construct_cipher (md : Mode) (key : Addr) (len : Nat) :
    (s.construct md key len).cipher = keySchedule (s.mem.read key.cell len) := rfl
@[simp] theorem construct_v (md : Mode) (key : Addr) (len : Nat) : (s.construct md key len).v = zeroBlock := rfl
@[simp] theorem construct_r (md : Mode) (key : Addr) (len : Nat) : (s.construct md key len).r = zeroBlock := rfl
@[simp] theorem construct_bytesLeft (md : Mode) (key : Addr) (len : Nat) :
    (s.construct md key len).bytesLeft = 0 := rfl
@[simp] theorem construct_life (md : Mode) (key : Addr) (len : Nat) : (s.construct md key len).life = .keyed := rfl
@[simp] theorem construct_mode (md : Mode) (key : Addr) (len : Nat) : (s.construct md key len).mode = md := rfl
@[simp] theorem construct_bufSize (md : Mode) (key : Addr) (len : Nat) :
    (s.construct md key len).bufSize = s.bufSize := by
  simp only [construct, setCfb_bufSize, setV_bufSize, setInstance_bufSize]
@[simp] theorem construct_mem (md : Mode) (key : Addr) (len : Nat) : (s.construct md key len).mem = s.mem := by
  simp only [construct, setCfb_mem, setV_mem, setInstance_mem]
@[simp] theorem construct_inbox (md : Mode) (key : Addr) (len : Nat) : (s.construct md key len).inbox = s.inbox := by
  simp only [construct, setCfb_inbox, setV_inbox, setInstance_inbox]
@[simp] theorem construct_response (md : Mode) (key : Addr) (len : Nat) :
    (s.construct md key len).response = s.response := by
  simp only [construct, setCfb_response, setV_response, setInstance_response]
@[simp] theorem construct_freeCount (md : Mode) (key : Addr) (len : Nat) :
    (s.construct md key len).freeCount = s.freeCount := by
  simp only [construct, setCfb_freeCount, setV_freeCount, setInstance_freeCount]

/-- A construction as one record. -/
theorem construct_eq (md : Mode) (key : Addr) (len : Nat) :
    s.construct md key len =
      { s with
        cipher := keySchedule (s.mem.read key.cell len), mode := md, life := .keyed, v := zeroBlock, r := zeroBlock,
        bytesLeft := 0 } := by
  simp only [construct, setCfb, setV, setInstance]

/-! ### `wipe` -/

@[simp] theorem wipe_cipher : s.wipe.cipher = CipherState.zero := rfl
@[simp] theorem wipe_v : s.wipe.v = zeroBlock := rfl
@[simp] theorem wipe_r : s.wipe.r = zeroBlock := rfl
@[simp] theorem wipe_bytesLeft : s.wipe.bytesLeft = 0 := rfl
@[simp] theorem wipe_life : s.wipe.life = .empty := rfl
@[simp] theorem wipe_mode : s.wipe.mode = .none := rfl
@[simp] theorem wipe_bufSize : s.wipe.bufSize = s.bufSize := rfl
@[simp] theorem wipe_mem : s.wipe.mem = s.mem := rfl
@[simp] theorem wipe_inbox : s.wipe.inbox = s.inbox := rfl
@[simp] theorem wipe_response : s.wipe.response = s.response := rfl
@[simp] theorem wipe_freeCount : s.wipe.freeCount = s.freeCount := rfl

/-! ### `clearResponse` -/

@[simp] theorem clearResponse_cipher : s.clearResponse.cipher = s.cipher := rfl
@[simp] theorem clearResponse_v : s.clearResponse.v = s.v := rfl
@[simp] theorem clearResponse_r : s.clearResponse.r = s.r := rfl
@[simp] theorem clearResponse_bytesLeft : s.clearResponse.bytesLeft = s.bytesLeft := rfl
@[simp] theorem clearResponse_life : s.clearResponse.life = s.life := rfl
@[simp] theorem clearResponse_mode : s.clearResponse.mode = s.mode := rfl
@[simp] theorem clearResponse_bufSize : s.clearResponse.bufSize = s.bufSize := rfl
@[simp] theorem clearResponse_mem : s.clearResponse.mem = s.mem := rfl
@[simp] theorem clearResponse_inbox : s.clearResponse.inbox = s.inbox := rfl
@[simp] theorem clearResponse_response : s.clearResponse.response = none := rfl
@[simp] theorem clearResponse_freeCount : s.clearResponse.freeCount = s.freeCount := rfl

/-! ### `setFreeCount` -/

@[simp] theorem setFreeCount_cipher (c : Nat) : (s.setFreeCount c).cipher = s.cipher := rfl
@[simp] theorem setFreeCount_v (c : Nat) : (s.setFreeCount c).v = s.v := rfl
@[simp] theorem setFreeCount_r (c : Nat) : (s.setFreeCount c).r = s.r := rfl
@[simp] theorem setFreeCount_bytesLeft (c : Nat) : (s.setFreeCount c).bytesLeft = s.bytesLeft := rfl
@[simp] theorem setFreeCount_life (c : Nat) : (s.setFreeCount c).life = s.life := rfl
@[simp] theorem setFreeCount_mode (c : Nat) : (s.setFreeCount c).mode = s.mode := rfl
@[simp] theorem setFreeCount_bufSize (c : Nat) : (s.setFreeCount c).bufSize = s.bufSize := rfl
@[simp] theorem setFreeCount_mem (c : Nat) : (s.setFreeCount c).mem = s.mem := rfl
@[simp] theorem setFreeCount_inbox (c : Nat) : (s.setFreeCount c).inbox = s.inbox := rfl
@[simp] theorem setFreeCount_response (c : Nat) : (s.setFreeCount c).response = s.response := rfl
@[simp] theorem setFreeCount_freeCount (c : Nat) : (s.setFreeCount c).freeCount = c := rfl

/-! ### Reads through an update -/

@[simp] theorem sizeOf_setV (x : Block) (b : BufId) : (s.setV x).sizeOf b = s.sizeOf b := rfl
@[simp] theorem sizeOf_setCfb (x : Block) (n : Fin 9) (b : BufId) : (s.setCfb x n).sizeOf b = s.sizeOf b := rfl
@[simp] theorem sizeOf_setMem (m : Memory) (b : BufId) : (s.setMem m).sizeOf b = s.sizeOf b := rfl
@[simp] theorem sizeOf_setResponse (x : Response) (b : BufId) : (s.setResponse x).sizeOf b = s.sizeOf b := rfl
@[simp] theorem sizeOf_setInbox (q : List HostAction) (b : BufId) : (s.setInbox q).sizeOf b = s.sizeOf b := rfl
@[simp] theorem byteAt_setResponse (x : Response) (a : Addr) : (s.setResponse x).byteAt a = s.byteAt a := rfl
@[simp] theorem byteAt_setInbox (q : List HostAction) (a : Addr) : (s.setInbox q).byteAt a = s.byteAt a := rfl
@[simp] theorem byteAt_setV (x : Block) (a : Addr) : (s.setV x).byteAt a = s.byteAt a := rfl
@[simp] theorem byteAt_setCfb (x : Block) (n : Fin 9) (a : Addr) : (s.setCfb x n).byteAt a = s.byteAt a := rfl
@[simp] theorem sizeOf_setFreeCount (c : Nat) (b : BufId) : (s.setFreeCount c).sizeOf b = s.sizeOf b := rfl
@[simp] theorem byteAt_setFreeCount (c : Nat) (a : Addr) : (s.setFreeCount c).byteAt a = s.byteAt a := rfl
@[simp] theorem byteAt_setMem (m : Memory) (a : Addr) : (s.setMem m).byteAt a = m.readByte a.cell := rfl

/-! ### Writing a field twice keeps the second -/

@[simp] theorem setResponse_setResponse (x y : Response) : (s.setResponse x).setResponse y = s.setResponse y := rfl
@[simp] theorem setInbox_setInbox (p q : List HostAction) : (s.setInbox p).setInbox q = s.setInbox q := rfl

end Sys2Proof.Machine.State
end

