-- ==== Sys2Proof/Laws/Operands.lean ====
section
/-! SUPPORT. The checks on operands, each said once: when a check passes, what a transfer can answer; and windows seen as
ranges of memory keys. -/

namespace Sys2Proof

/-! ### Addresses and keys -/

@[simp] theorem Addr.plus_buf (a : Addr) (i : Nat) : (a.plus i).buf = a.buf := rfl
@[simp] theorem Addr.plus_off (a : Addr) (i : Nat) : (a.plus i).off = a.off + i := rfl
@[simp] theorem Addr.plus_zero (a : Addr) : a.plus 0 = a := rfl

theorem Addr.plus_plus (a : Addr) (i j : Nat) : (a.plus i).plus j = a.plus (i + j) := by
  simp [Addr.plus, Nat.add_assoc]

theorem Addr.cell_plus (a : Addr) (i : Nat) : (a.plus i).cell = a.cell + i := by
  simp [Addr.cell, Nat.add_assoc]

/-- Addresses with offsets below `2^OFFW` have different keys. -/
theorem Addr.cell_inj {a b : Addr} (ha : a.off < Config.offLimit) (hb : b.off < Config.offLimit)
    (h : a.cell = b.cell) : a = b := by
  obtain ⟨ab, ao⟩ := a
  obtain ⟨bb, bo⟩ := b
  simp only [Addr.cell, Config.offLimit] at h ha hb
  have h1 : ab.toNat = bb.toNat := by omega
  have h2 : ao = bo := by omega
  rw [BitVec.eq_of_toNat_eq h1, h2]

/-- A window with offsets below `2^OFFW` is a range of keys. -/
theorem inWindow_iff {w a : Addr} {n : Nat} (hw : w.off + n ≤ Config.offLimit) (ha : a.off < Config.offLimit) :
    inWindow w n a ↔ w.cell ≤ a.cell ∧ a.cell < w.cell + n := by
  obtain ⟨wb, wo⟩ := w
  obtain ⟨ab, ao⟩ := a
  simp only [inWindow, Addr.cell, Config.offLimit] at hw ha ⊢
  constructor
  · rintro ⟨rfl, h⟩
    omega
  · intro h
    have h1 : ab.toNat = wb.toNat := by omega
    exact ⟨BitVec.eq_of_toNat_eq h1, by omega, by omega⟩

/-- Two windows that do not overlap partially are the same range of keys or disjoint ranges. -/
theorem apartOrSame.cells {inp out : Addr} {n : Nat} (hi : inp.off + n ≤ Config.offLimit)
    (ho : out.off + n ≤ Config.offLimit) (h : apartOrSame inp out n) :
    inp.cell = out.cell ∨ n = 0 ∨ inp.cell + n ≤ out.cell ∨ out.cell + n ≤ inp.cell := by
  rcases h with rfl | h | h | h | h
  · exact .inl rfl
  · have : inp.buf.toNat ≠ out.buf.toNat := fun e => h (BitVec.eq_of_toNat_eq e)
    simp only [Addr.cell, Config.offLimit] at hi ho ⊢
    omega
  · exact .inr (.inl h)
  all_goals
    by_cases hb : inp.buf = out.buf
    · simp only [Addr.cell, hb]
      omega
    · have : inp.buf.toNat ≠ out.buf.toNat := fun e => hb (BitVec.eq_of_toNat_eq e)
      simp only [Addr.cell, Config.offLimit] at hi ho ⊢
      omega

namespace Machine

theorem State.sizeOf_lt (s : State) (b : BufId) : s.sizeOf b < Config.offLimit := by
  have := (s.bufSize[b.toNat]).isLt
  simpa [State.sizeOf] using this

theorem State.inBounds_iff (s : State) (a : Addr) (n : Nat) :
    s.inBounds a n = true ↔ a.off + n ≤ s.sizeOf a.buf := by
  simp [State.inBounds]

theorem State.inBounds_lt {s : State} {a : Addr} {n : Nat} (h : s.inBounds a n = true) :
    a.off + n < Config.offLimit := by
  have := s.sizeOf_lt a.buf
  rw [State.inBounds_iff] at h
  omega

theorem partialOverlap_eq_false {inp out : Addr} {n : Nat} :
    partialOverlap inp out n = false ↔ apartOrSame inp out n := by
  obtain ⟨ib, io⟩ := inp
  obtain ⟨ob, oo⟩ := out
  simp only [partialOverlap, apartOrSame, decide_eq_false_iff_not, Addr.mk.injEq]
  by_cases hb : ib = ob
  · subst hb
    simp only [true_and, ne_eq, not_true_eq_false, false_or]
    omega
  · simp [hb]

theorem partialOverlap_eq_true {inp out : Addr} {n : Nat} :
    partialOverlap inp out n = true ↔ ¬ apartOrSame inp out n := by
  rw [← partialOverlap_eq_false]; simp

/-! ### Buffer contents -/

theorem State.byteAt_plus (s : State) (a : Addr) (i : Nat) : s.byteAt (a.plus i) = s.mem.readByte (a.cell + i) := by
  rw [State.byteAt, Addr.cell_plus]

theorem State.bytes_eq (s : State) (w : Addr) (n : Nat) : s.bytes w n = s.mem.read w.cell n := by
  simp [State.bytes, Memory.read, State.byteAt_plus]

theorem State.block_eq (s : State) (w : Addr) : s.block w = s.mem.readBlock w.cell := by
  simp [State.block, Memory.readBlock, State.byteAt_plus]

@[simp] theorem Memory.read_length (m : Memory) (k n : Nat) : (m.read k n).length = n := by simp [Memory.read]

theorem Memory.getElem_read (m : Memory) (k n i : Nat) (h : i < (m.read k n).length) :
    (m.read k n)[i] = m.readByte (k + i) := by simp [Memory.read]

/-- A memory that differs inside a window only leaves every other byte of the buffers alone. -/
theorem sameOutside_of_keys {s t : State} {w : Addr} {n : Nat} (hw : w.off + n ≤ Config.offLimit)
    (h : ∀ k, k < w.cell ∨ w.cell + n ≤ k → t.mem.readByte k = s.mem.readByte k) : sameOutside s t w n := by
  intro a ha hn
  rw [inWindow_iff hw ha] at hn
  exact h _ (by omega)

/-! ### When the checks pass -/

theorem State.keyedIn_iff (s : State) (mode : Mode) : s.keyedIn mode = true ↔ s.life = .keyed ∧ s.mode = mode := by
  simp [State.keyedIn]

theorem State.initChecks_eq_none (s : State) (key : Addr) (len : Nat) (iv : Option Addr) :
    s.initChecks key len iv = none ↔
      s.life = .empty ∧ len ≤ Config.keyMax ∧ s.inBounds key len = true ∧
        ∀ a, iv = some a → s.inBounds a 8 = true := by
  unfold State.initChecks
  cases iv <;> split_ifs <;> simp_all

theorem State.xferChecks_eq_none (s : State) (mode : Mode) (blockAligned : Bool) (inp out : Addr) (len : Nat) :
    s.xferChecks mode blockAligned inp out len = none ↔
      (s.life = .keyed ∧ s.mode = mode) ∧ (blockAligned = true → len % 8 = 0) ∧ s.inBounds inp len = true ∧
        s.inBounds out len = true := by
  unfold State.xferChecks
  rw [← State.keyedIn_iff]
  split_ifs <;> simp_all

theorem State.ivChecks_eq_none (s : State) (mode : Mode) (a : Addr) :
    s.ivChecks mode a = none ↔ (s.life = .keyed ∧ s.mode = mode) ∧ s.inBounds a 8 = true := by
  unfold State.ivChecks
  rw [← State.keyedIn_iff]
  split_ifs <;> simp_all

theorem State.initChecks_ne_ok {s : State} {key : Addr} {len : Nat} {iv : Option Addr} {e : Status}
    (h : s.initChecks key len iv = some e) : e ≠ .ok := by
  rintro rfl
  unfold State.initChecks at h
  cases iv <;> simp only at h <;> split_ifs at h <;> simp_all

theorem State.xferChecks_ne_ok {s : State} {mode : Mode} {al : Bool} {inp out : Addr} {len : Nat} {e : Status}
    (h : s.xferChecks mode al inp out len = some e) : e ≠ .ok := by
  rintro rfl
  unfold State.xferChecks at h
  split_ifs at h <;> simp_all

theorem State.ivChecks_ne_ok {s : State} {mode : Mode} {a : Addr} {e : Status}
    (h : s.ivChecks mode a = some e) : e ≠ .ok := by
  rintro rfl
  unfold State.ivChecks at h
  split_ifs at h <;> simp_all

/-! ### What a transfer answers -/

/-- A transfer whose operands pass every check runs. -/
theorem State.transfer_of_checks {s : State} {mode : Mode} {al : Bool} {inp out : Addr} {len : Nat}
    (run : State → State) (h : s.xferChecks mode al inp out len = none) (ha : apartOrSame inp out len) :
    s.transfer mode al inp out len run = (run s).respond (BitVec.ofNat 64 len) := by
  rw [State.transfer, h]
  simp [partialOverlap_eq_false.mpr ha]

/-- A transfer that goes on has either raised an error or passed every check and run. -/
theorem State.transfer_cases {s t : State} {mode : Mode} {al : Bool} {inp out : Addr} {len : Nat} {run : State → State}
    (h : s.transfer mode al inp out len run = .next t) :
    (∃ e, s.xferChecks mode al inp out len = some e ∧ t = s.setResponse ⟨e, 0⟩) ∨
    (s.xferChecks mode al inp out len = none ∧ apartOrSame inp out len ∧
      t = (run s).setResponse ⟨.ok, BitVec.ofNat 64 len⟩) := by
  unfold State.transfer at h
  split at h
  · rename_i e he
    exact .inl ⟨e, he, by injection h with h; exact h.symm⟩
  · rename_i hn
    split at h
    · cases h
    · rename_i hp
      exact .inr ⟨hn, partialOverlap_eq_false.mp (by simpa using hp), by injection h with h; exact h.symm⟩

end Machine

end Sys2Proof
end

