-- ==== Sys2Proof/Laws/Blocks.lean ====
section
/-! SUPPORT. The block loops of ECB and CBC over memory keys `a` (read) and `b` (written), said once: what every block of
the output is, what the chain register is at the end, what is left alone, and that a run of `n + k` blocks is a run of
`n` followed by a run of `k`. The two ranges are the same or share no byte (`Ranges`). -/

namespace Sys2Proof.Machine

open Sys2Proof

/-- The `n` bytes from key `a` and the `n` bytes from key `b` are the same bytes or share none. -/
def Ranges (a b n : Nat) : Prop := a = b ∨ n = 0 ∨ a + n ≤ b ∨ b + n ≤ a

theorem Ranges.of_apartOrSame {inp out : Addr} {n : Nat} (hi : inp.off + n ≤ Config.offLimit)
    (ho : out.off + n ≤ Config.offLimit) (h : apartOrSame inp out n) : Ranges inp.cell out.cell n :=
  h.cells hi ho

/-- After the first block the rest of the ranges still are the same or apart. -/
theorem Ranges.tail {a b n : Nat} (h : Ranges a b (8 * (n + 1))) : Ranges (a + 8) (b + 8) (8 * n) := by
  unfold Ranges at *
  omega

/-- Writing block 0 of the output leaves the later input blocks alone. -/
theorem Ranges.readBlock_later {a b n : Nat} (h : Ranges a b (8 * (n + 1))) (m : Memory) (x : Block) {i : Nat}
    (hi : i < n) : (m.writeBlock b x).readBlock (a + 8 + 8 * i) = m.readBlock (a + 8 + 8 * i) := by
  apply Memory.readBlock_writeBlock_outside
  unfold Ranges at h
  omega

/-! ### ECB -/

theorem Memory.mapBlocks_outside (g : Block → Block) (n a b : Nat) (m : Memory) {k : Nat}
    (h : k < b ∨ b + 8 * n ≤ k) : (m.mapBlocks g n a b).readByte k = m.readByte k := by
  induction n generalizing a b m with
  | zero => rfl
  | succ n ih =>
    rw [mapBlocks, ih _ _ _ (by omega), Memory.readByte_writeBlock_outside _ _ _ (by omega)]

/-- Output block `i` of ECB is the transform of input block `i`. -/
theorem Memory.mapBlocks_block (g : Block → Block) (n a b : Nat) (m : Memory) (hr : Ranges a b (8 * n)) {i : Nat}
    (hi : i < n) : (m.mapBlocks g n a b).readBlock (b + 8 * i) = g (m.readBlock (a + 8 * i)) := by
  induction n generalizing a b m i with
  | zero => omega
  | succ n ih =>
    rw [mapBlocks]
    cases i with
    | zero =>
      rw [Memory.readBlock_congr (m' := m.writeBlock b (g (m.readBlock a))) fun j hj =>
        Memory.mapBlocks_outside g n _ _ _ (by omega)]
      exact Memory.readBlock_writeBlock_self m b _
    | succ i =>
      have := ih (a + 8) (b + 8) (m.writeBlock b (g (m.readBlock a))) hr.tail (i := i) (by omega)
      rw [hr.readBlock_later m _ (by omega)] at this
      rwa [show b + 8 * (i + 1) = b + 8 + 8 * i by omega, show a + 8 * (i + 1) = a + 8 + 8 * i by omega]

theorem Memory.mapBlocks_add (g : Block → Block) (n k a b : Nat) (m : Memory) :
    m.mapBlocks g (n + k) a b = (m.mapBlocks g n a b).mapBlocks g k (a + 8 * n) (b + 8 * n) := by
  induction n generalizing a b m with
  | zero => simp [mapBlocks]
  | succ n ih =>
    rw [Nat.succ_add, mapBlocks, mapBlocks, ih]
    congr 1 <;> omega

theorem Memory.mapBlocks_wf (g : Block → Block) (n a b : Nat) (m : Memory) (h : m.wf = true) :
    (m.mapBlocks g n a b).wf = true := by
  induction n generalizing a b m with
  | zero => exact h
  | succ n ih => exact ih _ _ _ (Memory.writeBlock_wf _ h _ _)

theorem Memory.mem_mapBlocks (g : Block → Block) (n a b : Nat) (m : Memory) {c : Host.Cell}
    (h : c ∈ m.mapBlocks g n a b) : (b ≤ c.1 ∧ c.1 < b + 8 * n) ∨ c ∈ m := by
  induction n generalizing a b m with
  | zero => exact .inr h
  | succ n ih =>
    rcases ih _ _ _ h with h | h
    · exact .inl (by omega)
    · rcases Memory.mem_write _ h with h | h
      · exact .inl (by simp at h; omega)
      · exact .inr h

/-! ### CBC -/

/-- A CBC step that leaves a block at the output key and its chain value. -/
def CbcRun.WritesBlock (stepAt : Nat → Nat → CbcRun → CbcRun) : Prop :=
  ∀ a b x, ∃ y, (stepAt a b x).mem = x.mem.writeBlock b y

theorem CbcRun.encStep_writes (c : CipherState) : CbcRun.WritesBlock (CbcRun.encStep c) :=
  fun _ _ _ => ⟨_, rfl⟩

theorem CbcRun.decStep_writes (c : CipherState) : CbcRun.WritesBlock (CbcRun.decStep c) :=
  fun _ _ _ => ⟨_, rfl⟩

theorem CbcRun.blocks_outside {f : Nat → Nat → CbcRun → CbcRun} (hf : CbcRun.WritesBlock f) (n a b : Nat) (x : CbcRun)
    {k : Nat} (h : k < b ∨ b + 8 * n ≤ k) : (CbcRun.blocks f n a b x).mem.readByte k = x.mem.readByte k := by
  induction n generalizing a b x with
  | zero => rfl
  | succ n ih =>
    obtain ⟨y, hy⟩ := hf a b x
    rw [blocks, ih _ _ _ (by omega), hy, Memory.readByte_writeBlock_outside _ _ _ (by omega)]

theorem CbcRun.blocks_add (f : Nat → Nat → CbcRun → CbcRun) (n k a b : Nat) (x : CbcRun) :
    CbcRun.blocks f (n + k) a b x = CbcRun.blocks f k (a + 8 * n) (b + 8 * n) (CbcRun.blocks f n a b x) := by
  induction n generalizing a b x with
  | zero => simp [blocks]
  | succ n ih =>
    rw [Nat.succ_add, blocks, blocks, ih]
    congr 1 <;> omega

theorem CbcRun.blocks_wf {f : Nat → Nat → CbcRun → CbcRun} (hf : CbcRun.WritesBlock f) (n a b : Nat) (x : CbcRun)
    (h : x.mem.wf = true) : (CbcRun.blocks f n a b x).mem.wf = true := by
  induction n generalizing a b x with
  | zero => exact h
  | succ n ih =>
    obtain ⟨y, hy⟩ := hf a b x
    exact ih _ _ _ (hy ▸ Memory.writeBlock_wf _ h _ _)

theorem CbcRun.mem_blocks {f : Nat → Nat → CbcRun → CbcRun} (hf : CbcRun.WritesBlock f) (n a b : Nat) (x : CbcRun)
    {c : Host.Cell} (h : c ∈ (CbcRun.blocks f n a b x).mem) : (b ≤ c.1 ∧ c.1 < b + 8 * n) ∨ c ∈ x.mem := by
  induction n generalizing a b x with
  | zero => exact .inr h
  | succ n ih =>
    obtain ⟨y, hy⟩ := hf a b x
    rcases ih _ _ _ h with h | h
    · exact .inl (by omega)
    · rw [hy] at h
      rcases Memory.mem_write _ h with h | h
      · exact .inl (by simp at h; omega)
      · exact .inr h

/-- Block 0 of the output stands after the later blocks have run. -/
theorem CbcRun.blocks_first {f : Nat → Nat → CbcRun → CbcRun} (hf : CbcRun.WritesBlock f) (n a b : Nat) (x : CbcRun) :
    (CbcRun.blocks f n (a + 8) (b + 8) x).mem.readBlock b = x.mem.readBlock b :=
  Memory.readBlock_congr fun j hj => CbcRun.blocks_outside hf n _ _ _ (by omega)

/-- Output block `i` of `CBC_ENC`: the transform of input block `i` exclusive-ored with the chain value, which is the
register at the start and the output block before after that; the register ends as the last output block. -/
theorem CbcRun.encBlocks_spec (c : CipherState) (n a b : Nat) (x : CbcRun) (hr : Ranges a b (8 * n)) :
    (∀ i < n, (CbcRun.blocks (CbcRun.encStep c) n a b x).mem.readBlock (b + 8 * i) =
      c.encBlock (Block.xor (x.mem.readBlock (a + 8 * i))
        (if i = 0 then x.v else (CbcRun.blocks (CbcRun.encStep c) n a b x).mem.readBlock (b + 8 * (i - 1))))) ∧
    (CbcRun.blocks (CbcRun.encStep c) n a b x).v =
      if n = 0 then x.v else (CbcRun.blocks (CbcRun.encStep c) n a b x).mem.readBlock (b + 8 * (n - 1)) := by
  induction n generalizing a b x with
  | zero => exact ⟨fun i hi => by omega, rfl⟩
  | succ n ih =>
    have hfirst := CbcRun.blocks_first (CbcRun.encStep_writes c) n a b (CbcRun.encStep c a b x)
    obtain ⟨hblk, hv⟩ := ih (a + 8) (b + 8) (CbcRun.encStep c a b x) hr.tail
    rw [CbcRun.blocks]
    generalize hz : CbcRun.blocks (CbcRun.encStep c) n (a + 8) (b + 8) (CbcRun.encStep c a b x) = z at *
    have h0 : z.mem.readBlock b = (CbcRun.encStep c a b x).v := by
      rw [hfirst]; exact Memory.readBlock_writeBlock_self _ _ _
    refine ⟨fun i hi => ?_, ?_⟩
    · cases i with
      | zero => simpa [CbcRun.encStep] using h0
      | succ i =>
        have h := hblk i (by omega)
        have hin : (CbcRun.encStep c a b x).mem.readBlock (a + 8 + 8 * i) = x.mem.readBlock (a + 8 + 8 * i) :=
          hr.readBlock_later x.mem _ (by omega)
        rw [hin] at h
        rw [show b + 8 * (i + 1) = b + 8 + 8 * i by omega, show a + 8 * (i + 1) = a + 8 + 8 * i by omega, h,
          if_neg (by omega : ¬ i + 1 = 0)]
        congr 2
        cases i with
        | zero => simpa using h0.symm
        | succ i => rw [if_neg (by omega)]; congr 1; omega
    · rw [if_neg (by omega), hv]
      cases n with
      | zero => simpa using h0.symm
      | succ n => rw [if_neg (by omega)]; congr 1; omega

/-- Output block `i` of `CBC_DEC`: the inverse transform of input block `i` exclusive-ored with the chain value, which is
the register at the start and the input block before after that; the register ends as the last input block. -/
theorem CbcRun.decBlocks_spec (c : CipherState) (n a b : Nat) (x : CbcRun) (hr : Ranges a b (8 * n)) :
    (∀ i < n, (CbcRun.blocks (CbcRun.decStep c) n a b x).mem.readBlock (b + 8 * i) =
      Block.xor (c.decBlock (x.mem.readBlock (a + 8 * i)))
        (if i = 0 then x.v else x.mem.readBlock (a + 8 * (i - 1)))) ∧
    (CbcRun.blocks (CbcRun.decStep c) n a b x).v = if n = 0 then x.v else x.mem.readBlock (a + 8 * (n - 1)) := by
  induction n generalizing a b x with
  | zero => exact ⟨fun i hi => by omega, rfl⟩
  | succ n ih =>
    have hfirst := CbcRun.blocks_first (CbcRun.decStep_writes c) n a b (CbcRun.decStep c a b x)
    obtain ⟨hblk, hv⟩ := ih (a + 8) (b + 8) (CbcRun.decStep c a b x) hr.tail
    have hin : ∀ i < n, (CbcRun.decStep c a b x).mem.readBlock (a + 8 + 8 * i) = x.mem.readBlock (a + 8 + 8 * i) :=
      fun i hi => hr.readBlock_later x.mem _ hi
    have hvx : (CbcRun.decStep c a b x).v = x.mem.readBlock a := rfl
    rw [CbcRun.blocks]
    refine ⟨fun i hi => ?_, ?_⟩
    · cases i with
      | zero =>
        simpa [CbcRun.decStep] using hfirst.trans (Memory.readBlock_writeBlock_self _ _ _)
      | succ i =>
        rw [show b + 8 * (i + 1) = b + 8 + 8 * i by omega, show a + 8 * (i + 1) = a + 8 + 8 * i by omega,
          hblk i (by omega), hin i (by omega), if_neg (by omega : ¬ i + 1 = 0)]
        congr 1
        cases i with
        | zero => simpa using hvx
        | succ i =>
          rw [if_neg (by omega), Nat.add_sub_cancel, Nat.add_sub_cancel, hin i (by omega)]
          congr 1; omega
    · rw [if_neg (by omega), hv]
      cases n with
      | zero => simpa using hvx
      | succ n =>
        rw [if_neg (by omega), Nat.add_sub_cancel, Nat.add_sub_cancel, hin n (by omega)]
        congr 1; omega

end Sys2Proof.Machine
end

