-- ==== Sys2Proof/Laws/CfbStream.lean ====
section
/-! SUPPORT. The three phases of `CfbRun` (spec/45_cfb.md rule R136) are one byte stream (rule R135): whatever `BYTESLEFT` is
on entry, the run leaves the output bytes and the register pair that feeding the input bytes one by one leaves. -/

namespace Sys2Proof.Machine

open Sys2Proof

/-- After the first byte the rest of the ranges still are the same or apart. -/
theorem Ranges.tailByte {a b n : Nat} (h : Ranges a b (n + 1)) : Ranges (a + 1) (b + 1) n := by
  unfold Ranges at *
  omega

theorem Ranges.drop {a b n k : Nat} (h : Ranges a b (n + k)) : Ranges (a + n) (b + n) k := by
  unfold Ranges at *
  omega

theorem Ranges.take {a b n k : Nat} (h : Ranges a b (n + k)) : Ranges a b n := by
  unfold Ranges at *
  omega

/-- Writing byte 0 of the output leaves the later input bytes alone. -/
theorem Ranges.read_later {a b n : Nat} (h : Ranges a b (n + 1)) (m : Memory) (x : Byte) :
    (m.writeByte b x).read (a + 1) n = m.read (a + 1) n := by
  apply List.map_congr_left
  intro i hi
  have := List.mem_range.mp hi
  rw [Memory.readByte_writeByte, if_neg]
  unfold Ranges at h
  omega

theorem Memory.read_succ (m : Memory) (a n : Nat) : m.read a (n + 1) = m.readByte a :: m.read (a + 1) n := by
  simp only [Memory.read, List.range_succ_eq_map, List.map_cons, List.map_map, Nat.add_zero]
  congr 1
  apply List.map_congr_left
  intro i _
  simp only [Function.comp_apply]
  congr 1
  omega

theorem Memory.read_add (m : Memory) (a n k : Nat) : m.read a (n + k) = m.read a n ++ m.read (a + n) k := by
  induction n generalizing a with
  | zero => simp [Memory.read]
  | succ n ih =>
    rw [Nat.succ_add, Memory.read_succ, Memory.read_succ, ih, List.cons_append, Nat.add_right_comm, Nat.add_assoc]

/-! ### The stream over memory -/

/-- The byte stream run over memory, one byte after the other. -/
def CfbRegister.run (c : CipherState) (dec : Bool) : Nat → Nat → Nat → CfbRegister → Memory → CfbRegister × Memory
  | 0, _, _, q, m => (q, m)
  | n + 1, a, b, q, m =>
    CfbRegister.run c dec n (a + 1) (b + 1) (q.next c dec (m.readByte a)) (m.writeByte b (q.output c (m.readByte a)))

theorem CfbRegister.run_add (c : CipherState) (dec : Bool) (n k a b : Nat) (q : CfbRegister) (m : Memory) :
    q.run c dec (n + k) a b m = (q.run c dec n a b m).1.run c dec k (a + n) (b + n) (q.run c dec n a b m).2 := by
  induction n generalizing a b q m with
  | zero => simp [run]
  | succ n ih =>
    rw [Nat.succ_add, run, run, ih]
    congr 1 <;> omega

/-- Over ranges that do not overlap partially the run is the pure stream of the input bytes. -/
theorem CfbRegister.run_eq (c : CipherState) (dec : Bool) (n a b : Nat) (q : CfbRegister) (m : Memory)
    (hr : Ranges a b n) :
    q.run c dec n a b m = (q.after c dec (m.read a n), m.write b (q.stream c dec (m.read a n))) := by
  induction n generalizing a b q m with
  | zero => simp [run, Memory.read, after, stream, Memory.write]
  | succ n ih =>
    rw [run, ih _ _ _ _ hr.tailByte, hr.read_later, Memory.read_succ]
    rfl

@[simp] theorem CfbRegister.stream_length (c : CipherState) (dec : Bool) (q : CfbRegister) (is : List Byte) :
    (q.stream c dec is).length = is.length := by
  induction is generalizing q with
  | nil => rfl
  | cons i is ih => simp [stream, ih]

theorem CfbRegister.stream_append (c : CipherState) (dec : Bool) (q : CfbRegister) (xs ys : List Byte) :
    q.stream c dec (xs ++ ys) = q.stream c dec xs ++ (q.after c dec xs).stream c dec ys := by
  induction xs generalizing q with
  | nil => rfl
  | cons x xs ih => simp [stream, ih, after]

theorem CfbRegister.after_append (c : CipherState) (dec : Bool) (q : CfbRegister) (xs ys : List Byte) :
    q.after c dec (xs ++ ys) = (q.after c dec xs).after c dec ys := by
  simp [after]

theorem Memory.write_append (m : Memory) (k : Nat) (xs ys : List Byte) :
    m.write k (xs ++ ys) = (m.write k xs).write (k + xs.length) ys := by
  induction xs generalizing m k with
  | nil => rfl
  | cons x xs ih =>
    rw [List.cons_append, Memory.write, Memory.write, ih, List.length_cons, Nat.add_right_comm, Nat.add_assoc]

/-- The count of unused bytes after one byte: it counts down, and from 0 a fresh block leaves 7. -/
theorem CfbRegister.next_left (c : CipherState) (dec : Bool) (q : CfbRegister) (i : Byte) :
    (q.next c dec i).left = if q.left = 0 then 7 else q.left - 1 := by
  simp only [next, ready]
  split <;> simp_all

/-- The count of unused bytes after a stream of `n` bytes, from a count of at most 7. -/
theorem CfbRegister.after_left (c : CipherState) (dec : Bool) (q : CfbRegister) (is : List Byte) (h : q.left ≤ 7) :
    (q.after c dec is).left = (q.left + 7 * is.length) % 8 := by
  induction is generalizing q with
  | nil => simp [after]; omega
  | cons i is ih =>
    have hn := q.next_left c dec i
    have := ih (q.next c dec i) (by rw [hn]; split <;> omega)
    rw [show q.after c dec (i :: is) = (q.next c dec i).after c dec is from rfl, this, hn, List.length_cons]
    split <;> omega

theorem CfbRegister.after_left_le (c : CipherState) (dec : Bool) (q : CfbRegister) (is : List Byte) (h : q.left ≤ 8) :
    (q.after c dec is).left ≤ 8 := by
  induction is generalizing q with
  | nil => exact h
  | cons i is ih =>
    refine ih (q.next c dec i) ?_
    rw [q.next_left c dec i]
    split <;> omega

/-! ### The phases -/

/-- The head and tail phases are the stream from a register with `8 - j` bytes left. -/
theorem CfbRun.bytes_eq_run (c : CipherState) (dec : Bool) (n j a b : Nat) (x : CfbRun) (h : j + n ≤ 8) :
    CfbRegister.run c dec n a b ⟨x.r, 8 - j⟩ x.mem =
      (⟨(CfbRun.bytes dec n j a b x).r, 8 - (j + n)⟩, (CfbRun.bytes dec n j a b x).mem) := by
  induction n generalizing j a b x with
  | zero => rfl
  | succ n ih =>
    have hready : (CfbRegister.mk x.r (8 - j)).ready c = ⟨x.r, 8 - j⟩ := by
      simp [CfbRegister.ready]; omega
    rw [CfbRegister.run, CfbRun.bytes, CfbRegister.next, CfbRegister.output, hready, Nat.sub_sub_self (by omega),
      Nat.sub_sub]
    have := ih (j + 1) (a + 1) (b + 1)
      ⟨Block.setByte x.r j (if dec then x.mem.readByte a else x.mem.readByte a ^^^ Block.byteAt x.r j),
        x.mem.writeByte b (x.mem.readByte a ^^^ Block.byteAt x.r j)⟩ (by omega)
    rw [this]
    simp only [Nat.add_assoc, Nat.add_comm 1 n]

/-- With nothing left, a stream of at least one byte is a stream on the fresh keystream block. -/
theorem CfbRegister.run_fresh (c : CipherState) (dec : Bool) (n a b : Nat) (r : Block) (m : Memory) (h : 0 < n) :
    CfbRegister.run c dec n a b ⟨r, 0⟩ m = CfbRegister.run c dec n a b ⟨c.encBlock r, 8⟩ m := by
  obtain ⟨n, rfl⟩ : ∃ k, n = k + 1 := ⟨n - 1, by omega⟩
  simp [CfbRegister.run, CfbRegister.next, CfbRegister.output, CfbRegister.ready]

/-- What `n` bytes of the head or tail phase leave: the output bytes, and each used register byte replaced. -/
theorem CfbRun.bytes_spec (dec : Bool) (n j a b : Nat) (x : CfbRun) (hj : j + n ≤ 8) (hr : Ranges a b n) :
    (CfbRun.bytes dec n j a b x).mem =
      x.mem.write b ((List.range n).map fun i => x.mem.readByte (a + i) ^^^ Block.byteAt x.r (j + i)) ∧
    ∀ p < 8, Block.byteAt (CfbRun.bytes dec n j a b x).r p =
      if j ≤ p ∧ p < j + n then
        (if dec then x.mem.readByte (a + (p - j)) else x.mem.readByte (a + (p - j)) ^^^ Block.byteAt x.r p)
      else Block.byteAt x.r p := by
  induction n generalizing j a b x with
  | zero => exact ⟨rfl, fun p _ => by rw [if_neg (by omega)]; rfl⟩
  | succ n ih =>
    rw [CfbRun.bytes]
    obtain ⟨hm, hreg⟩ := ih (j + 1) (a + 1) (b + 1)
      ⟨Block.setByte x.r j (if dec then x.mem.readByte a else x.mem.readByte a ^^^ Block.byteAt x.r j),
        x.mem.writeByte b (x.mem.readByte a ^^^ Block.byteAt x.r j)⟩ (by omega) hr.tailByte
    have hin : ∀ i < n, (x.mem.writeByte b (x.mem.readByte a ^^^ Block.byteAt x.r j)).readByte (a + 1 + i) =
        x.mem.readByte (a + 1 + i) := by
      intro i hi
      rw [Memory.readByte_writeByte, if_neg]
      unfold Ranges at hr
      omega
    refine ⟨?_, fun p hp => ?_⟩
    · rw [hm, List.range_succ_eq_map, List.map_cons, List.map_map, Memory.write]
      congr 1
      apply List.map_congr_left
      intro i hi
      have hi := List.mem_range.mp hi
      simp only [Function.comp_apply]
      rw [hin i hi, Block.byteAt_setByte _ _ _ (by omega), if_neg (by omega), Nat.add_assoc a, Nat.add_comm 1 i,
        Nat.add_assoc j, Nat.add_comm 1 i]
    · rw [hreg p hp, Block.byteAt_setByte _ _ _ hp]
      by_cases h1 : j + 1 ≤ p ∧ p < j + 1 + n
      · have hA : j ≤ p ∧ p < j + (n + 1) := by omega
        have hB : ¬ j = p := by omega
        simp only [if_pos h1, if_pos hA, if_neg hB]
        rw [hin _ (by omega), show a + 1 + (p - (j + 1)) = a + (p - j) by omega]
      · rw [if_neg h1]
        by_cases h2 : j = p
        · subst h2
          have hA : j ≤ j ∧ j < j + (n + 1) := by omega
          simp only [if_pos hA, Nat.sub_self, Nat.add_zero, if_true]
        · have hA : ¬ (j ≤ p ∧ p < j + (n + 1)) := by omega
          simp only [if_neg h2, if_neg hA]

/-- Eight bytes on a fresh keystream block are one full group. -/
theorem CfbRun.bytes_eight (dec : Bool) (a b : Nat) (k : Block) (m : Memory) (hr : Ranges a b 8) :
    CfbRun.bytes dec 8 0 a b ⟨k, m⟩ =
      ⟨if dec then m.readBlock a else Block.xor (m.readBlock a) k, m.writeBlock b (Block.xor (m.readBlock a) k)⟩ := by
  obtain ⟨hm, hreg⟩ := CfbRun.bytes_spec dec 8 0 a b ⟨k, m⟩ (by omega) hr
  generalize CfbRun.bytes dec 8 0 a b ⟨k, m⟩ = z at hm hreg
  obtain ⟨zr, zm⟩ := z
  simp only at hm hreg
  congr 1
  · apply Block.ext8
    intro p hp
    have := hreg p hp
    rw [Block.byteAt_eq _ hp, Block.byteAt_eq _ hp, if_pos (by omega), Nat.sub_zero] at this
    rw [this]
    cases dec <;> simp
  · rw [hm, Memory.writeBlock]
    congr 1
    apply List.ext_getElem (by simp)
    intro i h1 h2
    have hi : i < 8 := by simpa using h1
    simp [Block.byteAt_eq _ hi]

theorem CfbRun.groups_eq_run (c : CipherState) (dec : Bool) (g a b : Nat) (x : CfbRun) (hr : Ranges a b (8 * g)) :
    CfbRegister.run c dec (8 * g) a b ⟨x.r, 0⟩ x.mem =
      (⟨(CfbRun.groups c dec g a b x).r, 0⟩, (CfbRun.groups c dec g a b x).mem) := by
  induction g generalizing a b x with
  | zero => rfl
  | succ g ih =>
    rw [show 8 * (g + 1) = 8 + 8 * g by omega] at hr ⊢
    rw [CfbRegister.run_add, CfbRegister.run_fresh _ _ _ _ _ _ _ (by omega)]
    have h8 := CfbRun.bytes_eq_run c dec 8 0 a b ⟨c.encBlock x.r, x.mem⟩ (by omega)
    rw [CfbRun.bytes_eight _ _ _ _ _ hr.take] at h8
    simp only [Nat.sub_zero, Nat.zero_add, Nat.sub_self] at h8
    rw [h8, CfbRun.groups]
    exact ih (a + 8) (b + 8) ⟨_, _⟩ hr.drop

/-- `CfbRun` is the byte stream. -/
theorem State.cfbRun_eq_run (s : State) (dec : Bool) (a b len : Nat) (hr : Ranges a b len) :
    s.cfbRun dec a b len =
      (s.setCfb (CfbRegister.run s.cipher dec len a b ⟨s.r, s.bytesLeft.val⟩ s.mem).1.r
        (Fin.ofNat 9 (CfbRegister.run s.cipher dec len a b ⟨s.r, s.bytesLeft.val⟩ s.mem).1.left)).setMem
        (CfbRegister.run s.cipher dec len a b ⟨s.r, s.bytesLeft.val⟩ s.mem).2 := by
  have hn : s.bytesLeft.val ≤ 8 := by omega
  generalize hk : min s.bytesLeft.val len = k
  have hlen : len = k + (8 * ((len - k) / 8) + (len - k) % 8) := by omega
  have hhead := CfbRun.bytes_eq_run s.cipher dec k (8 - s.bytesLeft.val) a b ⟨s.r, s.mem⟩ (by omega)
  rw [Nat.sub_sub_self hn] at hhead
  rw [State.cfbRun, hk]
  simp only
  generalize CfbRun.bytes dec k (8 - s.bytesLeft.val) a b ⟨s.r, s.mem⟩ = head at hhead ⊢
  generalize hg : (len - k) / 8 = g at hlen ⊢
  generalize ht : (len - k) % 8 = t at hlen ⊢
  have hr' : Ranges a b (k + (8 * g + t)) := hlen ▸ hr
  by_cases hle : len ≤ s.bytesLeft.val
  · obtain rfl : g = 0 := by omega
    obtain rfl : t = 0 := by omega
    rw [if_pos rfl, hlen, Nat.mul_zero, Nat.add_zero]
    simp only [CfbRun.groups]
    rw [hhead]
    simp only
    rw [show 8 - (8 - s.bytesLeft.val + k) = s.bytesLeft.val - k by omega]
  · obtain rfl : k = s.bytesLeft.val := by omega
    have hfull := CfbRun.groups_eq_run s.cipher dec g (a + s.bytesLeft.val) (b + s.bytesLeft.val) head hr'.drop.take
    rw [show 8 - (8 - s.bytesLeft.val + s.bytesLeft.val) = 0 by omega] at hhead
    rw [hlen, CfbRegister.run_add, hhead, CfbRegister.run_add]
    simp only
    rw [hfull]
    generalize CfbRun.groups s.cipher dec g (a + s.bytesLeft.val) (b + s.bytesLeft.val) head = full
    simp only
    split
    · rename_i h0
      subst h0
      rw [Nat.sub_self]
      rfl
    · rename_i h0
      have htail := CfbRun.bytes_eq_run s.cipher dec t 0 (a + s.bytesLeft.val + 8 * g) (b + s.bytesLeft.val + 8 * g)
        ⟨s.cipher.encBlock full.r, full.mem⟩ (by omega)
      rw [Nat.sub_zero, Nat.zero_add] at htail
      rw [CfbRegister.run_fresh _ _ _ _ _ _ _ (by omega), htail]

/-- `CfbRun` leaves the output bytes and the register pair of the pure stream of its input bytes. -/
theorem State.cfbRun_eq (s : State) (dec : Bool) (a b len : Nat) (hr : Ranges a b len) :
    s.cfbRun dec a b len =
      (s.setCfb (CfbRegister.after s.cipher dec ⟨s.r, s.bytesLeft.val⟩ (s.mem.read a len)).r
        (Fin.ofNat 9 (CfbRegister.after s.cipher dec ⟨s.r, s.bytesLeft.val⟩ (s.mem.read a len)).left)).setMem
        (s.mem.write b (CfbRegister.stream s.cipher dec ⟨s.r, s.bytesLeft.val⟩ (s.mem.read a len))) := by
  rw [s.cfbRun_eq_run dec a b len hr, CfbRegister.run_eq _ _ _ _ _ _ _ hr]

end Sys2Proof.Machine
end

