-- ==== Sys2Proof/Laws/Decode.lean ====
section
/-! SUPPORT. The descriptor and its fields: the fields of a descriptor built from fields are those fields, and a descriptor
is built from its own fields. -/

namespace Sys2Proof.Fields

/-- A bit of a descriptor read through the slice it lies in. -/
theorem getLsbD_slice (d : Descriptor) {i k n : Nat} (h1 : k ≤ i) (h2 : i < k + n) :
    (decide (i - k < n) && d.getLsbD (k + (i - k))) = d.getLsbD i := by
  rw [Nat.add_sub_cancel' h1, decide_eq_true (by omega), Bool.true_and]

theorem ofDescriptor_toDescriptor (f : Fields) : Fields.ofDescriptor f.toDescriptor = f := by
  obtain ⟨op, abuf, bbuf, reserved, aoff, boff, len, imm64⟩ := f
  simp only [ofDescriptor, toDescriptor, Fields.mk.injEq]
  refine ⟨?_, ?_, ?_, ?_, ?_, ?_, ?_, ?_⟩
  all_goals
    apply BitVec.eq_of_getLsbD_eq
    intro i hi
    simp only [BitVec.getLsbD_append, BitVec.getLsbD_extractLsb', hi, decide_true, Bool.true_and]
    split_ifs <;> first | omega | (refine congrArg _ ?_; omega)

theorem toDescriptor_ofDescriptor (d : Descriptor) : (Fields.ofDescriptor d).toDescriptor = d := by
  apply BitVec.eq_of_getLsbD_eq
  intro i hi
  simp only [ofDescriptor, toDescriptor, BitVec.getLsbD_append, BitVec.getLsbD_extractLsb']
  simp only [Nat.reduceAdd]
  split_ifs
  · simpa using getLsbD_slice d (k := 0) (n := 8) (Nat.zero_le i) (by omega)
  all_goals exact getLsbD_slice d (by omega) (by omega)

/-- A mask on a descriptor acts field by field. -/
theorem toDescriptor_and (f g : Fields) :
    f.toDescriptor &&& g.toDescriptor =
      (Fields.mk (f.op &&& g.op) (f.abuf &&& g.abuf) (f.bbuf &&& g.bbuf) (f.reserved &&& g.reserved) (f.aoff &&& g.aoff)
        (f.boff &&& g.boff) (f.len &&& g.len) (f.imm64 &&& g.imm64)).toDescriptor := by
  apply BitVec.eq_of_getLsbD_eq
  intro i hi
  simp only [toDescriptor, BitVec.getLsbD_and, BitVec.getLsbD_append]
  split_ifs <;> rfl

end Sys2Proof.Fields
end

