-- ==== Sys2Proof/Laws/Exec.lean ====
section
/-! SUPPORT. What the shared shapes of the commands can answer, each said once: a construction, a register command with a
window, a step. -/

namespace Sys2Proof.Machine

open Sys2Proof

@[simp] theorem State.respond_eq (s : State) (v : Quad) : s.respond v = .next (s.setResponse ⟨.ok, v⟩) := rfl

@[simp] theorem State.raise_eq (s : State) (e : Status) : s.raise e = .next (s.setResponse ⟨e, 0⟩) := rfl

/-! ### Constructions -/

theorem State.initCommon_of_checks {s : State} {mode : Mode} {key : Addr} {len : Nat} {iv : Option Addr}
    (load : State → State) (h : s.initChecks key len iv = none) :
    s.initCommon mode key len iv load = .next ((load (s.construct mode key len)).setResponse ⟨.ok, 0⟩) := by
  rw [State.initCommon, h]; rfl

theorem State.initCommon_of_error {s : State} {mode : Mode} {key : Addr} {len : Nat} {iv : Option Addr} {e : Status}
    (load : State → State) (h : s.initChecks key len iv = some e) :
    s.initCommon mode key len iv load = .next (s.setResponse ⟨e, 0⟩) := by
  rw [State.initCommon, h]; rfl

theorem State.initCommon_cases {s t : State} {mode : Mode} {key : Addr} {len : Nat} {iv : Option Addr}
    {load : State → State} (h : s.initCommon mode key len iv load = .next t) :
    (∃ e, s.initChecks key len iv = some e ∧ t = s.setResponse ⟨e, 0⟩) ∨
    (s.initChecks key len iv = none ∧ t = (load (s.construct mode key len)).setResponse ⟨.ok, 0⟩) := by
  cases hc : s.initChecks key len iv with
  | some e =>
    rw [State.initCommon_of_error load hc] at h
    exact .inl ⟨e, rfl, by injection h with h; exact h.symm⟩
  | none =>
    rw [State.initCommon_of_checks load hc] at h
    exact .inr ⟨rfl, by injection h with h; exact h.symm⟩

/-! ### The step -/

theorem step_idle {s : State} (h : s.inbox = []) : step s = .next s := by
  rw [step, h]

theorem step_action {s : State} {a : HostAction} {q : List HostAction} (h : s.inbox = a :: q) :
    step s = act a (s.setInbox q) := by
  rw [step, h]

/-- What a step that goes on has done: nothing, or the host's first action on the state without it. -/
theorem step_cases {s t : State} (h : step s = .next t) :
    (s.inbox = [] ∧ t = s) ∨ ∃ a q, s.inbox = a :: q ∧ act a (s.setInbox q) = .next t := by
  cases hq : s.inbox with
  | nil => rw [step_idle hq] at h; exact .inl ⟨rfl, by injection h with h; exact h.symm⟩
  | cons a q => rw [step_action hq] at h; exact .inr ⟨a, q, rfl, h⟩

/-! ### Reset -/

/-- After a reset the block is as launched, and the host's side is as it was. -/
theorem hostReset_eq (s : State) :
    hostReset s = { State.launch s.bufSize s.mem s.freeCount with inbox := s.inbox } := rfl

@[simp] theorem hostReset_mem (s : State) : (hostReset s).mem = s.mem := rfl

@[simp] theorem hostReset_freeCount (s : State) : (hostReset s).freeCount = s.freeCount := rfl

@[simp] theorem freeBytes_length (c n : Nat) : (freeBytes c n).length = n := by simp [freeBytes]

/-- A freed window: any value in its bytes, every other byte as before. -/
theorem State.freeWindow_readByte (s : State) (w : Addr) (n k : Nat) :
    (s.freeWindow w n).mem.readByte k =
      if w.cell ≤ k ∧ k < w.cell + s.present w n then Config.freeByte (s.freeCount + (k - w.cell))
      else s.mem.readByte k := by
  change Memory.readByte (Memory.write s.mem w.cell (freeBytes s.freeCount (s.present w n))) k = _
  rw [Memory.readByte_write]
  simp only [freeBytes_length]
  split
  · rename_i h
    rw [List.getD_eq_getElem _ _ (by rw [freeBytes_length]; omega)]
    simp [freeBytes]
  · rfl

theorem State.freeWindow_wf {s : State} (h : s.mem.wf = true) (w : Addr) (n : Nat) :
    (s.freeWindow w n).mem.wf = true := Memory.write_wf _ h _ _

theorem State.cutOff_of_none {s : State} {i : Instr} (h : writeWindow i = none) : s.cutOff i = s := by
  rw [State.cutOff, h]

theorem State.cutOff_of_window {s : State} {i : Instr} {w : Addr} {n : Nat} (h : writeWindow i = some (w, n)) :
    s.cutOff i = s.freeWindow w n := by
  rw [State.cutOff, h]

/-- The host's side of a state whose command has been cut off. -/
theorem State.cutOff_host (s : State) (i : Instr) :
    (s.cutOff i).bufSize = s.bufSize ∧ (s.cutOff i).inbox = s.inbox ∧ s.freeCount ≤ (s.cutOff i).freeCount := by
  rw [State.cutOff]
  split
  · exact ⟨rfl, rfl, Nat.le_refl _⟩
  · exact ⟨rfl, rfl, Nat.le_add_right _ _⟩

theorem hostResetDuring_of_error {d : Descriptor} {s : State} {e : DecodeError} (hd : decode d = .error e) :
    hostResetDuring d s = .next (hostReset s) := by
  rw [hostResetDuring, hd]

theorem hostResetDuring_of_next {d : Descriptor} {s u : State} {i : Instr} (hd : decode d = .ok i)
    (he : exec i s = .next u) : hostResetDuring d s = .next (hostReset (s.cutOff i)) := by
  simp only [hostResetDuring, hd, he]

theorem hostResetDuring_of_refused {d : Descriptor} {s : State} {i : Instr} {r : Refusal} (hd : decode d = .ok i)
    (he : exec i s = .refused r) : hostResetDuring d s = .refused r := by
  simp only [hostResetDuring, hd, he]

/-- What a reset with a command in flight that goes on has done. -/
theorem hostResetDuring_cases {d : Descriptor} {s t : State} (h : hostResetDuring d s = .next t) :
    (∃ e, decode d = .error e ∧ t = hostReset s) ∨
    (∃ i u, decode d = .ok i ∧ exec i s = .next u ∧ t = hostReset (s.cutOff i)) := by
  rw [hostResetDuring] at h
  cases hd : decode d with
  | error e => rw [hd] at h; exact .inl ⟨e, rfl, by injection h with h; exact h.symm⟩
  | ok i =>
    rw [hd] at h
    cases he : exec i s with
    | next u => simp only [he] at h; exact .inr ⟨i, u, rfl, he, by injection h with h; exact h.symm⟩
    | fault f => simp only [he] at h; cases h
    | refused r => simp only [he] at h; cases h

/-- What an action that goes on has done: run the command it decodes to, answered an unknown code, written host bytes, or
reset the block, with or without a command in flight. -/
theorem act_cases {a : HostAction} {s t : State} (h : act a s = .next t) :
    (∃ d i, a = .command d ∧ decode d = .ok i ∧ exec i s = .next t) ∨
    (∃ d e, a = .command d ∧ decode d = .error e ∧ t = s.setResponse ⟨.illegalCommand, 0⟩) ∨
    (∃ w xs, a = .writeBuffer w xs ∧ s.inBounds w xs.length = true ∧ t = s.setMem (s.mem.write w.cell xs)) ∨
    (a = .reset ∧ t = hostReset s) ∨
    (∃ d, a = .resetDuring d ∧ hostResetDuring d s = .next t) := by
  cases a with
  | command d =>
    rw [act] at h
    cases hd : decode d with
    | ok i => rw [hd] at h; exact .inl ⟨d, i, rfl, hd, h⟩
    | error e => rw [hd] at h; exact .inr (.inl ⟨d, e, rfl, hd, by injection h with h; exact h.symm⟩)
  | writeBuffer w xs =>
    rw [act, hostWrite] at h
    split at h
    · rename_i hb
      exact .inr (.inr (.inl ⟨w, xs, rfl, hb, by injection h with h; exact h.symm⟩))
    · cases h
  | reset =>
    rw [act] at h
    exact .inr (.inr (.inr (.inl ⟨rfl, by injection h with h; exact h.symm⟩)))
  | resetDuring d => exact .inr (.inr (.inr (.inr ⟨d, rfl, h⟩)))

end Sys2Proof.Machine
end

