-- ==== Sys2Proof/Laws/KeySchedule.lean ====
section
/-! SUPPORT. The key schedule's step 3 as one sequence of 521 derivation steps (spec/40_keyschedule.md rule R73), and what
each step does to the 1042 words of a CipherState. -/

namespace Sys2Proof.Machine

open Sys2Proof

/-- Derivation step `n` of the 521: into the P-box for `n < 9`, then into the S-boxes, 128 steps each. -/
def Derivation.stepAt (d : Derivation) (n : Nat) : Derivation :=
  if h : n < 9 then d.intoP ⟨n, h⟩
  else if h : n < 521 then d.intoS ⟨(n - 9) / 128, by omega⟩ ⟨(n - 9) % 128, by omega⟩
  else d

theorem Derivation.stepAt_p (d : Derivation) (j : Fin 9) : d.stepAt j.val = d.intoP j := by
  simp [stepAt, j.isLt]

theorem Derivation.stepAt_s (d : Derivation) (k : Fin 4) (j : Fin 128) :
    d.stepAt (9 + 128 * k.val + j.val) = d.intoS k j := by
  obtain ⟨k, hk⟩ := k
  obtain ⟨j, hj⟩ := j
  have h1 : ¬ 9 + 128 * k + j < 9 := by omega
  have h2 : 9 + 128 * k + j < 521 := by omega
  have h3 : (9 + 128 * k + j - 9) / 128 = k := by omega
  have h4 : (9 + 128 * k + j - 9) % 128 = j := by omega
  simp only [stepAt, h1, h2, h3, h4, dite_true, dite_false]

/-- A fold over the numbers `o, o+1, ..., o+n-1` is the fold over `Fin n` shifted by `o`. -/
theorem foldl_range'_eq_finRange {α : Type} (f : α → Nat → α) (o n : Nat) (x : α) :
    (List.range' o n).foldl f x = (List.finRange n).foldl (fun y (j : Fin n) => f y (o + j.val)) x := by
  rw [List.range'_eq_map_range, ← List.map_coe_finRange_eq_range, List.map_map, List.foldl_map]
  rfl

/-- Step 3 is the 521 derivation steps in order. -/
theorem CipherState.derive_eq (c : CipherState) :
    c.derive = ((List.range' 0 521).foldl Derivation.stepAt ⟨⟨0, 0⟩, c⟩).cipher := by
  have hs : ∀ (k : Fin 4) (d : Derivation),
      (List.range' (9 + 128 * k.val) 128).foldl Derivation.stepAt d = d.sbox k := fun k d => by
    simp only [foldl_range'_eq_finRange, Derivation.stepAt_s]
    rfl
  have hp : ∀ d : Derivation,
      (List.range' 0 9).foldl Derivation.stepAt d = (List.finRange 9).foldl Derivation.intoP d := fun d => by
    simp only [foldl_range'_eq_finRange, Nat.zero_add, Derivation.stepAt_p]
  have hsplit : List.range' 0 521 =
      List.range' 0 9 ++ (List.range' 9 128 ++ (List.range' 137 128 ++ (List.range' 265 128 ++ List.range' 393 128))) := by
    decide +kernel
  have h0 : ∀ d, (List.range' 9 128).foldl Derivation.stepAt d = d.sbox 0 := hs 0
  have h1 : ∀ d, (List.range' 137 128).foldl Derivation.stepAt d = d.sbox 1 := hs 1
  have h2 : ∀ d, (List.range' 265 128).foldl Derivation.stepAt d = d.sbox 2 := hs 2
  have h3 : ∀ d, (List.range' 393 128).foldl Derivation.stepAt d = d.sbox 3 := hs 3
  rw [hsplit]
  have h4 : List.finRange 4 = [0, 1, 2, 3] := by decide
  simp only [List.foldl_append, hp, h0, h1, h2, h3, CipherState.derive, h4, List.foldl_cons, List.foldl_nil]

/-- The words of a CipherState determine it. -/
theorem CipherState.ext_words {c d : CipherState} (hp : ∀ i, c.pAt i = d.pAt i) (hs : ∀ k i, c.sAt k i = d.sAt k i) :
    c = d := by
  obtain ⟨cp, cs⟩ := c
  obtain ⟨dp, ds⟩ := d
  have h1 : cp = dp := Vector.ext fun i hi => hp ⟨i, hi⟩
  have h2 : cs = ds := Vector.ext fun k hk => Vector.ext fun i hi => hs ⟨k, hk⟩ ⟨i, hi⟩
  rw [h1, h2]

/-! ### Writes to the boxes -/

@[simp] theorem CipherState.pAt_setP (c : CipherState) (i j : Fin 18) (x : Word) :
    (c.setP i x).pAt j = if i = j then x else c.pAt j := by
  simp [CipherState.pAt, CipherState.setP, Vector.getElem_set, Fin.ext_iff]

@[simp] theorem CipherState.sAt_setP (c : CipherState) (i : Fin 18) (x : Word) (k : Fin 4) (j : Fin 256) :
    (c.setP i x).sAt k j = c.sAt k j := rfl

@[simp] theorem CipherState.pAt_setS (c : CipherState) (k : Fin 4) (i : Fin 256) (x : Word) (j : Fin 18) :
    (c.setS k i x).pAt j = c.pAt j := rfl

@[simp] theorem CipherState.sAt_setS (c : CipherState) (k : Fin 4) (i : Fin 256) (x : Word) (l : Fin 4) (j : Fin 256) :
    (c.setS k i x).sAt l j = if k = l ∧ i = j then x else c.sAt l j := by
  simp only [CipherState.sAt, CipherState.setS, Fin.getElem_fin, Vector.getElem_set, Fin.ext_iff]
  by_cases h : k.val = l.val
  · have hkl : k = l := Fin.ext h
    subst hkl
    simp [Vector.getElem_set]
  · simp [h]

/-! ### What a derivation step does -/

/-- The working block after step `n` is the encryption of the one before under the CipherState before. -/
theorem Derivation.stepAt_block (d : Derivation) {n : Nat} (h : n < 521) :
    (d.stepAt n).block = d.cipher.bfEnc d.block := by
  unfold stepAt
  split_ifs <;> rfl

/-- Step `n` writes words `2n` and `2n+1` with the halves of its result and no other word. -/
theorem Derivation.stepAt_word (d : Derivation) {n : Nat} (h : n < 521) (m : Fin 1042) :
    (d.stepAt n).cipher.word m =
      if m.val = 2 * n then (d.stepAt n).block.hi
      else if m.val = 2 * n + 1 then (d.stepAt n).block.lo else d.cipher.word m := by
  obtain ⟨m, hm⟩ := m
  unfold stepAt
  by_cases h9 : n < 9
  · simp only [h9, dite_true, intoP, CipherState.word]
    by_cases h18 : m < 18
    · simp only [h18, dite_true, CipherState.pAt_setP, Fin.mk.injEq]
      split_ifs <;> first | rfl | omega
    · simp only [h18, dite_false, CipherState.sAt_setP]
      split_ifs <;> first | rfl | omega
  · simp only [h9, h, dite_true, dite_false, intoS, CipherState.word]
    by_cases h18 : m < 18
    · simp only [h18, dite_true, CipherState.pAt_setS]
      split_ifs <;> first | rfl | omega
    · simp only [h18, dite_false, CipherState.sAt_setS, Fin.mk.injEq]
      split_ifs <;> first | rfl | omega

end Sys2Proof.Machine
end

