-- ==== Sys2Proof/Laws/Packed.lean ====
section
/-! SUPPORT. The key schedule and the Engine again, over P-box and S-boxes packed into one number each, in a form Lean's
kernel evaluates fast; and that they are the model's own (`Packed.schedule_eq`, `Packed.enc_eq`, `Packed.dec_eq`). The
machine does not use them: they are for settling facts about a given key by computation. -/

namespace Sys2Proof.Machine

open Sys2Proof

/-- Passes a number on once it has been computed: a match looks at its value. -/
def force {α : Type} (n : Nat) (k : Nat → α) : α :=
  match n with
  | 0 => k 0
  | m + 1 => k (m + 1)

@[simp] theorem force_eq {α : Type} (n : Nat) (k : Nat → α) : force n k = k n := by cases n <;> rfl

/-- Word `i` of a packed box. The operations are named outright here and below, so that the kernel meets them at once. -/
def wordAt (t i : Nat) : Nat := Nat.mod (Nat.shiftRight t (Nat.mul 32 i)) 4294967296

theorem wordAt_def (t i : Nat) : wordAt t i = (t >>> (32 * i)) % 2 ^ 32 := rfl

/-- A packed box with words `2j` and `2j+1` replaced. -/
def setPair (t j hi lo : Nat) : Nat :=
  t ^^^ ((((t >>> (64 * j)) % 2 ^ 64) ^^^ ((lo <<< 32) ^^^ hi)) <<< (64 * j))

theorem testBit_eq_false_of_lt {x n i : Nat} (hx : x < 2 ^ n) (h : n ≤ i) : x.testBit i = false :=
  Nat.testBit_lt_two_pow (Nat.lt_of_lt_of_le hx (Nat.pow_le_pow_right (by omega) h))

theorem wordAt_lt (t i : Nat) : wordAt t i < 2 ^ 32 := by
  rw [wordAt_def]
  exact Nat.mod_lt _ (by decide)

theorem wordAt_setPair (t j hi lo i : Nat) (hh : hi < 2 ^ 32) (hl : lo < 2 ^ 32) :
    wordAt (setPair t j hi lo) i = if i = 2 * j then hi else if i = 2 * j + 1 then lo else wordAt t i := by
  apply Nat.eq_of_testBit_eq
  intro b
  simp only [wordAt_def, setPair, Nat.testBit_mod_two_pow, Nat.testBit_shiftRight, Nat.testBit_xor, Nat.testBit_shiftLeft]
  by_cases hb : b < 32
  · simp only [hb, decide_true, Bool.true_and]
    by_cases h1 : i = 2 * j
    · subst h1
      simp only [if_true, show 64 * j ≤ 32 * (2 * j) + b by omega, show 32 * (2 * j) + b - 64 * j = b by omega,
        show 64 * j + b = 32 * (2 * j) + b by omega, show b < 64 by omega, show ¬ b ≥ 32 by omega, decide_true,
        decide_false, Bool.true_and, Bool.false_and, Bool.false_xor]
      rw [← Bool.xor_assoc, Bool.xor_self, Bool.false_xor]
    · by_cases h2 : i = 2 * j + 1
      · subst h2
        simp only [h1, if_false, if_true, show 64 * j ≤ 32 * (2 * j + 1) + b by omega,
          show 32 * (2 * j + 1) + b - 64 * j = 32 + b by omega, show 64 * j + (32 + b) = 32 * (2 * j + 1) + b by omega,
          show 32 + b < 64 by omega, show 32 ≤ 32 + b by omega, show 32 + b - 32 = b by omega, decide_true,
          Bool.true_and, testBit_eq_false_of_lt hh (show 32 ≤ 32 + b by omega), Bool.xor_false]
        rw [← Bool.xor_assoc, Bool.xor_self, Bool.false_xor]
      · simp only [h1, h2, if_false, Nat.testBit_mod_two_pow, Nat.testBit_shiftRight, hb, decide_true, Bool.true_and]
        by_cases hlow : 64 * j ≤ 32 * i + b
        · have h64 : ¬ 32 * i + b - 64 * j < 64 := by omega
          have e1 : hi.testBit (32 * i + b - 64 * j) = false := testBit_eq_false_of_lt hh (by omega)
          have e2 : lo.testBit (32 * i + b - 64 * j - 32) = false := testBit_eq_false_of_lt hl (by omega)
          simp [h64, e1, e2]
        · simp [hlow]
  · simp only [hb, decide_false, Bool.false_and]
    split_ifs
    · exact (testBit_eq_false_of_lt hh (by omega)).symm
    · exact (testBit_eq_false_of_lt hl (by omega)).symm
    · exact (testBit_eq_false_of_lt (wordAt_lt t i) (by omega)).symm

/-! ### Packed CipherStates -/

/-- A CipherState with every box packed, entry 0 lowest. -/
structure Packed where
  p : Nat
  s1 : Nat
  s2 : Nat
  s3 : Nat
  s4 : Nat
  deriving DecidableEq, Repr

/-- The box with number `k + 1`. -/
def Packed.box (t : Packed) (k : Nat) : Nat :=
  match k with
  | 0 => t.s1
  | 1 => t.s2
  | 2 => t.s3
  | _ => t.s4

/-- The CipherState it stands for. -/
def Packed.cipher (t : Packed) : CipherState where
  p := Vector.ofFn fun i => BitVec.ofNat 32 (wordAt t.p i.val)
  s := Vector.ofFn fun k => Vector.ofFn fun i => BitVec.ofNat 32 (wordAt (t.box k.val) i.val)

theorem Packed.pAt_cipher (t : Packed) (i : Fin 18) : t.cipher.pAt i = BitVec.ofNat 32 (wordAt t.p i.val) := by
  simp [Packed.cipher, CipherState.pAt]

theorem Packed.sAt_cipher (t : Packed) (k : Fin 4) (i : Fin 256) :
    t.cipher.sAt k i = BitVec.ofNat 32 (wordAt (t.box k.val) i.val) := by
  simp [Packed.cipher, CipherState.sAt]

theorem toNat_ofNat_wordAt (t i : Nat) : (BitVec.ofNat 32 (wordAt t i)).toNat = wordAt t i := by
  simpa [BitVec.toNat_ofNat] using Nat.mod_eq_of_lt (wordAt_lt t i)

/-- The round function on numbers (rule R90). -/
def Packed.f (t : Packed) (x : Nat) : Nat :=
  Nat.mod
    (Nat.add
      (Nat.xor
        (Nat.mod (Nat.add (wordAt t.s1 (Nat.div x 16777216)) (wordAt t.s2 (Nat.mod (Nat.div x 65536) 256))) 4294967296)
        (wordAt t.s3 (Nat.mod (Nat.div x 256) 256)))
      (wordAt t.s4 (Nat.mod x 256)))
    4294967296

theorem Packed.f_def (t : Packed) (x : Nat) : t.f x =
    ((((wordAt t.s1 (x / 16777216) + wordAt t.s2 (x / 65536 % 256)) % 4294967296) ^^^ wordAt t.s3 (x / 256 % 256)) +
      wordAt t.s4 (x % 256)) % 4294967296 := rfl

theorem Packed.f_eq (t : Packed) (x : Word) : (t.cipher.f x).toNat = t.f x.toNat := by
  have hx := x.isLt
  have e0 : (byte0 x).toNat = x.toNat / 16777216 := by
    simp only [byte0, BitVec.extractLsb'_toNat, Nat.shiftRight_eq_div_pow]; omega
  have e1 : (byte1 x).toNat = x.toNat / 65536 % 256 := by
    simp only [byte1, BitVec.extractLsb'_toNat, Nat.shiftRight_eq_div_pow]
  have e2 : (byte2 x).toNat = x.toNat / 256 % 256 := by
    simp only [byte2, BitVec.extractLsb'_toNat, Nat.shiftRight_eq_div_pow]
  have e3 : (byte3 x).toNat = x.toNat % 256 := by
    simp only [byte3, BitVec.extractLsb'_toNat, Nat.shiftRight_eq_div_pow]; omega
  have hs : ∀ (k : Fin 4) (b : Byte), (t.cipher.sByte k b).toNat = wordAt (t.box k.val) b.toNat := fun k b => by
    rw [CipherState.sByte, Packed.sAt_cipher, toNat_ofNat_wordAt]; rfl
  simp only [CipherState.f, Packed.f_def, BitVec.toNat_add, BitVec.toNat_xor, hs, e0, e1, e2, e3]
  rfl

/-- Two rounds with P-box words `i` and `j`, each half computed before going on. -/
def Packed.two {α : Type} (t : Packed) (i j hi lo : Nat) (k : Nat → Nat → α) : α :=
  force (Nat.xor lo (Nat.xor (t.f hi) (wordAt t.p i))) fun lo =>
  force (Nat.xor hi (Nat.xor (t.f lo) (wordAt t.p j))) fun hi => k hi lo

/-- `BF_ENC` on numbers. -/
def Packed.enc {α : Type} (t : Packed) (hi lo : Nat) (k : Nat → Nat → α) : α :=
  force (Nat.xor hi (wordAt t.p 0)) fun hi =>
  t.two 1 2 hi lo fun hi lo => t.two 3 4 hi lo fun hi lo => t.two 5 6 hi lo fun hi lo => t.two 7 8 hi lo fun hi lo =>
  t.two 9 10 hi lo fun hi lo => t.two 11 12 hi lo fun hi lo => t.two 13 14 hi lo fun hi lo =>
  t.two 15 16 hi lo fun hi lo => force (Nat.xor lo (wordAt t.p 17)) fun x => k x hi

/-- `BF_DEC` on numbers. -/
def Packed.dec {α : Type} (t : Packed) (hi lo : Nat) (k : Nat → Nat → α) : α :=
  force (Nat.xor hi (wordAt t.p 17)) fun hi =>
  t.two 16 15 hi lo fun hi lo => t.two 14 13 hi lo fun hi lo => t.two 12 11 hi lo fun hi lo =>
  t.two 10 9 hi lo fun hi lo => t.two 8 7 hi lo fun hi lo => t.two 6 5 hi lo fun hi lo => t.two 4 3 hi lo fun hi lo =>
  t.two 2 1 hi lo fun hi lo => force (Nat.xor lo (wordAt t.p 0)) fun x => k x hi

theorem Packed.twoRounds_eq (t : Packed) (h : Halves) (i j : Fin 18) :
    (t.cipher.twoRounds h (i, j)).lo.toNat = h.lo.toNat ^^^ (t.f h.hi.toNat ^^^ wordAt t.p i.val) ∧
    (t.cipher.twoRounds h (i, j)).hi.toNat =
      h.hi.toNat ^^^ (t.f (t.cipher.twoRounds h (i, j)).lo.toNat ^^^ wordAt t.p j.val) := by
  simp only [CipherState.twoRounds, BitVec.toNat_xor, Packed.pAt_cipher, toNat_ofNat_wordAt, Packed.f_eq, Nat.xor_assoc,
    and_self]

theorem Packed.two_eq {α : Type} (t : Packed) (i j : Fin 18) (h : Halves) (k : Nat → Nat → α) :
    t.two i.val j.val h.hi.toNat h.lo.toNat k =
      k (t.cipher.twoRounds h (i, j)).hi.toNat (t.cipher.twoRounds h (i, j)).lo.toNat := by
  have ⟨hlo, hhi⟩ := t.twoRounds_eq h i j
  rw [Packed.two, force_eq, force_eq]
  change k (h.hi.toNat ^^^ (t.f (h.lo.toNat ^^^ (t.f h.hi.toNat ^^^ wordAt t.p i.val)) ^^^ wordAt t.p j.val))
    (h.lo.toNat ^^^ (t.f h.hi.toNat ^^^ wordAt t.p i.val)) = _
  rw [← hlo, ← hhi]

theorem Packed.xor_p (t : Packed) (x : Word) (i : Fin 18) : Nat.xor x.toNat (wordAt t.p i.val) = (x ^^^ t.cipher.pAt i).toNat := by
  rw [BitVec.toNat_xor, Packed.pAt_cipher, toNat_ofNat_wordAt]; rfl

theorem Packed.enc_eq {α : Type} (t : Packed) (h : Halves) (k : Nat → Nat → α) :
    t.enc h.hi.toNat h.lo.toNat k = k (t.cipher.bfEnc h).hi.toNat (t.cipher.bfEnc h).lo.toNat := by
  have h0 := t.xor_p h.hi 0
  rw [show ((0 : Fin 18) : Nat) = 0 from rfl] at h0
  rw [Packed.enc, force_eq, h0]
  refine (t.two_eq 1 2 ⟨h.hi ^^^ t.cipher.pAt 0, h.lo⟩ _).trans ?_
  refine (t.two_eq 3 4 _ _).trans ((t.two_eq 5 6 _ _).trans ((t.two_eq 7 8 _ _).trans ((t.two_eq 9 10 _ _).trans
    ((t.two_eq 11 12 _ _).trans ((t.two_eq 13 14 _ _).trans ((t.two_eq 15 16 _ _).trans ?_))))))
  rw [force_eq]
  exact congrArg (fun x => k x _) (t.xor_p _ 17)

theorem Packed.dec_eq {α : Type} (t : Packed) (h : Halves) (k : Nat → Nat → α) :
    t.dec h.hi.toNat h.lo.toNat k = k (t.cipher.bfDec h).hi.toNat (t.cipher.bfDec h).lo.toNat := by
  have h17 := t.xor_p h.hi 17
  rw [show ((17 : Fin 18) : Nat) = 17 from rfl] at h17
  rw [Packed.dec, force_eq, h17]
  refine (t.two_eq 16 15 ⟨h.hi ^^^ t.cipher.pAt 17, h.lo⟩ _).trans ?_
  refine (t.two_eq 14 13 _ _).trans ((t.two_eq 12 11 _ _).trans ((t.two_eq 10 9 _ _).trans ((t.two_eq 8 7 _ _).trans
    ((t.two_eq 6 5 _ _).trans ((t.two_eq 4 3 _ _).trans ((t.two_eq 2 1 _ _).trans ?_))))))
  rw [force_eq]
  exact congrArg (fun x => k x _) (t.xor_p _ 0)

/-! ### The schedule -/

/-- Derivation step `n` writes its two words. -/
def Packed.put (t : Packed) (n hi lo : Nat) : Packed :=
  if n < 9 then { t with p := setPair t.p n hi lo }
  else
    match (n - 9) / 128 with
    | 0 => { t with s1 := setPair t.s1 ((n - 9) % 128) hi lo }
    | 1 => { t with s2 := setPair t.s2 ((n - 9) % 128) hi lo }
    | 2 => { t with s3 := setPair t.s3 ((n - 9) % 128) hi lo }
    | _ => { t with s4 := setPair t.s4 ((n - 9) % 128) hi lo }

/-- Every box computed before going on. -/
def Packed.forced {α : Type} (t : Packed) (k : Packed → α) : α :=
  force t.p fun p => force t.s1 fun s1 => force t.s2 fun s2 => force t.s3 fun s3 => force t.s4 fun s4 =>
  k ⟨p, s1, s2, s3, s4⟩

@[simp] theorem Packed.forced_eq {α : Type} (t : Packed) (k : Packed → α) : t.forced k = k t := by
  simp [Packed.forced]

/-- `m` derivation steps from step `n` on. -/
def Packed.run {α : Type} (k : Packed → α) : Nat → Nat → Packed → Nat → Nat → α
  | 0, _, t, _, _ => k t
  | m + 1, n, t, hi, lo =>
    t.enc hi lo fun hi lo => (t.put n hi lo).forced fun t => Packed.run k m (n + 1) t hi lo

/-- The words of the packed CipherState, in the order they are written. -/
theorem Packed.put_cipher (t : Packed) (d : Derivation) (h : t.cipher = d.cipher) {n : Nat} (hn : n < 521) :
    (t.put n (d.stepAt n).block.hi.toNat (d.stepAt n).block.lo.toNat).cipher = (d.stepAt n).cipher := by
  have hhi := (d.stepAt n).block.hi.isLt
  have hlo := (d.stepAt n).block.lo.isLt
  have hword : ∀ (c : CipherState) (i : Fin 18), c.pAt i = c.word ⟨i.val, by omega⟩ := fun c i => by
    simp [CipherState.word, i.isLt]
  have hswrd : ∀ (c : CipherState) (k : Fin 4) (i : Fin 256), c.sAt k i = c.word ⟨18 + 256 * k.val + i.val, by omega⟩ :=
    fun c k i => by
      obtain ⟨k, hk⟩ := k
      obtain ⟨i, hi⟩ := i
      have h1 : ¬ 18 + 256 * k + i < 18 := by omega
      have h2 : (18 + 256 * k + i - 18) / 256 = k := by omega
      have h3 : (18 + 256 * k + i - 18) % 256 = i := by omega
      simp only [CipherState.word, h1, h2, h3, dite_false]
  apply CipherState.ext_words
  · intro i
    rw [Packed.pAt_cipher, hword (d.stepAt n).cipher, Derivation.stepAt_word d hn, ← hword, ← h, Packed.pAt_cipher]
    unfold Packed.put
    by_cases h9 : n < 9
    · simp only [h9, if_true, wordAt_setPair _ _ _ _ _ hhi hlo]
      split_ifs <;> first | rfl | simp
    · have e1 : ¬ i.val = 2 * n := by omega
      have e2 : ¬ i.val = 2 * n + 1 := by omega
      simp only [h9, if_false, e1, e2]
      split <;> rfl
  · intro k i
    rw [Packed.sAt_cipher, hswrd (d.stepAt n).cipher, Derivation.stepAt_word d hn, ← hswrd, ← h, Packed.sAt_cipher]
    unfold Packed.put
    obtain ⟨k, hk⟩ := k
    obtain ⟨i, hi⟩ := i
    by_cases h9 : n < 9
    · have e1 : ¬ 18 + 256 * k + i = 2 * n := by omega
      have e2 : ¬ 18 + 256 * k + i = 2 * n + 1 := by omega
      simp only [h9, if_true, e1, e2, if_false]
      rfl
    · simp only [h9, if_false]
      have hq : (n - 9) / 128 < 4 := by omega
      have hsame : ∀ q, (n - 9) / 128 = q → k = q → ∀ b : Nat,
          BitVec.ofNat 32 (wordAt (setPair b ((n - 9) % 128) (d.stepAt n).block.hi.toNat (d.stepAt n).block.lo.toNat) i) =
            if 18 + 256 * k + i = 2 * n then (d.stepAt n).block.hi
            else if 18 + 256 * k + i = 2 * n + 1 then (d.stepAt n).block.lo else BitVec.ofNat 32 (wordAt b i) := by
        intro q hq hk b
        rw [wordAt_setPair _ _ _ _ _ hhi hlo]
        have a1 : (i = 2 * ((n - 9) % 128)) = (18 + 256 * k + i = 2 * n) := by apply propext; omega
        have a2 : (i = 2 * ((n - 9) % 128) + 1) = (18 + 256 * k + i = 2 * n + 1) := by apply propext; omega
        simp only [a1, a2]
        split_ifs <;> first | rfl | simp
      have hother : (n - 9) / 128 ≠ k → ∀ x y z : Word,
          z = if 18 + 256 * k + i = 2 * n then x else if 18 + 256 * k + i = 2 * n + 1 then y else z := by
        intro hne x y z
        rw [if_neg (by omega), if_neg (by omega)]
      generalize hqe : (n - 9) / 128 = q at *
      match q, k with
      | 0, 0 => exact hsame 0 rfl rfl _
      | 1, 1 => exact hsame 1 rfl rfl _
      | 2, 2 => exact hsame 2 rfl rfl _
      | 3, 3 => exact hsame 3 rfl rfl _
      | 0, 1 | 0, 2 | 0, 3 | 1, 0 | 1, 2 | 1, 3 | 2, 0 | 2, 1 | 2, 3 | 3, 0 | 3, 1 | 3, 2 =>
        exact hother (by decide) _ _ _

theorem Packed.run_eq {α : Type} (k : CipherState → α) (m n : Nat) (t : Packed) (d : Derivation)
    (h : t.cipher = d.cipher) (hmn : n + m ≤ 521) :
    Packed.run (fun t => k t.cipher) m n t d.block.hi.toNat d.block.lo.toNat =
      k ((List.range' n m).foldl Derivation.stepAt d).cipher := by
  induction m generalizing n t d with
  | zero => simp [Packed.run, h]
  | succ m ih =>
    have hb := d.stepAt_block (n := n) (by omega)
    rw [Packed.run, Packed.enc_eq, Packed.forced_eq, h, ← hb]
    exact ih (n + 1) _ (d.stepAt n) (Packed.put_cipher t d h (by omega)) (by omega)

/-! ### Packing the constants -/

/-- Words packed, the first lowest. -/
def packWords : List Word → Nat
  | [] => 0
  | x :: xs => packWords xs * 2 ^ 32 + x.toNat

theorem wordAt_packWords (xs : List Word) (i : Nat) : wordAt (packWords xs) i = (xs.getD i 0).toNat := by
  induction xs generalizing i with
  | nil => simp [packWords, wordAt_def]
  | cons x xs ih =>
    have hx := x.isLt
    cases i with
    | zero => simp only [wordAt_def, packWords, List.getD_cons_zero, Nat.mul_zero, Nat.shiftRight_zero]; omega
    | succ i =>
      rw [List.getD_cons_succ, ← ih, wordAt_def, wordAt_def, packWords, Nat.mul_add, Nat.add_comm (32 * i), Nat.shiftRight_add]
      congr 2
      rw [Nat.mul_one, Nat.shiftRight_eq_div_pow]
      omega

/-- A CipherState, packed. -/
def Packed.ofCipher (c : CipherState) : Packed where
  p := packWords c.p.toList
  s1 := packWords c.s[0].toList
  s2 := packWords c.s[1].toList
  s3 := packWords c.s[2].toList
  s4 := packWords c.s[3].toList

theorem ofNat_wordAt_packWords {n : Nat} (v : Vector Word n) (i : Nat) (h : i < n) :
    BitVec.ofNat 32 (wordAt (packWords v.toList) i) = v[i] := by
  rw [wordAt_packWords, List.getD_eq_getElem _ _ (by simpa using h)]
  simp

theorem Packed.cipher_ofCipher (c : CipherState) : (Packed.ofCipher c).cipher = c := by
  apply CipherState.ext_words
  · intro i
    rw [Packed.pAt_cipher]
    exact ofNat_wordAt_packWords c.p i.val i.isLt
  · intro k i
    rw [Packed.sAt_cipher]
    match k with
    | 0 => exact ofNat_wordAt_packWords c.s[0] i.val i.isLt
    | 1 => exact ofNat_wordAt_packWords c.s[1] i.val i.isLt
    | 2 => exact ofNat_wordAt_packWords c.s[2] i.val i.isLt
    | 3 => exact ofNat_wordAt_packWords c.s[3] i.val i.isLt

/-- The key schedule, packed, then `k` on its result. -/
def Packed.schedule {α : Type} (key : List Byte) (k : Packed → α) : α :=
  (Packed.ofCipher (piCipher.mixKey key)).forced fun t => Packed.run k 521 0 t 0 0

/-- A fact about the CipherState of a key, computed packed. -/
theorem Packed.schedule_eq {α : Type} (key : List Byte) (k : CipherState → α) :
    Packed.schedule key (fun t => k t.cipher) = k (keySchedule key) := by
  rw [Packed.schedule, Packed.forced_eq, keySchedule, CipherState.derive_eq]
  exact Packed.run_eq k 521 0 _ ⟨⟨0, 0⟩, piCipher.mixKey key⟩ (Packed.cipher_ofCipher _) (by omega)

/-! ### Known answers -/

/-- Both directions of a known answer, on numbers. -/
def Packed.check (t : Packed) (plain cipher : Halves) : Bool :=
  (t.enc plain.hi.toNat plain.lo.toNat fun a b => Nat.beq a cipher.hi.toNat && Nat.beq b cipher.lo.toNat) &&
    t.dec cipher.hi.toNat cipher.lo.toNat fun a b => Nat.beq a plain.hi.toNat && Nat.beq b plain.lo.toNat

theorem toBlock_eq_iff (h : Halves) (b : Block) : h.toBlock = b ↔ h = Halves.ofBlock b :=
  ⟨fun e => by rw [← e, ofBlock_toBlock], fun e => by rw [e, toBlock_ofBlock]⟩

theorem Packed.check_eq (t : Packed) (plain cipher : Block) :
    t.check (Halves.ofBlock plain) (Halves.ofBlock cipher) =
      (decide (t.cipher.encBlock plain = cipher) && decide (t.cipher.decBlock cipher = plain)) := by
  have hb : ∀ x y : Halves, (Nat.beq x.hi.toNat y.hi.toNat && Nat.beq x.lo.toNat y.lo.toNat) = decide (x = y) := by
    rintro ⟨a, b⟩ ⟨c, d⟩
    have hn : ∀ m n : Nat, Nat.beq m n = decide (m = n) := fun m n => by
      rw [Bool.eq_iff_iff, Nat.beq_eq, decide_eq_true_iff]
    simp [hn, BitVec.toNat_inj]
  rw [Packed.check, Packed.enc_eq, Packed.dec_eq, hb, hb, CipherState.encBlock, CipherState.decBlock]
  simp only [toBlock_eq_iff]

/-- A known answer checked packed. -/
theorem KnownAnswer.passes_eq (t : KnownAnswer) :
    t.passes = Packed.schedule t.key fun p => p.check (Halves.ofBlock t.plain) (Halves.ofBlock t.cipher) := by
  simp only [Packed.check_eq]
  exact (Packed.schedule_eq t.key fun c =>
    decide (c.encBlock t.plain = t.cipher) && decide (c.decBlock t.cipher = t.plain)).symm

end Sys2Proof.Machine
end

