-- ==== Sys2Proof/Laws/PerInstr.lean ====
section
/-! SUPPORT. Laws stated per command. `FieldsReadBack`: the fields the encoder gives a well-formed command stand for that
command, so no operand is dropped or misplaced between Instr.fields and Fields.instr. -/

namespace Sys2Proof.Laws.FieldsReadBack

open Sys2Proof

/-- The fields of the command read back as the command. -/
def Statement (i : Instr) : Prop := i.wellFormed = true → i.fields.instr = .ok i

/-- A field holding an offset or a length that fits reads back as it. -/
theorem toNat_ofNat_fits {n : Nat} (h : n < Config.offLimit) : (BitVec.ofNat 32 n).toNat = n := by
  simpa [BitVec.toNat_ofNat] using Nat.mod_eq_of_lt h

theorem fits_of_lenFits {n : Nat} (h : lenFits n = true) : n < Config.offLimit := by simpa [lenFits] using h

theorem fits_of_wellFormed {a : Addr} (h : a.wellFormed = true) : a.off < Config.offLimit := by
  simpa [Addr.wellFormed] using h

/-- Format `RD` carries its window. -/
theorem formatRD_a {op : BitVec 8} {a : Addr} (h : a.wellFormed = true) : (Fields.formatRD op a).a = a := by
  simp [Fields.formatRD, Fields.a, -BitVec.toNat_ofNat, toNat_ofNat_fits (fits_of_wellFormed h)]

/-- Format `WR` carries its window. -/
theorem formatWR_b {op : BitVec 8} {b : Addr} (h : b.wellFormed = true) : (Fields.formatWR op b).b = b := by
  simp [Fields.formatWR, Fields.b, -BitVec.toNat_ofNat, toNat_ofNat_fits (fits_of_wellFormed h)]

/-- Format `KQ` carries its key window. -/
theorem formatKQ_a {op : BitVec 8} {a : Addr} {n : Nat} {x : Quad} (h : a.wellFormed = true) :
    (Fields.formatKQ op a n x).a = a := by
  simp [Fields.formatKQ, Fields.a, -BitVec.toNat_ofNat, toNat_ofNat_fits (fits_of_wellFormed h)]

/-- Format `KQ` carries its length. -/
theorem formatKQ_len {op : BitVec 8} {a : Addr} {n : Nat} {x : Quad} (h : lenFits n = true) :
    (Fields.formatKQ op a n x).len.toNat = n := toNat_ofNat_fits (fits_of_lenFits h)

/-- Format `K` carries its key window. -/
theorem formatK_a {op : BitVec 8} {a : Addr} {n : Nat} (h : a.wellFormed = true) : (Fields.formatK op a n).a = a :=
  formatKQ_a (x := 0) h

/-- Format `K` carries its length. -/
theorem formatK_len {op : BitVec 8} {a : Addr} {n : Nat} (h : lenFits n = true) :
    (Fields.formatK op a n).len.toNat = n := toNat_ofNat_fits (fits_of_lenFits h)

/-- Formats `KI` and `X` carry their first window. -/
theorem formatX_a {op : BitVec 8} {a b : Addr} {n : Nat} (h : a.wellFormed = true) : (Fields.formatX op a b n).a = a := by
  simp [Fields.formatX, Fields.a, -BitVec.toNat_ofNat, toNat_ofNat_fits (fits_of_wellFormed h)]

/-- Formats `KI` and `X` carry their second window. -/
theorem formatX_b {op : BitVec 8} {a b : Addr} {n : Nat} (h : b.wellFormed = true) : (Fields.formatX op a b n).b = b := by
  simp [Fields.formatX, Fields.b, -BitVec.toNat_ofNat, toNat_ofNat_fits (fits_of_wellFormed h)]

/-- Formats `KI` and `X` carry their length. -/
theorem formatX_len {op : BitVec 8} {a b : Addr} {n : Nat} (h : lenFits n = true) :
    (Fields.formatX op a b n).len.toNat = n := toNat_ofNat_fits (fits_of_lenFits h)

theorem initEcb (key : Addr) (len : Nat) : Statement (.initEcb key len) := by
  intro h
  simp only [Instr.wellFormed, Bool.and_eq_true] at h
  exact congrArg Except.ok (congrArg₂ Instr.initEcb (formatK_a h.1) (formatK_len h.2))

theorem initCbc (key : Addr) (len : Nat) : Statement (.initCbc key len) := by
  intro h
  simp only [Instr.wellFormed, Bool.and_eq_true] at h
  exact congrArg Except.ok (congrArg₂ Instr.initCbc (formatK_a h.1) (formatK_len h.2))

theorem initCbcIv (key : Addr) (len : Nat) (iv : Addr) : Statement (.initCbcIv key len iv) := by
  intro h
  simp only [Instr.wellFormed, Bool.and_eq_true] at h
  change Except.ok (Instr.initCbcIv (Fields.formatX _ key iv len).a (Fields.formatX _ key iv len).len.toNat
    (Fields.formatX _ key iv len).b) = _
  rw [formatX_a h.1.1, formatX_len h.1.2, formatX_b h.2]

theorem initCbcIv64 (key : Addr) (len : Nat) (imm64 : Quad) : Statement (.initCbcIv64 key len imm64) := by
  intro h
  simp only [Instr.wellFormed, Bool.and_eq_true] at h
  change Except.ok (Instr.initCbcIv64 (Fields.formatKQ _ key len imm64).a (Fields.formatKQ _ key len imm64).len.toNat
    imm64) = _
  rw [formatKQ_a h.1, formatKQ_len h.2]

theorem initCfb (key : Addr) (len : Nat) : Statement (.initCfb key len) := by
  intro h
  simp only [Instr.wellFormed, Bool.and_eq_true] at h
  exact congrArg Except.ok (congrArg₂ Instr.initCfb (formatK_a h.1) (formatK_len h.2))

theorem initCfbIv (key : Addr) (len : Nat) (iv : Addr) : Statement (.initCfbIv key len iv) := by
  intro h
  simp only [Instr.wellFormed, Bool.and_eq_true] at h
  change Except.ok (Instr.initCfbIv (Fields.formatX _ key iv len).a (Fields.formatX _ key iv len).len.toNat
    (Fields.formatX _ key iv len).b) = _
  rw [formatX_a h.1.1, formatX_len h.1.2, formatX_b h.2]

theorem cleanup : Statement (.cleanup) := fun _ => rfl

theorem ecbEnc (inp out : Addr) (len : Nat) : Statement (.ecbEnc inp out len) := by
  intro h
  simp only [Instr.wellFormed, Bool.and_eq_true] at h
  change Except.ok (Instr.ecbEnc (Fields.formatX _ inp out len).a (Fields.formatX _ inp out len).b
    (Fields.formatX _ inp out len).len.toNat) = _
  rw [formatX_a h.1.1, formatX_b h.1.2, formatX_len h.2]

theorem ecbDec (inp out : Addr) (len : Nat) : Statement (.ecbDec inp out len) := by
  intro h
  simp only [Instr.wellFormed, Bool.and_eq_true] at h
  change Except.ok (Instr.ecbDec (Fields.formatX _ inp out len).a (Fields.formatX _ inp out len).b
    (Fields.formatX _ inp out len).len.toNat) = _
  rw [formatX_a h.1.1, formatX_b h.1.2, formatX_len h.2]

theorem cbcEnc (inp out : Addr) (len : Nat) : Statement (.cbcEnc inp out len) := by
  intro h
  simp only [Instr.wellFormed, Bool.and_eq_true] at h
  change Except.ok (Instr.cbcEnc (Fields.formatX _ inp out len).a (Fields.formatX _ inp out len).b
    (Fields.formatX _ inp out len).len.toNat) = _
  rw [formatX_a h.1.1, formatX_b h.1.2, formatX_len h.2]

theorem cbcDec (inp out : Addr) (len : Nat) : Statement (.cbcDec inp out len) := by
  intro h
  simp only [Instr.wellFormed, Bool.and_eq_true] at h
  change Except.ok (Instr.cbcDec (Fields.formatX _ inp out len).a (Fields.formatX _ inp out len).b
    (Fields.formatX _ inp out len).len.toNat) = _
  rw [formatX_a h.1.1, formatX_b h.1.2, formatX_len h.2]

theorem cbcGetiv (out : Addr) : Statement (.cbcGetiv out) := fun h =>
  congrArg (Except.ok ∘ Instr.cbcGetiv) (formatWR_b h)

theorem cbcSetiv (inp : Addr) : Statement (.cbcSetiv inp) := fun h =>
  congrArg (Except.ok ∘ Instr.cbcSetiv) (formatRD_a h)

theorem cbcGetiv64 : Statement (.cbcGetiv64) := fun _ => rfl

theorem cbcSetiv64 (imm64 : Quad) : Statement (.cbcSetiv64 imm64) := fun _ => rfl

theorem cfbEnc (inp out : Addr) (len : Nat) : Statement (.cfbEnc inp out len) := by
  intro h
  simp only [Instr.wellFormed, Bool.and_eq_true] at h
  change Except.ok (Instr.cfbEnc (Fields.formatX _ inp out len).a (Fields.formatX _ inp out len).b
    (Fields.formatX _ inp out len).len.toNat) = _
  rw [formatX_a h.1.1, formatX_b h.1.2, formatX_len h.2]

theorem cfbDec (inp out : Addr) (len : Nat) : Statement (.cfbDec inp out len) := by
  intro h
  simp only [Instr.wellFormed, Bool.and_eq_true] at h
  change Except.ok (Instr.cfbDec (Fields.formatX _ inp out len).a (Fields.formatX _ inp out len).b
    (Fields.formatX _ inp out len).len.toNat) = _
  rw [formatX_a h.1.1, formatX_b h.1.2, formatX_len h.2]

theorem cfbGetiv (out : Addr) : Statement (.cfbGetiv out) := fun h =>
  congrArg (Except.ok ∘ Instr.cfbGetiv) (formatWR_b h)

theorem cfbSetiv (inp : Addr) : Statement (.cfbSetiv inp) := fun h =>
  congrArg (Except.ok ∘ Instr.cfbSetiv) (formatRD_a h)

theorem weakkey : Statement (.weakkey) := fun _ => rfl

theorem selftest : Statement (.selftest) := fun _ => rfl

end Sys2Proof.Laws.FieldsReadBack
end

