-- ==== Sys2Proof/Laws/Rules.lean ====
section
/-! SUPPORT. The shapes of the commands' rules (Sys2Proof/Safety.lean) from the shared operations: the error clauses of a
rule hold of every command written over `State.initCommon`, `State.transfer` or `State.ivChecks`, so what is left to show of a
command is its own effect. -/

namespace Sys2Proof.Machine

open Sys2Proof

theorem State.failed_eq (s : State) (e : Status) : Host.Outcome.next (s.failed e) = s.raise e := rfl

theorem State.fits_iff (s : State) (w : Addr) (n : Nat) : s.fits w n ↔ s.inBounds w n = true := by
  rw [State.inBounds_iff, State.fits]

theorem State.holds_iff (s : State) (mode : Mode) : s.holds mode ↔ s.keyedIn mode = true := by
  rw [State.keyedIn_iff, State.holds]

theorem State.not_fits_iff (s : State) (w : Addr) (n : Nat) : ¬ s.fits w n ↔ s.inBounds w n = false := by
  rw [State.fits_iff, Bool.not_eq_true]

/-! ### The commands over the shared operations -/

theorem exec_initEcb (key : Addr) (len : Nat) (s : State) :
    exec (.initEcb key len) s = s.initCommon .ecb key len none id := by
  rw [exec, execInitEcb]

theorem exec_initCbc (key : Addr) (len : Nat) (s : State) :
    exec (.initCbc key len) s = s.initCommon .cbc key len none id := by
  rw [exec, execInitCbc]

theorem exec_initCbcIv (key : Addr) (len : Nat) (iv : Addr) (s : State) :
    exec (.initCbcIv key len iv) s = s.initCommon .cbc key len (some iv) fun t => t.setV (t.mem.readBlock iv.cell) := by
  rw [exec, execInitCbcIv]

theorem exec_initCbcIv64 (key : Addr) (len : Nat) (x : Quad) (s : State) :
    exec (.initCbcIv64 key len x) s = s.initCommon .cbc key len none fun t => t.setV (Block.unpack x) := by
  rw [exec, execInitCbcIv64]

theorem exec_initCfb (key : Addr) (len : Nat) (s : State) :
    exec (.initCfb key len) s = s.initCommon .cfb key len none id := by
  rw [exec, execInitCfb]

theorem exec_initCfbIv (key : Addr) (len : Nat) (iv : Addr) (s : State) :
    exec (.initCfbIv key len iv) s = s.initCommon .cfb key len (some iv) fun t => t.setCfb (t.mem.readBlock iv.cell) 0 := by
  rw [exec, execInitCfbIv]

theorem exec_ecbEnc (inp out : Addr) (len : Nat) (s : State) :
    exec (.ecbEnc inp out len) s = s.transfer .ecb true inp out len fun s =>
      s.setMem (s.mem.mapBlocks s.cipher.encBlock (len / 8) inp.cell out.cell) := by
  rw [exec, execEcbEnc]

theorem exec_ecbDec (inp out : Addr) (len : Nat) (s : State) :
    exec (.ecbDec inp out len) s = s.transfer .ecb true inp out len fun s =>
      s.setMem (s.mem.mapBlocks s.cipher.decBlock (len / 8) inp.cell out.cell) := by
  rw [exec, execEcbDec]

theorem exec_cbcEnc (inp out : Addr) (len : Nat) (s : State) :
    exec (.cbcEnc inp out len) s = s.transfer .cbc true inp out len fun s =>
      s.setCbcRun (CbcRun.blocks (CbcRun.encStep s.cipher) (len / 8) inp.cell out.cell ⟨s.v, s.mem⟩) := by
  rw [exec, execCbcEnc]

theorem exec_cbcDec (inp out : Addr) (len : Nat) (s : State) :
    exec (.cbcDec inp out len) s = s.transfer .cbc true inp out len fun s =>
      s.setCbcRun (CbcRun.blocks (CbcRun.decStep s.cipher) (len / 8) inp.cell out.cell ⟨s.v, s.mem⟩) := by
  rw [exec, execCbcDec]

theorem exec_cfbEnc (inp out : Addr) (len : Nat) (s : State) :
    exec (.cfbEnc inp out len) s = s.transfer .cfb false inp out len fun s => s.cfbRun false inp.cell out.cell len := by
  rw [exec, execCfbEnc]

theorem exec_cfbDec (inp out : Addr) (len : Nat) (s : State) :
    exec (.cfbDec inp out len) s = s.transfer .cfb false inp out len fun s => s.cfbRun true inp.cell out.cell len := by
  rw [exec, execCfbDec]

/-! ### Transfers -/

/-- The first error of a transfer, read off its operands. -/
theorem State.xferChecks_eq (s : State) (mode : Mode) (blocks : Bool) (inp out : Addr) (len : Nat) :
    (¬ s.holds mode → s.xferChecks mode blocks inp out len = some .illegalState) ∧
    (s.holds mode → blocks = true → len % 8 ≠ 0 →
      s.xferChecks mode blocks inp out len = some .invalidBlockAlignment) ∧
    (s.holds mode → (blocks = true → len % 8 = 0) → ¬ (s.fits inp len ∧ s.fits out len) →
      s.xferChecks mode blocks inp out len = some .bufferBounds) ∧
    (s.holds mode → (blocks = true → len % 8 = 0) → s.fits inp len → s.fits out len →
      s.xferChecks mode blocks inp out len = none) := by
  simp only [State.fits_iff, State.holds_iff]
  unfold State.xferChecks
  refine ⟨fun h => ?_, fun h hb hl => ?_, fun h hb hf => ?_, fun h hb hi ho => ?_⟩
  · simp [h]
  · simp [h, hb, hl]
  · cases blocks <;> simp_all
  · cases blocks <;> simp_all

/-- The rule of a command that is a transfer follows from the effect of its run. -/
theorem TransferRule.of_transfer {cmd : Addr → Addr → Nat → Instr} {mode : Mode} {blocks : Bool}
    {effect : Addr → Addr → Nat → State → State → Prop} {run : Addr → Addr → Nat → State → State}
    (hexec : ∀ inp out len s, exec (cmd inp out len) s = s.transfer mode blocks inp out len (run inp out len))
    (heff : ∀ inp out len s, (blocks = true → len % 8 = 0) → s.fits inp len → s.fits out len → apartOrSame inp out len →
      effect inp out len s ((run inp out len s).setResponse ⟨.ok, BitVec.ofNat 64 len⟩) ∧
      sameOutside s (run inp out len s) out len ∧ sameHost s (run inp out len s)) :
    TransferRule cmd mode blocks effect := by
  intro inp out len s
  obtain ⟨h1, h2, h3, h4⟩ := s.xferChecks_eq mode blocks inp out len
  rw [hexec, State.transfer]
  refine ⟨fun h => ?_, fun h hb hl => ?_, fun h hb hf => ?_, fun h hb hi ho ha => ?_, fun h hb hi ho ha => ?_⟩
  · rw [h1 h]; rfl
  · rw [h2 h hb hl]; rfl
  · rw [h3 h hb hf]; rfl
  · rw [h4 h hb hi ho]
    simp [partialOverlap_eq_true.mpr ha]
  · rw [h4 h hb hi ho]
    obtain ⟨he, hs, hh⟩ := heff inp out len s hb hi ho ha
    refine ⟨(run inp out len s).setResponse ⟨.ok, BitVec.ofNat 64 len⟩, ?_, he, hs, hh, rfl⟩
    simp [partialOverlap_eq_false.mpr ha]

/-! ### Constructions -/

/-- The first error of a construction, read off its operands. -/
theorem State.initChecks_eq (s : State) (key : Addr) (len : Nat) (iv : Option Addr) :
    (s.life ≠ .empty → s.initChecks key len iv = some .illegalState) ∧
    (s.life = .empty → 56 < len → s.initChecks key len iv = some .invalidKeyLength) ∧
    (s.life = .empty → len ≤ 56 → ¬ (s.fits key len ∧ ∀ a, iv = some a → s.fits a 8) →
      s.initChecks key len iv = some .bufferBounds) ∧
    (s.life = .empty → len ≤ 56 → s.fits key len → (∀ a, iv = some a → s.fits a 8) →
      s.initChecks key len iv = none) := by
  simp only [State.fits_iff]
  unfold State.initChecks
  refine ⟨fun h => ?_, fun h hl => ?_, fun h hl hf => ?_, fun h hl hk hi => ?_⟩
  · simp [h]
  · simp [h, hl]
  · have : ¬ 56 < len := by omega
    cases iv <;> simp_all
  · have : ¬ 56 < len := by omega
    cases iv <;> simp_all

/-- The rule of a command that is a construction follows from what it loads. -/
theorem InitRule.of_initCommon {i : Instr} {mode : Mode} {key : Addr} {len : Nat} {iv : Option Addr} {v r : State → Block}
    {load : State → State} (hexec : ∀ s, exec i s = s.initCommon mode key len iv load)
    (hload : ∀ s : State, load (s.construct mode key len) =
      { s with cipher := keySchedule (s.bytes key len), mode := mode, life := .keyed, v := v s, r := r s, bytesLeft := 0 }) :
    InitRule i mode key len iv v r := by
  intro s
  obtain ⟨h1, h2, h3, h4⟩ := s.initChecks_eq key len iv
  rw [hexec]
  refine ⟨fun h => State.initCommon_of_error load (h1 h), fun h hl => State.initCommon_of_error load (h2 h hl),
    fun h hl hf => State.initCommon_of_error load (h3 h hl hf), fun h hl hk hi => ?_⟩
  rw [State.initCommon_of_checks load (h4 h hl hk hi), hload]
  rfl

/-! ### Register commands with a window -/

theorem State.ivChecks_eq (s : State) (mode : Mode) (w : Addr) :
    (¬ s.holds mode → s.ivChecks mode w = some .illegalState) ∧
    (s.holds mode → ¬ s.fits w 8 → s.ivChecks mode w = some .bufferBounds) ∧
    (s.holds mode → s.fits w 8 → s.ivChecks mode w = none) := by
  simp only [State.fits_iff, State.holds_iff]
  unfold State.ivChecks
  exact ⟨fun h => by simp [h], fun h hf => by simp [h, hf], fun h hf => by simp [h, hf]⟩

/-- The rule of a register command follows from its effect. -/
theorem WindowRule.of_ivChecks {cmd : Addr → Instr} {mode : Mode} {effect : Addr → State → State → Prop}
    {run : Addr → State → State}
    (hexec : ∀ w s, exec (cmd w) s = match s.ivChecks mode w with | some e => s.raise e | none => (run w s).respond 0)
    (heff : ∀ w s, s.fits w 8 → effect w s ((run w s).setResponse ⟨.ok, 0⟩) ∧ sameHost s (run w s)) :
    WindowRule cmd mode effect := by
  intro w s
  obtain ⟨h1, h2, h3⟩ := s.ivChecks_eq mode w
  rw [hexec]
  refine ⟨fun h => ?_, fun h hf => ?_, fun h hf => ?_⟩
  · rw [h1 h]; rfl
  · rw [h2 h hf]; rfl
  · rw [h3 h hf]
    obtain ⟨he, hh⟩ := heff w s hf
    exact ⟨_, rfl, he, hh, rfl⟩

end Sys2Proof.Machine
end

