-- ==== Sys2Proof/Tests/Slice0.lean ====
section
/-! SUPPORT. The model's own tests. Expected values come from the spec's vectors (spec/95_test_vectors.md, cited by name) or
are worked out by hand from a rule, on the all-zero CipherState, under which rule R91 gives `BF_ENC(hi, lo) = (lo, hi)`: a
block's two halves change places. Then one witness for the hypotheses of each obligation that has some. -/

-- One declaration after the other: side by side, these would ask for more threads than the check allows.
set_option Elab.async false

namespace Sys2Proof.Tests

open Sys2Proof Sys2Proof.Machine

/-! ### Well-formedness: every check refuses an ill-formed term -/

theorem test_illformed_key_offset : Instr.wellFormed (.initEcb ⟨0, 0x100000000⟩ 0) = false := by decide

theorem test_illformed_key_length : Instr.wellFormed (.initCbc ⟨0, 0⟩ 0x100000000) = false := by decide

theorem test_illformed_iv_offset : Instr.wellFormed (.initCbcIv ⟨0, 0⟩ 8 ⟨0, 0x100000000⟩) = false := by decide

theorem test_illformed_packed_key_length : Instr.wellFormed (.initCbcIv64 ⟨0, 0⟩ 0x100000000 0) = false := by decide

theorem test_illformed_input_offset : Instr.wellFormed (.ecbEnc ⟨0, 0x100000000⟩ ⟨0, 0⟩ 8) = false := by decide

theorem test_illformed_output_offset : Instr.wellFormed (.cbcDec ⟨0, 0⟩ ⟨0, 0x100000000⟩ 8) = false := by decide

theorem test_illformed_length : Instr.wellFormed (.cfbEnc ⟨0, 0⟩ ⟨0, 0⟩ 0x100000000) = false := by decide

theorem test_illformed_getiv_offset : Instr.wellFormed (.cbcGetiv ⟨0, 0x100000000⟩) = false := by decide

theorem test_illformed_setiv_offset : Instr.wellFormed (.cfbSetiv ⟨0, 0x100000000⟩) = false := by decide

/-- The largest operands are well-formed. -/
theorem test_wellformed_largest :
    Instr.wellFormed (.initCfbIv ⟨255, 0xFFFFFFFF⟩ 0xFFFFFFFF ⟨255, 0xFFFFFFFF⟩) = true := by decide

/-! ### Decoding: the descriptors of spec/95_test_vectors.md section 11, one per command -/

theorem test_decode_initEcb :
    decode 0x000000000000000000000010000000000000000200000101 = .ok (.initEcb ⟨1, 2⟩ 16) := by decide +kernel

theorem test_decode_initCbc :
    decode 0x000000000000000000000038000000000000000000000102 = .ok (.initCbc ⟨1, 0⟩ 56) := by decide +kernel

theorem test_decode_initCbcIv :
    decode 0x000000000000000000000010000000040000000200030103 = .ok (.initCbcIv ⟨1, 2⟩ 16 ⟨3, 4⟩) := by decide +kernel

theorem test_decode_initCbcIv64 :
    decode 0xFEDCBA987654321000000010000000000000000200000104 = .ok (.initCbcIv64 ⟨1, 2⟩ 16 0xFEDCBA9876543210) := by decide +kernel

theorem test_decode_initCfb :
    decode 0x00000000000000000000000000000000000000000000FF05 = .ok (.initCfb ⟨255, 0⟩ 0) := by decide +kernel

theorem test_decode_initCfbIv :
    decode 0x000000000000000000000008000000080000000000000006 = .ok (.initCfbIv ⟨0, 0⟩ 8 ⟨0, 8⟩) := by decide +kernel

theorem test_decode_cleanup :
    decode 0x00000000000000000000000000000000000000000000000F = .ok .cleanup := by decide +kernel

theorem test_decode_ecbEnc :
    decode 0x000000000000000000000018000000000000001000020110 = .ok (.ecbEnc ⟨1, 16⟩ ⟨2, 0⟩ 24) := by decide +kernel

theorem test_decode_ecbDec :
    decode 0x000000000000000000000008000000000000000000020211 = .ok (.ecbDec ⟨2, 0⟩ ⟨2, 0⟩ 8) := by decide +kernel

theorem test_decode_cbcEnc :
    decode 0x000000000000000000000018000000000000001000020120 = .ok (.cbcEnc ⟨1, 16⟩ ⟨2, 0⟩ 24) := by decide +kernel

theorem test_decode_cbcDec :
    decode 0x000000000000000000001000000002000000010000020121 = .ok (.cbcDec ⟨1, 0x100⟩ ⟨2, 0x200⟩ 0x1000) := by decide +kernel

theorem test_decode_cbcGetiv :
    decode 0x000000000000000000000000000000040000000000030024 = .ok (.cbcGetiv ⟨3, 4⟩) := by decide +kernel

theorem test_decode_cbcSetiv :
    decode 0x000000000000000000000000000000000000000400000325 = .ok (.cbcSetiv ⟨3, 4⟩) := by decide +kernel

theorem test_decode_cbcGetiv64 :
    decode 0x000000000000000000000000000000000000000000000026 = .ok .cbcGetiv64 := by decide +kernel

theorem test_decode_cbcSetiv64 :
    decode 0xFEDCBA987654321000000000000000000000000000000027 = .ok (.cbcSetiv64 0xFEDCBA9876543210) := by decide +kernel

theorem test_decode_cfbEnc :
    decode 0x00000000000000000000000D000000000000000000020130 = .ok (.cfbEnc ⟨1, 0⟩ ⟨2, 0⟩ 13) := by decide +kernel

theorem test_decode_cfbDec :
    decode 0x0000000000000000000000100000000D0000000D00020131 = .ok (.cfbDec ⟨1, 13⟩ ⟨2, 13⟩ 16) := by decide +kernel

theorem test_decode_cfbGetiv :
    decode 0x000000000000000000000000000000000000000000040034 = .ok (.cfbGetiv ⟨4, 0⟩) := by decide +kernel

theorem test_decode_cfbSetiv :
    decode 0x000000000000000000000000000000000000000000000335 = .ok (.cfbSetiv ⟨3, 0⟩) := by decide +kernel

theorem test_decode_weakkey :
    decode 0x000000000000000000000000000000000000000000000040 = .ok .weakkey := by decide +kernel

theorem test_decode_selftest :
    decode 0x000000000000000000000000000000000000000000000041 = .ok .selftest := by decide +kernel

/-- Section 11, "Ignored bits". -/
theorem test_decode_ignored_bits :
    decode 0x000000000000DEAD000000050000000000001234AB00770F = .ok .cleanup := by decide +kernel

/-- Section 10, command 5: an unknown code with every other bit 1. -/
theorem test_decode_unknown :
    decode 0xFFFFFFFFFFFFFFFFFFFFFFFFFFFFFFFFFFFFFFFFFFFFFF12 = .error (.unknownCode 0x12) := by decide +kernel

/-- A row of spec/opcode_table.json: only the code's 8 bits given, every operand 0. -/
theorem test_decode_table_word : decodeTableWord 8 0x31 = some (.cfbDec ⟨0, 0⟩ ⟨0, 0⟩ 0) := by decide +kernel

/-! ### One step on small states -/

/-- Buffers of 40 bytes each; buffer 1 holds 1, 2, ..., 16 from offset 0; an instance of the mode with the all-zero
CipherState, `V` = `R` = 11 22 33 44 55 66 77 88 and 3 bytes of `R` left. -/
def lab (mode : Mode) : State :=
  { State.reset with
    life := .keyed
    mode := mode
    v := #v[0x11, 0x22, 0x33, 0x44, 0x55, 0x66, 0x77, 0x88]
    r := #v[0x11, 0x22, 0x33, 0x44, 0x55, 0x66, 0x77, 0x88]
    bytesLeft := 3
    bufSize := Vector.replicate 256 40
    mem := Memory.write [] (Addr.cell ⟨1, 0⟩) [1, 2, 3, 4, 5, 6, 7, 8, 9, 10, 11, 12, 13, 14, 15, 16] }

/-- The same buffers and no instance. -/
def bare : State := State.launch (lab .ecb).bufSize (lab .ecb).mem 0

/-- What a test looks at: the response and whatever else of the next state. -/
def seen {α : Type} (o : Host.Outcome State Fault Refusal) (f : State → α) : Option (Option Response × α) :=
  match o with
  | .next t => some (t.response, f t)
  | .fault _ => none
  | .refused _ => none

/-- Rule R76: a construction sets the lifecycle and the mode. -/
theorem test_initEcb : seen (exec (.initEcb ⟨1, 0⟩ 16) bare) (fun t => (t.life, t.mode)) =
    some (some ⟨.ok, 0⟩, .keyed, .ecb) := by decide +kernel

/-- Section 10, command 6: a key of 57 bytes. -/
theorem test_initCbc_key_too_long : seen (exec (.initCbc ⟨0, 0⟩ 57) bare) State.life =
    some (some ⟨.invalidKeyLength, 0⟩, .empty) := by decide +kernel

/-- Rule R79: the IV window goes into `V`. -/
theorem test_initCbcIv : seen (exec (.initCbcIv ⟨0, 0⟩ 0 ⟨1, 4⟩) bare) State.v =
    some (some ⟨.ok, 0⟩, #v[5, 6, 7, 8, 9, 10, 11, 12]) := by decide +kernel

/-- Section 10, command 8: the IV window ends past its buffer. -/
theorem test_initCbcIv_iv_out_of_bounds : seen (exec (.initCbcIv ⟨0, 0⟩ 8 ⟨1, 33⟩) bare) State.life =
    some (some ⟨.bufferBounds, 0⟩, .empty) := by decide +kernel

/-- The example of rule R80. -/
theorem test_initCbcIv64 : seen (exec (.initCbcIv64 ⟨0, 0⟩ 0 0x0102030405060708) bare) State.v =
    some (some ⟨.ok, 0⟩, #v[1, 2, 3, 4, 5, 6, 7, 8]) := by decide +kernel

/-- Rule R81: a zero register with nothing left of it. -/
theorem test_initCfb : seen (exec (.initCfb ⟨0, 0⟩ 0) bare) (fun t => (t.mode, t.r, t.bytesLeft)) =
    some (some ⟨.ok, 0⟩, .cfb, #v[0, 0, 0, 0, 0, 0, 0, 0], 0) := by decide +kernel

/-- Rule R82: the IV goes into `R` and is not keystream. -/
theorem test_initCfbIv : seen (exec (.initCfbIv ⟨0, 0⟩ 0 ⟨1, 8⟩) bare) (fun t => (t.r, t.bytesLeft)) =
    some (some ⟨.ok, 0⟩, #v[9, 10, 11, 12, 13, 14, 15, 16], 0) := by decide +kernel

/-- Section 10, command 10: a keyed block is not keyed again, and the state error outranks the key length. -/
theorem test_init_while_keyed : seen (exec (.initEcb ⟨0, 0⟩ 57) (lab .cbc)) State.mode =
    some (some ⟨.illegalState, 0⟩, .cbc) := by decide +kernel

/-- Section 10, command 20. -/
theorem test_cleanup : seen (exec .cleanup (lab .cfb)) (fun t => (t.life, t.mode, t.r, t.bytesLeft)) =
    some (some ⟨.ok, 0⟩, .empty, .none, zeroBlock, 0) := by decide +kernel

/-- Section 10, command 22: a second cleanup. -/
theorem test_cleanup_twice : seen (exec .cleanup bare) State.life = some (some ⟨.illegalState, 0⟩, .empty) := by
  decide +kernel

/-- Rule R110 on the zero CipherState: the halves of each block change places. -/
theorem test_ecbEnc : seen (exec (.ecbEnc ⟨1, 0⟩ ⟨2, 3⟩ 16) (lab .ecb)) (fun t => t.bytes ⟨2, 3⟩ 16) =
    some (some ⟨.ok, 16⟩, [5, 6, 7, 8, 1, 2, 3, 4, 13, 14, 15, 16, 9, 10, 11, 12]) := by decide +kernel

/-- The end of section 10: windows that overlap partially. -/
theorem test_ecbEnc_partial_overlap : exec (.ecbEnc ⟨1, 0⟩ ⟨1, 4⟩ 8) (lab .ecb) = .refused .partialOverlap := rfl

/-- Rule R111 in place. -/
theorem test_ecbDec_in_place : seen (exec (.ecbDec ⟨1, 0⟩ ⟨1, 0⟩ 8) (lab .ecb)) (fun t => t.bytes ⟨1, 0⟩ 9) =
    some (some ⟨.ok, 8⟩, [5, 6, 7, 8, 1, 2, 3, 4, 9]) := by decide +kernel

/-- Section 10, command 17: `aoff + len` is 2^32 exactly. -/
theorem test_ecbDec_no_wrap : seen (exec (.ecbDec ⟨1, 0xFFFFFFF8⟩ ⟨2, 0⟩ 8) (lab .ecb)) State.life =
    some (some ⟨.bufferBounds, 0⟩, .keyed) := by decide +kernel

/-- Rule R120 by hand: 01..08 xor V = 10 20 30 40 50 60 70 80, halves crossed; 09..10 xor that, halves crossed. -/
theorem test_cbcEnc : seen (exec (.cbcEnc ⟨1, 0⟩ ⟨2, 0⟩ 16) (lab .cbc)) (fun t => (t.bytes ⟨2, 0⟩ 16, t.v)) =
    some (some ⟨.ok, 16⟩,
      [0x50, 0x60, 0x70, 0x80, 0x10, 0x20, 0x30, 0x40, 0x1D, 0x2E, 0x3F, 0x50, 0x59, 0x6A, 0x7B, 0x8C],
      #v[0x1D, 0x2E, 0x3F, 0x50, 0x59, 0x6A, 0x7B, 0x8C]) := by decide +kernel

/-- Section 10, command 14: misaligned and out of bounds, alignment first. -/
theorem test_cbcEnc_alignment_first : seen (exec (.cbcEnc ⟨1, 39⟩ ⟨2, 0⟩ 20) (lab .cbc)) State.v =
    some (some ⟨.invalidBlockAlignment, 0⟩, (lab .cbc).v) := by decide +kernel

/-- Rule R121 in place, by hand: the second block is exclusive-ored with the first as it was read. -/
theorem test_cbcDec_in_place : seen (exec (.cbcDec ⟨1, 0⟩ ⟨1, 0⟩ 16) (lab .cbc)) (fun t => (t.bytes ⟨1, 0⟩ 16, t.v)) =
    some (some ⟨.ok, 16⟩,
      [0x14, 0x24, 0x34, 0x4C, 0x54, 0x64, 0x74, 0x8C, 0x0C, 0x0C, 0x0C, 0x14, 0x0C, 0x0C, 0x0C, 0x04],
      #v[9, 10, 11, 12, 13, 14, 15, 16]) := by decide +kernel

/-- Rule R123. -/
theorem test_cbcGetiv : seen (exec (.cbcGetiv ⟨1, 1⟩) (lab .cbc)) (fun t => t.bytes ⟨1, 0⟩ 10) =
    some (some ⟨.ok, 0⟩, [1, 0x11, 0x22, 0x33, 0x44, 0x55, 0x66, 0x77, 0x88, 10]) := by decide +kernel

/-- Rule R122. -/
theorem test_cbcSetiv : seen (exec (.cbcSetiv ⟨1, 2⟩) (lab .cbc)) State.v =
    some (some ⟨.ok, 0⟩, #v[3, 4, 5, 6, 7, 8, 9, 10]) := by decide +kernel

/-- Rule R125: byte 0 is the most significant. -/
theorem test_cbcGetiv64 : seen (exec .cbcGetiv64 (lab .cbc)) State.v =
    some (some ⟨.ok, 0x1122334455667788⟩, (lab .cbc).v) := by decide +kernel

/-- The example of rule R124. -/
theorem test_cbcSetiv64 : seen (exec (.cbcSetiv64 0xFEDCBA9876543210) (lab .cbc)) State.v =
    some (some ⟨.ok, 0⟩, #v[0xFE, 0xDC, 0xBA, 0x98, 0x76, 0x54, 0x32, 0x10]) := by decide +kernel

/-- Rule R136 by hand, head then tail: three bytes use up `R[5..8)`; the register is then 11 22 33 44 55 67 75 8B, its
encryption 55 67 75 8B 11 22 33 44, of which two bytes are used. -/
theorem test_cfbEnc : seen (exec (.cfbEnc ⟨1, 0⟩ ⟨2, 0⟩ 5) (lab .cfb)) (fun t => (t.bytes ⟨2, 0⟩ 5, t.r, t.bytesLeft)) =
    some (some ⟨.ok, 5⟩, [0x67, 0x75, 0x8B, 0x51, 0x62], #v[0x51, 0x62, 0x75, 0x8B, 0x11, 0x22, 0x33, 0x44], 6) := by
  decide +kernel

/-- Rule R136 by hand, head and one full group, in place, decrypting: the register takes the input bytes. -/
theorem test_cfbDec_in_place : seen (exec (.cfbDec ⟨1, 0⟩ ⟨1, 0⟩ 11) (lab .cfb))
      (fun t => (t.bytes ⟨1, 0⟩ 12, t.r, t.bytesLeft)) =
    some (some ⟨.ok, 11⟩, [0x67, 0x75, 0x8B, 0x51, 0x04, 0x04, 0x04, 0x19, 0x2B, 0x39, 0x4F, 12],
      #v[4, 5, 6, 7, 8, 9, 10, 11], 0) := by decide +kernel

/-- Rule R140: the bytes as they stand; `BYTESLEFT` is kept. -/
theorem test_cfbGetiv : seen (exec (.cfbGetiv ⟨3, 32⟩) (lab .cfb)) (fun t => (t.bytes ⟨3, 31⟩ 9, t.bytesLeft)) =
    some (some ⟨.ok, 0⟩, [0, 0x11, 0x22, 0x33, 0x44, 0x55, 0x66, 0x77, 0x88], 3) := by decide +kernel

/-- Rule R139: `BYTESLEFT` is cleared. -/
theorem test_cfbSetiv : seen (exec (.cfbSetiv ⟨1, 8⟩) (lab .cfb)) (fun t => (t.r, t.bytesLeft)) =
    some (some ⟨.ok, 0⟩, #v[9, 10, 11, 12, 13, 14, 15, 16], 0) := by decide +kernel

/-- Rule R100: the zero CipherState repeats words. -/
theorem test_weakkey : seen (exec .weakkey (lab .ecb)) State.life = some (some ⟨.ok, 1⟩, .keyed) := by decide +kernel

/-- Section 10: `WEAKKEY` without an instance. -/
theorem test_weakkey_empty : seen (exec .weakkey bare) State.life = some (some ⟨.illegalState, 0⟩, .empty) := by
  decide +kernel

/-- A known answer that is not one of `SELFTEST`'s: vector K5, in both directions. -/
theorem test_known_answer_K5 :
    KnownAnswer.passes ⟨[0x01, 0x23, 0x45, 0x67, 0x89, 0xAB, 0xCD, 0xEF],
      #v[0x11, 0x11, 0x11, 0x11, 0x11, 0x11, 0x11, 0x11], #v[0x61, 0xF9, 0xC3, 0x80, 0x22, 0x81, 0xB0, 0x96]⟩ = true := by
  rw [KnownAnswer.passes_eq]
  decide +kernel

/-! ### The step -/

/-- The very next step runs a table word put before the machine. -/
theorem test_step_fetches : seen (step (State.reset.withFetchWord 8 0x26)) State.inbox =
    some (some ⟨.illegalState, 0⟩, []) := by decide +kernel

/-- Rule R54: a later command reads what the host wrote. -/
theorem test_host_write : seen (step { bare with inbox := [.writeBuffer ⟨5, 38⟩ [7, 0]] }) (fun t => t.bytes ⟨5, 37⟩ 3) =
    some (none, [0, 7, 0]) := by decide +kernel

/-- A host write past its buffer. -/
theorem test_host_write_outside :
    step { bare with inbox := [.writeBuffer ⟨5, 39⟩ [7, 0]] } = .fault .noSuchBufferByte := rfl

/-- A CFB instance with 5 free bytes used. -/
def cut : State := (lab .cfb).setFreeCount 5

/-- Rule R180, U6: a command cut off by reset leaves no instance, no response and any value in its output window, here the
last 8 bytes of a buffer. -/
theorem test_reset_during : ∃ t, step (cut.setInbox [.resetDuring (encode (.cfbGetiv ⟨2, 32⟩))]) = .next t ∧
    t.life = .empty ∧ t.response = none ∧ t.freeCount = 13 ∧ t.byteAt ⟨2, 39⟩ = Config.freeByte 12 ∧
    t.byteAt ⟨1, 15⟩ = 16 := by
  have hd : decode (encode (.cfbGetiv ⟨2, 32⟩)) = .ok (.cfbGetiv ⟨2, 32⟩) := by decide +kernel
  obtain ⟨u, he⟩ : ∃ u, exec (.cfbGetiv ⟨2, 32⟩) (cut.setInbox []) = .next u := ⟨_, rfl⟩
  have hp : (cut.setInbox []).present ⟨2, 32⟩ 8 = 8 := by decide +kernel
  have hf : ∀ a : Addr, (hostReset ((cut.setInbox []).cutOff (.cfbGetiv ⟨2, 32⟩))).byteAt a =
      ((cut.setInbox []).freeWindow ⟨2, 32⟩ 8).mem.readByte a.cell := fun a => by
    rw [State.cutOff_of_window rfl, State.byteAt, hostReset_mem]
  refine ⟨hostReset ((cut.setInbox []).cutOff (.cfbGetiv ⟨2, 32⟩)), ?_, rfl, rfl, ?_, ?_, ?_⟩
  · rw [step_action (State.setInbox_inbox cut _), State.setInbox_setInbox, act, hostResetDuring_of_next hd he]
  · exact congrArg (5 + ·) hp
  · rw [hf, State.freeWindow_readByte, hp, if_pos (by decide)]
    rfl
  · rw [hf, State.freeWindow_readByte, hp, if_neg (by decide)]
    decide +kernel

/-! ### Memory -/

/-- Writing the value an unlisted byte reads as removes the cell. -/
theorem test_memory_canonical : Memory.writeByte (Memory.writeByte [] 5 7) 5 0 = [] := by decide

/-! ### Witnesses: states and operands that meet the hypotheses of the obligations -/
/-- UnknownCodesAreIllegal: codes on either side, neighbours of one another. -/
theorem witness_UnknownCodesAreIllegal :
    ((0x00 : Descriptor).extractLsb' 0 8).toNat ∉ commandCodes ∧ ((0x01 : Descriptor).extractLsb' 0 8).toNat ∈ commandCodes ∧
    ((0x41 : Descriptor).extractLsb' 0 8).toNat ∈ commandCodes ∧ ((0x42 : Descriptor).extractLsb' 0 8).toNat ∉ commandCodes := by
  decide

theorem witness_DecodeEncodeRoundTrip :
    Instr.wellFormed (.initCfbIv ⟨255, 0xFFFFFFFF⟩ 0xFFFFFFFF ⟨255, 0xFFFFFFFF⟩) = true := by decide

theorem witness_EncodeClearsUnusedBits :
    decode 0x000000000000DEAD000000050000000000001234AB00770F = .ok .cleanup := by decide +kernel

theorem witness_UnusedFieldsAreIgnored :
    (0x0F : Descriptor) ≠ 0x000000000000DEAD000000050000000000001234AB00770F ∧
    (0x0F : Descriptor) &&& usedBits ((0x0F : Descriptor).extractLsb' 0 8).toNat =
      0x000000000000DEAD000000050000000000001234AB00770F &&& usedBits ((0x0F : Descriptor).extractLsb' 0 8).toNat := by
  decide +kernel

theorem witness_StepRunsDecodedCommand :
    ({ lab .cbc with inbox := [.command 0x26, .reset] } : State).inbox = .command 0x26 :: [.reset] ∧
    decode 0x26 = .ok .cbcGetiv64 ∧ decodeTableWord 8 0x26 = some .cbcGetiv64 :=
  ⟨rfl, by decide +kernel, by decide +kernel⟩

/-- ResetCutsOffACommand: each clause: no command, a command with an output window that ends with its buffer, one that has
none, and one without a meaning. -/
theorem witness_ResetCutsOffACommand :
    (({ lab .cbc with inbox := [.resetDuring 0x12] } : State).inbox = .resetDuring 0x12 :: [] ∧
      decode 0x12 = .error (.unknownCode 0x12)) ∧
    (decode (encode (.cbcGetiv ⟨2, 32⟩)) = .ok (.cbcGetiv ⟨2, 32⟩) ∧
      writeWindow (.cbcGetiv ⟨2, 32⟩) = some (⟨2, 32⟩, 8) ∧ 7 < 8 ∧ 32 + 7 < (lab .cbc).sizeOf 2 ∧
      ∃ u, exec (.cbcGetiv ⟨2, 32⟩) { lab .cbc with inbox := [] } = .next u) ∧
    (decode (encode .weakkey) = .ok .weakkey ∧ writeWindow .weakkey = none ∧
      ∃ u, exec .weakkey { lab .cbc with inbox := [] } = .next u) ∧
    (decode (encode (.ecbEnc ⟨1, 0⟩ ⟨1, 4⟩ 8)) = .ok (.ecbEnc ⟨1, 0⟩ ⟨1, 4⟩ 8) ∧
      exec (.ecbEnc ⟨1, 0⟩ ⟨1, 4⟩ 8) { lab .ecb with inbox := [] } = .refused .partialOverlap) :=
  ⟨⟨rfl, by decide +kernel⟩, ⟨by decide +kernel, rfl, by decide, by decide +kernel, _, rfl⟩,
    ⟨by decide +kernel, rfl, _, rfl⟩, by decide +kernel, rfl⟩

/-- StepServesTheHost: each of its four clauses; a write that ends at its buffer's end and one that ends one byte on. -/
theorem witness_StepServesTheHost :
    bare.inbox = [] ∧
    ({ bare with inbox := [.writeBuffer ⟨5, 38⟩ [7, 0]] } : State).fits ⟨5, 38⟩ [(7 : Byte), 0].length ∧
    ¬ ({ bare with inbox := [.writeBuffer ⟨5, 39⟩ [7, 0]] } : State).fits ⟨5, 39⟩ [(7 : Byte), 0].length ∧
    ({ lab .cfb with inbox := [.reset] } : State).inbox = .reset :: [] := by
  refine ⟨rfl, ?_, ?_, rfl⟩ <;> unfold State.fits <;> decide +kernel

/-- EveryCommandGivesAResponse: an error and a success. -/
theorem witness_EveryCommandGivesAResponse :
    exec .cbcGetiv64 bare = .next (bare.failed .illegalState) ∧
    exec .cbcGetiv64 (lab .cbc) = .next ((lab .cbc).setResponse ⟨.ok, Block.pack (lab .cbc).v⟩) := ⟨rfl, rfl⟩

/-- RoundFunction, second clause: the all-zero CipherState. -/
theorem witness_RoundFunction :
    CipherState.zero.sAt 0 (Fin.ofNat 256 ((0xFFFFFFFF : Word).toNat / 2 ^ 24)) = 0 ∧
    CipherState.zero.sAt 1 (Fin.ofNat 256 ((0xFFFFFFFF : Word).toNat / 2 ^ 16)) = 0 ∧
    CipherState.zero.sAt 2 (Fin.ofNat 256 ((0xFFFFFFFF : Word).toNat / 2 ^ 8)) = 0 ∧
    CipherState.zero.sAt 3 (Fin.ofNat 256 (0xFFFFFFFF : Word).toNat) = 0 := by decide +kernel

theorem witness_BlockTransforms :
    (0xFF020304 : Word).toNat =
      (0xFF : Byte).toNat * 2 ^ 24 + (2 : Byte).toNat * 2 ^ 16 + (3 : Byte).toNat * 2 ^ 8 + (4 : Byte).toNat ∧
    (0x050607FF : Word).toNat =
      (5 : Byte).toNat * 2 ^ 24 + (6 : Byte).toNat * 2 ^ 16 + (7 : Byte).toNat * 2 ^ 8 + (0xFF : Byte).toNat := by decide

theorem witness_KeyMixing : 0 < [(0xAA : Byte), 0xBB, 0xCC].length := by decide

/-- EquivalentKeys: the longest all-zero key; seven repetitions of an 8-byte key, 56 bytes. -/
theorem witness_EquivalentKeys :
    56 ≤ 56 ∧ 0 < 7 ∧ (List.replicate 7 [(1 : Byte), 2, 3, 4, 5, 6, 7, 8]).flatten.length ≤ 56 := by decide

/-- InitWithoutRegister, InitWithIvWindow, InitWithPackedIv: each clause of InitRule. A keyed block; a key one byte too long;
a key window, or only the IV window, one byte past its buffer; and windows that end where their buffers end, with keys of 0
and of 56 bytes. -/
theorem witness_InitRule :
    (lab .ecb).life ≠ .empty ∧
    (bare.life = .empty ∧ 56 < 57) ∧
    (56 ≤ 56 ∧ ¬ (bare.fits ⟨1, 0⟩ 41 ∧ ∀ a, some (⟨1, 0⟩ : Addr) = some a → bare.fits a 8)) ∧
    ¬ (bare.fits ⟨1, 0⟩ 40 ∧ ∀ a, some (⟨1, 33⟩ : Addr) = some a → bare.fits a 8) ∧
    (bare.fits ⟨1, 0⟩ 40 ∧ ∀ a, some (⟨1, 32⟩ : Addr) = some a → bare.fits a 8) ∧
    (bare.fits ⟨1, 40⟩ 0 ∧ ∀ a, (none : Option Addr) = some a → bare.fits a 8) ∧
    (State.reset.life = .empty ∧ State.reset.fits ⟨0, 0⟩ 56) := by
  refine ⟨by decide, ⟨rfl, by decide⟩, ⟨by decide, fun h => ?_⟩, fun h => ?_, ⟨?_, ?_⟩, ⟨?_, by simp⟩, rfl, ?_⟩
  · exact absurd h.1 (by unfold State.fits; decide +kernel)
  · exact absurd (h.2 _ rfl) (by unfold State.fits; decide +kernel)
  · unfold State.fits; decide +kernel
  · rintro a ⟨⟩; unfold State.fits; decide +kernel
  · unfold State.fits; decide +kernel
  · unfold State.fits; decide +kernel

/-- `bare` with the first two bytes of buffer 1 also at another place. -/
def moved : State := bare.setMem (bare.mem.write (Addr.cell ⟨7, 38⟩) [1, 2])

theorem witness_KeyWindowIndependence :
    bare.bytes ⟨1, 0⟩ 2 = moved.bytes ⟨7, 38⟩ 2 ∧
    ∃ t t', exec (.initEcb ⟨1, 0⟩ 2) bare = .next t ∧ exec (.initEcb ⟨7, 38⟩ 2) moved = .next t' ∧
      t.response = some ⟨.ok, 0⟩ ∧ t'.response = some ⟨.ok, 0⟩ :=
  ⟨by decide +kernel, _, _, (exec_initEcb _ _ _).trans (State.initCommon_of_checks id (by decide +kernel)),
    (exec_initEcb _ _ _).trans (State.initCommon_of_checks id (by decide +kernel)), rfl, rfl⟩

theorem witness_CleanupWipesEverything :
    bare.life ≠ .keyed ∧ (lab .cfb).life = .keyed ∧ keyLength .weakkey = none ∧ Instr.weakkey ≠ .selftest := by decide

/-- EcbEncrypt, EcbDecrypt, CbcEncrypt, CbcDecrypt, CfbIsOneByteStream: each clause of TransferRule, for each of the six
transfers. No instance; a length that is not whole blocks; an input, or only an output, one byte past its buffer; windows that
share one byte; adjoining windows at the end of a buffer; the same window, a whole buffer, and an empty one at its end. -/
theorem witness_TransferRule : ∀ k ∈ blockTransfers ++ streamTransfers,
    ¬ bare.holds k.mode ∧ (lab k.mode).holds k.mode ∧ (k.blocks = true → 7 % 8 ≠ 0) ∧
    (¬ ((lab k.mode).fits ⟨1, 33⟩ 8 ∧ (lab k.mode).fits ⟨2, 0⟩ 8)) ∧
    (¬ ((lab k.mode).fits ⟨1, 0⟩ 8 ∧ (lab k.mode).fits ⟨2, 33⟩ 8)) ∧
    ((lab k.mode).fits ⟨1, 0⟩ 8 ∧ (lab k.mode).fits ⟨1, 7⟩ 8 ∧ ¬ apartOrSame ⟨1, 0⟩ ⟨1, 7⟩ 8) ∧
    ((lab k.mode).fits ⟨1, 32⟩ 8 ∧ (lab k.mode).fits ⟨1, 24⟩ 8 ∧ apartOrSame ⟨1, 32⟩ ⟨1, 24⟩ 8) ∧
    ((lab k.mode).fits ⟨1, 0⟩ 40 ∧ apartOrSame ⟨1, 0⟩ ⟨1, 0⟩ 40) ∧
    ((lab k.mode).fits ⟨1, 40⟩ 0 ∧ apartOrSame ⟨1, 40⟩ ⟨1, 40⟩ 0) := by
  intro k hk
  have hsize : ∀ b, (lab k.mode).sizeOf b = 40 := fun b => by
    simp [State.sizeOf, lab]
  simp only [State.fits, hsize, State.holds, apartOrSame]
  refine ⟨fun h => Life.noConfusion h.1, ⟨rfl, rfl⟩, fun _ => ?_, ?_⟩ <;> decide

theorem fits_lab (mode : Mode) (w : Addr) (n : Nat) : (lab mode).fits w n ↔ w.off + n ≤ 40 := by
  simp [State.fits, State.sizeOf, lab]

/-- The instance of `lab` is in its mode. -/
theorem holds_lab (mode : Mode) : (lab mode).holds mode := ⟨rfl, rfl⟩

theorem witness_EcbRoundTrip :
    (Instr.ecbEnc, Instr.ecbDec) ∈ [(Instr.ecbEnc, Instr.ecbDec), (Instr.ecbDec, Instr.ecbEnc)] ∧ (lab .ecb).holds .ecb ∧
    16 % 8 = 0 ∧ (lab .ecb).fits ⟨1, 0⟩ 16 ∧ (lab .ecb).fits ⟨2, 24⟩ 16 ∧ apartOrSame ⟨1, 0⟩ ⟨2, 24⟩ 16 ∧
    apartOrSame ⟨2, 24⟩ ⟨2, 24⟩ 16 :=
  ⟨by simp, holds_lab _, rfl, (fits_lab _ _ _).mpr (by decide), (fits_lab _ _ _).mpr (by decide), by
    simp [apartOrSame], .inl rfl⟩

theorem witness_CbcRoundTrip :
    (lab .cbc).holds .cbc ∧ 16 % 8 = 0 ∧ (lab .cbc).fits ⟨1, 0⟩ 16 ∧ (lab .cbc).fits ⟨1, 16⟩ 16 ∧
    apartOrSame ⟨1, 0⟩ ⟨1, 16⟩ 16 ∧ apartOrSame ⟨1, 16⟩ ⟨1, 0⟩ 16 :=
  ⟨holds_lab _, rfl, (fits_lab _ _ _).mpr (by decide), (fits_lab _ _ _).mpr (by decide), by simp [apartOrSame], by
    simp [apartOrSame]⟩

theorem witness_FirstCbcBlockIsEcb :
    ({ lab .cbc with v := zeroBlock } : State).holds .cbc ∧ ({ lab .cbc with v := zeroBlock } : State).v = zeroBlock ∧
    8 % 8 = 0 ∧ 0 < 8 ∧ ({ lab .cbc with v := zeroBlock } : State).fits ⟨1, 0⟩ 8 ∧
    ({ lab .cbc with v := zeroBlock } : State).fits ⟨2, 32⟩ 8 ∧ apartOrSame ⟨1, 0⟩ ⟨2, 32⟩ 8 :=
  ⟨⟨rfl, rfl⟩, rfl, by decide, by decide, (fits_lab .cbc _ _).mpr (by decide), (fits_lab .cbc _ _).mpr (by decide),
    by simp [apartOrSame]⟩

/-- CbcRegisterAsBytes, CbcRegisterAsNumber, CbcAccessorsAgree, CfbRegisterAsBytes: each clause, with a window that ends one
byte past its buffer and one that ends with it. -/
theorem witness_WindowRule : ∀ mode ∈ [Mode.cbc, Mode.cfb],
    ¬ (lab .ecb).holds mode ∧ (lab mode).holds mode ∧ ¬ (lab mode).fits ⟨1, 33⟩ 8 ∧ (lab mode).fits ⟨1, 32⟩ 8 := by
  intro mode hm
  refine ⟨fun h => ?_, holds_lab _, fun h => absurd ((fits_lab _ _ _).mp h) (by decide), (fits_lab _ _ _).mpr (by decide)⟩
  have h2 : Mode.ecb = mode := h.2
  subst h2
  exact absurd hm (by decide)

/-- CfbIsFullBlockFeedback: nine bytes, so that both groups occur. -/
theorem witness_CfbIsFullBlockFeedback :
    ({ lab .cfb with bytesLeft := 0 } : State).holds .cfb ∧ ({ lab .cfb with bytesLeft := 0 } : State).bytesLeft = 0 ∧
    ({ lab .cfb with bytesLeft := 0 } : State).fits ⟨1, 0⟩ 9 ∧ ({ lab .cfb with bytesLeft := 0 } : State).fits ⟨2, 31⟩ 9 ∧
    apartOrSame ⟨1, 0⟩ ⟨2, 31⟩ 9 ∧ (7 < 8 ∧ 7 < 9) ∧ (¬ 8 < 8 ∧ 8 < 9) :=
  ⟨⟨rfl, rfl⟩, rfl, (fits_lab .cfb _ _).mpr (by decide), (fits_lab .cfb _ _).mpr (by decide), by simp [apartOrSame], by
    decide⟩

/-- BytesLeftAfterCfb: each row of Table 45-1 at its edge, entered with 3 and with 7 bytes left. -/
theorem witness_BytesLeftAfterCfb :
    (lab .cfb).holds .cfb ∧ (lab .cfb).bytesLeft.val = 3 ∧ ({ lab .cfb with bytesLeft := 7 } : State).bytesLeft.val ≤ 7 ∧
    (lab .cfb).fits ⟨1, 0⟩ 11 ∧ (lab .cfb).fits ⟨2, 0⟩ 11 ∧ apartOrSame ⟨1, 0⟩ ⟨2, 0⟩ 11 ∧
    3 ≤ 3 ∧ (3 < 11 ∧ (11 - 3) % 8 = 0) ∧ (3 < 4 ∧ (4 - 3) % 8 ≠ 0) :=
  ⟨holds_lab _, rfl, by decide, (fits_lab _ _ _).mpr (by decide), (fits_lab _ _ _).mpr (by decide), by
    simp [apartOrSame], by decide⟩

/-- CfbChunkingInvariance and CfbRoundTrip: a stream of 8 bytes cut in two ways. -/
theorem witness_CfbChunkingInvariance :
    (lab .cfb).holds .cfb ∧ [3, 0, 5].sum = [8].sum ∧ (lab .cfb).fits ⟨1, 0⟩ [3, 0, 5].sum ∧
    (lab .cfb).fits ⟨2, 32⟩ [3, 0, 5].sum ∧ apartOrSame ⟨1, 0⟩ ⟨2, 32⟩ [3, 0, 5].sum ∧
    apartOrSame ⟨2, 32⟩ ⟨2, 32⟩ [3, 0, 5].sum :=
  ⟨holds_lab _, rfl, (fits_lab _ _ _).mpr (by decide), (fits_lab _ _ _).mpr (by decide), by simp [apartOrSame], .inl rfl⟩

theorem witness_BlockChunkingInvariance : ∀ k ∈ blockTransfers,
    (lab k.mode).holds k.mode ∧ (∀ n ∈ [8, 0, 16], n % 8 = 0) ∧ (lab k.mode).fits ⟨1, 0⟩ [8, 0, 16].sum ∧
    (lab k.mode).fits ⟨2, 16⟩ [8, 0, 16].sum ∧ apartOrSame ⟨1, 0⟩ ⟨2, 16⟩ [8, 0, 16].sum :=
  fun _ _ => ⟨holds_lab _, by decide, (fits_lab _ _ _).mpr (by decide), (fits_lab _ _ _).mpr (by decide), by
    simp [apartOrSame]⟩

/-- A CipherState whose S-boxes repeat no word. -/
def counting : CipherState :=
  ⟨Vector.replicate 18 0, Vector.replicate 4 (Vector.ofFn fun i => BitVec.ofNat 32 i.val)⟩

/-- WeakKeyQuery: no instance; a CipherState that repeats a word; one that does not. -/
theorem witness_WeakKeyQuery :
    bare.life ≠ .keyed ∧
    ((lab .ecb).life = .keyed ∧ ∃ k i j, i < j ∧ (lab .ecb).cipher.sAt k i = (lab .ecb).cipher.sAt k j) ∧
    (({ lab .ecb with cipher := counting } : State).life = .keyed ∧
      ∀ k i j, i < j → counting.sAt k i ≠ counting.sAt k j) := by
  refine ⟨by decide, ⟨rfl, 3, 254, 255, by decide, by decide +kernel⟩, rfl, fun k i j h e => ?_⟩
  have hi := i.isLt
  have hj := j.isLt
  have hv : ∀ (x : Fin 256), (counting.sAt k x).toNat = x.val := fun x => by
    have hx := x.isLt
    simp [counting, CipherState.sAt]
    omega
  have := congrArg BitVec.toNat e
  rw [hv, hv] at this
  exact absurd this (by omega)

theorem witness_DiagnosticsAreIdempotent :
    Instr.weakkey ∈ [Instr.weakkey, Instr.selftest] ∧ Instr.selftest ∈ [Instr.weakkey, Instr.selftest] := by decide

/-- OperandErrorsExactlyWhen: accepted commands for which each condition holds and fails. -/
theorem witness_OperandErrorsExactlyWhen :
    accepted (.initEcb ⟨0, 0⟩ 57) bare.life bare.mode ∧ accepted (.ecbEnc ⟨1, 0⟩ ⟨2, 0⟩ 7) (lab .ecb).life (lab .ecb).mode ∧
    accepted (.cfbGetiv ⟨1, 33⟩) (lab .cfb).life (lab .cfb).mode ∧ accepted .selftest bare.life bare.mode ∧
    (∃ n, keyLength (.initEcb ⟨0, 0⟩ 57) = some n ∧ 56 < n) ∧
    (∃ n, blockLength (.ecbEnc ⟨1, 0⟩ ⟨2, 0⟩ 7) = some n ∧ n % 8 ≠ 0) ∧
    (∃ w ∈ windows (.cfbGetiv ⟨1, 33⟩), ¬ (lab .cfb).fits w.1 w.2) :=
  ⟨rfl, ⟨rfl, rfl⟩, ⟨rfl, rfl⟩, trivial, ⟨57, rfl, by decide⟩, ⟨7, rfl, by decide⟩,
    ⟨(⟨1, 33⟩, 8), by simp [windows, readWindows, writeWindow], by rw [fits_lab]; decide⟩⟩

theorem witness_ErrorsHaveNoEffect :
    exec (.ecbEnc ⟨1, 0⟩ ⟨2, 0⟩ 7) (lab .ecb) = .next ((lab .ecb).failed .invalidBlockAlignment) ∧
    ((lab .ecb).failed .invalidBlockAlignment).response = some ⟨.invalidBlockAlignment, 0⟩ ∧
    Status.invalidBlockAlignment ≠ .ok := ⟨rfl, rfl, by decide⟩

theorem witness_InstanceIsImmutable :
    (lab .cbc).life = .keyed ∧ Instr.cbcSetiv64 1 ≠ .cleanup ∧
    exec (.cbcSetiv64 1) (lab .cbc) = .next (((lab .cbc).setV (Block.unpack 1)).setResponse ⟨.ok, 0⟩) :=
  ⟨rfl, by decide, rfl⟩

/-- OnlyTheOutputWindowIsWritten: a command that writes a window and one that writes none. -/
theorem witness_OnlyTheOutputWindowIsWritten :
    (writeWindow (.cbcGetiv ⟨2, 32⟩) = some (⟨2, 32⟩, 8) ∧ ∃ t, exec (.cbcGetiv ⟨2, 32⟩) (lab .cbc) = .next t) ∧
    (writeWindow (.cbcSetiv64 1) = none ∧ ∃ t, exec (.cbcSetiv64 1) (lab .cbc) = .next t) :=
  ⟨⟨rfl, _, rfl⟩, rfl, _, rfl⟩

/-- `lab` in ECB with a byte changed that the command of the next witness does not read. -/
def other : State := (lab .ecb).setMem ((lab .ecb).mem.writeByte (Addr.cell ⟨1, 8⟩) 0xEE)

/-- OutcomeDependsOnReadWindowsOnly: the states differ, next to the window read; a command that goes on and one that is
refused. -/
theorem witness_OutcomeDependsOnReadWindowsOnly :
    (lab .ecb).byteAt ⟨1, 8⟩ ≠ other.byteAt ⟨1, 8⟩ ∧ sameRegisters (lab .ecb) other ∧ other.bufSize = (lab .ecb).bufSize ∧
    (∀ p ∈ readWindows (.ecbEnc ⟨1, 0⟩ ⟨2, 0⟩ 8), other.bytes p.1 p.2 = (lab .ecb).bytes p.1 p.2) ∧
    (∃ t, exec (.ecbEnc ⟨1, 0⟩ ⟨2, 0⟩ 8) (lab .ecb) = .next t ∧ t.response = some ⟨.ok, 8⟩) ∧
    writeWindow (.ecbEnc ⟨1, 0⟩ ⟨2, 0⟩ 8) = some (⟨2, 0⟩, 8) ∧
    exec (.ecbEnc ⟨1, 0⟩ ⟨1, 4⟩ 8) (lab .ecb) = .refused .partialOverlap :=
  ⟨by decide +kernel, ⟨rfl, rfl, rfl, rfl, rfl, rfl⟩, rfl, by decide +kernel, ⟨_, rfl, rfl⟩, rfl, rfl⟩

/-- InPlaceEqualsDisjoint: each way of being disjoint, adjoining windows among them. -/
theorem witness_InPlaceEqualsDisjoint : ∀ k ∈ blockTransfers ++ streamTransfers,
    (lab k.mode).holds k.mode ∧ (k.blocks = true → 8 % 8 = 0) ∧ (lab k.mode).fits ⟨1, 8⟩ 8 ∧ (lab k.mode).fits ⟨1, 16⟩ 8 ∧
    (lab k.mode).fits ⟨1, 0⟩ 8 ∧ (lab k.mode).fits ⟨2, 8⟩ 8 ∧ (8 + 8 ≤ 16) ∧ (0 + 8 ≤ 8) ∧ (1 : BufId) ≠ 2 :=
  fun _ _ => ⟨holds_lab _, fun _ => rfl, (fits_lab _ _ _).mpr (by decide), (fits_lab _ _ _).mpr (by decide),
    (fits_lab _ _ _).mpr (by decide), (fits_lab _ _ _).mpr (by decide), by decide⟩

/-- A keyed state about to answer `CBC_GETIV64`, its cipher state a parameter. -/
def keyed (c : CipherState) : State :=
  { lab .cbc with cipher := c, r := zeroBlock, bytesLeft := 0, inbox := [.command 0x26] }

/-- Holding the schedule of a legal key, it meets rule R20 and its step goes on. -/
theorem keyed_runs (c : CipherState) (hc : ∃ key : List Byte, key.length ≤ 56 ∧ c = keySchedule key) :
    RegistersInv (keyed c) ∧ ∃ t, step (keyed c) = .next t := by
  have hd : decode 0x26 = .ok .cbcGetiv64 := by decide +kernel
  refine ⟨⟨fun h => Life.noConfusion h, fun _ => ⟨fun h => Mode.noConfusion h, hc⟩, fun h => absurd rfl h,
    fun _ => ⟨rfl, rfl⟩, Nat.zero_le 7⟩, ?_⟩
  refine ⟨((keyed c).setInbox []).setResponse ⟨.ok, Block.pack (keyed c).v⟩,
    (step_action (s := keyed c) (a := .command 0x26) (q := []) rfl).trans ?_⟩
  rw [act, hd]
  exact (execCbcGetiv64.eq_1 _).trans ((if_pos rfl).trans (State.respond_eq _ _))

/-- StepKeepsRegistersInv: a keyed state and an empty one, each with a step that goes on. -/
theorem witness_StepKeepsRegistersInv :
    (RegistersInv (keyed (keySchedule [])) ∧ ∃ t, step (keyed (keySchedule [])) = .next t) ∧
    (RegistersInv { bare with inbox := [.reset] } ∧ ∃ t, step { bare with inbox := [.reset] } = .next t) :=
  ⟨keyed_runs (keySchedule []) (Exists.intro [] (And.intro (Nat.zero_le 56) (Eq.refl (keySchedule [])))),
    ⟨fun _ => ⟨rfl, rfl, rfl, rfl, rfl⟩, fun h => Life.noConfusion h, fun _ => rfl, fun _ => ⟨rfl, rfl⟩, by decide⟩, _, rfl⟩

/-- StepKeepsMemoryInv: buffers that hold bytes, and a step that writes one more. -/
theorem witness_StepKeepsMemoryInv :
    MemoryInv { bare with inbox := [.writeBuffer ⟨5, 39⟩ [7]] } ∧
    ∃ t, step { bare with inbox := [.writeBuffer ⟨5, 39⟩ [7]] } = .next t := by
  refine ⟨⟨by decide +kernel, fun c hc => ?_⟩, _, rfl⟩
  have hw : c ∈ Memory.write [] (Addr.cell ⟨1, 0⟩) [1, 2, 3, 4, 5, 6, 7, 8, 9, 10, 11, 12, 13, 14, 15, 16] := by
    simpa only [bare, State.launch, lab] using hc
  rcases Memory.mem_write [] hw with h | h
  · have h1 : Addr.cell ⟨1, 0⟩ = 4294967296 := by decide
    rw [h1] at h
    have h2 : c.1 < 4294967312 := h.2
    refine ⟨⟨1, c.1 - 4294967296⟩, ?_, ?_⟩
    · change c.1 = 1 * 4294967296 + (c.1 - 4294967296)
      omega
    · have h3 : bare.sizeOf 1 = 40 := by decide +kernel
      have h4 : c.1 - 4294967296 < bare.sizeOf 1 := by omega
      simpa only [State.sizeOf] using h4
  · cases h

end Sys2Proof.Tests
end

section
/-! PROOF. The statements about the architectural state (spec/10_state.md): what reset leaves in it, what a command can do
to its registers, and that no command reads the response. -/

namespace Sys2Proof.Machine

open Sys2Proof

/-! ### The zero CipherState -/

@[simp] theorem CipherState.zero_pAt (i : Fin 18) : CipherState.zero.pAt i = 0 := by
  simp [CipherState.zero, CipherState.pAt]

@[simp] theorem CipherState.zero_sAt (k : Fin 4) (i : Fin 256) : CipherState.zero.sAt k i = 0 := by
  simp [CipherState.zero, CipherState.sAt]

/-! ### The register invariants of particular states -/

/-- Rule R20 speaks of the registers alone. -/
theorem RegistersInv.of_sameRegisters {s t : State} (h : sameRegisters s t) (hs : RegistersInv s) : RegistersInv t := by
  obtain ⟨hcipher, hv, hr, hleft, hlife, hmode⟩ := h
  rwa [RegistersInv, hcipher, hv, hr, hleft, hlife, hmode]

/-- An empty block, as `CLEANUP` and reset leave it, meets rule R20. -/
theorem registersInv_wipe (s : State) : RegistersInv s.wipe :=
  ⟨fun _ => ⟨rfl, rfl, rfl, rfl, rfl⟩, fun h => Life.noConfusion h, fun _ => rfl, fun _ => ⟨rfl, rfl⟩, Nat.zero_le 7⟩

theorem registersInv_launch (sizes : Vector (BitVec 32) 256) (mem : Memory) (free : Nat) :
    RegistersInv (State.launch sizes mem free) :=
  (registersInv_wipe State.reset).of_sameRegisters ⟨rfl, rfl, rfl, rfl, rfl, rfl⟩

theorem registersInv_hostReset (s : State) : RegistersInv (hostReset s) :=
  (registersInv_wipe s).of_sameRegisters ⟨rfl, rfl, rfl, rfl, rfl, rfl⟩

theorem memoryInv_of_mem_nil {s : State} (h : s.mem = []) : MemoryInv s := by
  rw [MemoryInv, h]
  exact ⟨rfl, fun _ hc => absurd hc List.not_mem_nil⟩

/-! ### What a command can do to the registers -/

/-- A construction, spelled with the register loads it leaves room for. -/
theorem State.construct_eq_load (s : State) (mode : Mode) (key : Addr) (len : Nat) :
    s.construct mode key len = ((s.construct mode key len).setV zeroBlock).setCfb zeroBlock 0 := by
  simp only [State.construct_eq, State.setV, State.setCfb]

theorem State.construct_setV_eq_load (s : State) (mode : Mode) (key : Addr) (len : Nat) (v : Block) :
    (s.construct mode key len).setV v = ((s.construct mode key len).setV v).setCfb zeroBlock 0 := by
  simp only [State.construct_eq, State.setV, State.setCfb]

theorem State.construct_setCfb_eq_load (s : State) (mode : Mode) (key : Addr) (len : Nat) (r : Block) :
    (s.construct mode key len).setCfb r 0 = ((s.construct mode key len).setV zeroBlock).setCfb r 0 := by
  simp only [State.construct_eq, State.setV, State.setCfb]

/-- What a command leaves when it goes on, its response included: which registers it may have written, and in which state
of the block (rules R12, R15 to R19). -/
inductive RegisterEffect (s : State) (i : Instr) : State → Prop
  /-- No register is written: an error, a query, or a command that writes the buffers only. -/
  | kept (m : Memory) (x : Response) : RegisterEffect s i ((s.setMem m).setResponse x)
  /-- A CBC command writes `V`. -/
  | chained (v : Block) (m : Memory) (x : Response) (hs : s.holds .cbc) :
    RegisterEffect s i (((s.setV v).setMem m).setResponse x)
  /-- A CFB command writes `R` and `BYTESLEFT`, and the latter does not become 8. -/
  | streamed (r : Block) (n : Fin 9) (m : Memory) (x : Response) (hs : s.holds .cfb)
    (hn : s.bytesLeft.val ≤ 7 → n.val ≤ 7) : RegisterEffect s i (((s.setCfb r n).setMem m).setResponse x)
  /-- An `INIT_*` keys an empty block, and loads at most the register of its mode. -/
  | constructed (mode : Mode) (key : Addr) (len : Nat) (v r : Block) (x : Response) (hs : s.life = .empty)
    (hmode : mode ≠ .none) (hlen : len ≤ Config.keyMax) (hv : mode ≠ .cbc → v = zeroBlock)
    (hr : mode ≠ .cfb → r = zeroBlock) :
    RegisterEffect s i ((((s.construct mode key len).setV v).setCfb r 0).setResponse x)
  /-- `CLEANUP` empties the block. -/
  | wiped (x : Response) (hi : i = .cleanup) : RegisterEffect s i (s.wipe.setResponse x)

namespace RegisterEffect

variable {s t : State} {i : Instr}

/-- A command that only answers. -/
theorem answered (x : Response) : RegisterEffect s i (s.setResponse x) := .kept s.mem x

theorem of_raise {e : Status} (h : s.raise e = .next t) : RegisterEffect s i t := by
  cases h
  exact answered _

theorem of_respond {v : Quad} (h : s.respond v = .next t) : RegisterEffect s i t := by
  cases h
  exact answered _

/-- A construction has the effect of its register load, which writes `v` and `r`. -/
theorem of_initCommon {mode : Mode} {key : Addr} {len : Nat} {iv : Option Addr} {load : State → State} {v r : Block}
    (h : s.initCommon mode key len iv load = .next t)
    (hload : load (s.construct mode key len) = ((s.construct mode key len).setV v).setCfb r 0) (hmode : mode ≠ .none)
    (hv : mode ≠ .cbc → v = zeroBlock) (hr : mode ≠ .cfb → r = zeroBlock) : RegisterEffect s i t := by
  obtain ⟨e, -, rfl⟩ | ⟨hc, rfl⟩ := State.initCommon_cases h
  · exact answered _
  · obtain ⟨hlife, hlen, -, -⟩ := (s.initChecks_eq_none key len iv).mp hc
    rw [hload]
    exact .constructed mode key len v r _ hlife hmode hlen hv hr

/-- A transfer has the effect of its run, which only a block keyed in its mode reaches. -/
theorem of_transfer {mode : Mode} {blocks : Bool} {inp out : Addr} {len : Nat} {run : State → State}
    (h : s.transfer mode blocks inp out len run = .next t)
    (hrun : ∀ x, s.holds mode → RegisterEffect s i ((run s).setResponse x)) : RegisterEffect s i t := by
  obtain ⟨e, -, rfl⟩ | ⟨hc, -, rfl⟩ := State.transfer_cases h
  · exact answered _
  · exact hrun _ ((s.xferChecks_eq_none mode blocks inp out len).mp hc).1

/-- A register command with a window has the effect of its own write. -/
theorem of_ivChecks {mode : Mode} {w : Addr} {u : State}
    (h : (match s.ivChecks mode w with | some e => s.raise e | none => u.respond 0) = .next t)
    (hu : ∀ x, s.holds mode → RegisterEffect s i (u.setResponse x)) : RegisterEffect s i t := by
  cases hc : s.ivChecks mode w with
  | some e =>
    rw [hc] at h
    exact of_raise h
  | none =>
    rw [hc] at h
    cases h
    exact hu _ ((s.ivChecks_eq_none mode w).mp hc).1

/-- The invariants of rule R20 outlive every effect a command can have. -/
theorem keeps_registersInv (h : RegisterEffect s i t) (hs : RegistersInv s) : RegistersInv t := by
  cases h with
  | kept => exact hs.of_sameRegisters ⟨rfl, rfl, rfl, rfl, rfl, rfl⟩
  | chained v m x hcbc =>
    obtain ⟨-, hkeyed, -, hcfb, hleft⟩ := hs
    obtain ⟨hlife, hmode⟩ := hcbc
    exact ⟨fun h => Life.noConfusion (hlife.symm.trans h), hkeyed, fun h => absurd hmode h, hcfb, hleft⟩
  | streamed r n m x hcfb hn =>
    obtain ⟨-, hkeyed, hv, -, hleft⟩ := hs
    obtain ⟨hlife, hmode⟩ := hcfb
    exact ⟨fun h => Life.noConfusion (hlife.symm.trans h), hkeyed, hv, fun h => absurd hmode h, hn hleft⟩
  | constructed mode key len v r x hlife hmode hlen hv hr =>
    have hkey : (s.mem.read key.cell len).length ≤ Config.keyMax := by rwa [Memory.read_length]
    exact ⟨fun h => Life.noConfusion h, fun _ => ⟨hmode, s.mem.read key.cell len, hkey, rfl⟩, hv, fun h => ⟨hr h, rfl⟩,
      Nat.zero_le 7⟩
  | wiped => exact (registersInv_wipe s).of_sameRegisters ⟨rfl, rfl, rfl, rfl, rfl, rfl⟩

/-- No effect but that of `CLEANUP` reaches the CipherState, `LIFE` or `MODE` of a keyed block. -/
theorem keeps_cipher_life_mode (h : RegisterEffect s i t) (hs : s.life = .keyed) (hi : i ≠ .cleanup) :
    t.cipher = s.cipher ∧ t.life = s.life ∧ t.mode = s.mode := by
  cases h with
  | kept | chained | streamed => exact ⟨rfl, rfl, rfl⟩
  | constructed _ _ _ _ _ _ hempty => exact Life.noConfusion (hempty.symm.trans hs)
  | wiped _ hcleanup => exact absurd hcleanup hi

end RegisterEffect

/-- A CFB transfer writes `R`, `BYTESLEFT` and the buffers; of a fresh keystream block it uses at least one byte, so
`BYTESLEFT` does not become 8 (Table 45-1). -/
theorem State.exists_cfbRun_eq (s : State) (dec : Bool) (a b len : Nat) :
    ∃ r n m, s.cfbRun dec a b len = (s.setCfb r n).setMem m ∧ (s.bytesLeft.val ≤ 7 → n.val ≤ 7) := by
  rw [State.cfbRun]
  simp only
  split
  · exact ⟨_, _, _, rfl, fun h => by rw [Fin.val_ofNat]; omega⟩
  · exact ⟨_, _, _, rfl, fun _ => by rw [Fin.val_ofNat]; omega⟩

/-- What a CFB transfer that runs does to the registers. -/
theorem RegisterEffect.of_cfbRun {s : State} {i : Instr} (dec : Bool) (a b len : Nat) (x : Response)
    (hs : s.holds .cfb) : RegisterEffect s i ((s.cfbRun dec a b len).setResponse x) := by
  obtain ⟨r, n, m, heq, hn⟩ := s.exists_cfbRun_eq dec a b len
  rw [heq]
  exact .streamed r n m x hs hn

open RegisterEffect in
/-- Every command that goes on has one of these effects on the registers. -/
theorem exec_registerEffect {i : Instr} {s t : State} (h : exec i s = .next t) : RegisterEffect s i t := by
  cases i with
  | initEcb key len =>
    rw [exec_initEcb] at h
    exact of_initCommon h (s.construct_eq_load _ _ _) (by decide) (fun _ => rfl) (fun _ => rfl)
  | initCbc key len =>
    rw [exec_initCbc] at h
    exact of_initCommon h (s.construct_eq_load _ _ _) (by decide) (fun _ => rfl) (fun _ => rfl)
  | initCbcIv key len iv =>
    rw [exec_initCbcIv] at h
    exact of_initCommon h (s.construct_setV_eq_load _ _ _ _) (by decide) (fun h => absurd rfl h) (fun _ => rfl)
  | initCbcIv64 key len imm64 =>
    rw [exec_initCbcIv64] at h
    exact of_initCommon h (s.construct_setV_eq_load _ _ _ _) (by decide) (fun h => absurd rfl h) (fun _ => rfl)
  | initCfb key len =>
    rw [exec_initCfb] at h
    exact of_initCommon h (s.construct_eq_load _ _ _) (by decide) (fun _ => rfl) (fun _ => rfl)
  | initCfbIv key len iv =>
    rw [exec_initCfbIv] at h
    exact of_initCommon h (s.construct_setCfb_eq_load _ _ _ _) (by decide) (fun _ => rfl) (fun h => absurd rfl h)
  | cleanup =>
    rw [exec, execCleanup] at h
    split at h
    · exact of_raise h
    · cases h
      exact .wiped _ rfl
  | ecbEnc inp out len =>
    rw [exec_ecbEnc] at h
    exact of_transfer h fun x _ => .kept _ x
  | ecbDec inp out len =>
    rw [exec_ecbDec] at h
    exact of_transfer h fun x _ => .kept _ x
  | cbcEnc inp out len =>
    rw [exec_cbcEnc] at h
    exact of_transfer h fun x hs => .chained _ _ x hs
  | cbcDec inp out len =>
    rw [exec_cbcDec] at h
    exact of_transfer h fun x hs => .chained _ _ x hs
  | cfbEnc inp out len =>
    rw [exec_cfbEnc] at h
    exact of_transfer h (of_cfbRun false _ _ _)
  | cfbDec inp out len =>
    rw [exec_cfbDec] at h
    exact of_transfer h (of_cfbRun true _ _ _)
  | cbcGetiv out =>
    rw [exec, execCbcGetiv] at h
    exact of_ivChecks h fun x _ => .kept _ x
  | cfbGetiv out =>
    rw [exec, execCfbGetiv] at h
    exact of_ivChecks h fun x _ => .kept _ x
  | cbcSetiv inp =>
    rw [exec, execCbcSetiv] at h
    exact of_ivChecks h fun x hs => .chained (s.mem.readBlock inp.cell) s.mem x hs
  | cfbSetiv inp =>
    rw [exec, execCfbSetiv] at h
    exact of_ivChecks h fun x hs => .streamed (s.mem.readBlock inp.cell) 0 s.mem x hs fun _ => Nat.zero_le 7
  | cbcGetiv64 =>
    rw [exec, execCbcGetiv64] at h
    split at h
    · exact of_respond h
    · exact of_raise h
  | cbcSetiv64 imm64 =>
    rw [exec, execCbcSetiv64] at h
    split at h
    · rename_i hs
      cases h
      exact .chained (Block.unpack imm64) s.mem _ ((s.holds_iff .cbc).mpr hs)
    · exact of_raise h
  | weakkey =>
    rw [exec, execWeakkey] at h
    split at h
    · exact of_raise h
    · exact of_respond h
  | selftest => exact of_respond h

/-! ### Every step keeps the register invariants -/

theorem exec_keeps_registersInv {i : Instr} {s t : State} (hs : RegistersInv s) (h : exec i s = .next t) :
    RegistersInv t :=
  (exec_registerEffect h).keeps_registersInv hs

theorem hostResetDuring_registersInv {d : Descriptor} {s t : State} (h : hostResetDuring d s = .next t) :
    RegistersInv t := by
  obtain ⟨e, -, rfl⟩ | ⟨i, u, -, -, rfl⟩ := hostResetDuring_cases h
  · exact registersInv_hostReset s
  · exact registersInv_hostReset (s.cutOff i)

theorem act_keeps_registersInv {a : HostAction} {s t : State} (hs : RegistersInv s) (h : act a s = .next t) :
    RegistersInv t := by
  obtain ⟨d, i, -, -, he⟩ | ⟨d, e, -, -, rfl⟩ | ⟨w, xs, -, -, rfl⟩ | ⟨-, rfl⟩ | ⟨d, -, hd⟩ := act_cases h
  · exact exec_keeps_registersInv hs he
  · exact hs.of_sameRegisters ⟨rfl, rfl, rfl, rfl, rfl, rfl⟩
  · exact hs.of_sameRegisters ⟨rfl, rfl, rfl, rfl, rfl, rfl⟩
  · exact registersInv_hostReset s
  · exact hostResetDuring_registersInv hd

theorem step_keeps_registersInv {s t : State} (hs : RegistersInv s) (h : step s = .next t) : RegistersInv t := by
  obtain ⟨-, rfl⟩ | ⟨a, q, -, ha⟩ := step_cases h
  · exact hs
  · exact act_keeps_registersInv (s := s.setInbox q) (hs.of_sameRegisters ⟨rfl, rfl, rfl, rfl, rfl, rfl⟩) ha

/-! ### The earlier response is not read -/

section Response

variable (s : State) (r : Option Response)

/-- A construction whose register load ignores the response ignores it too. -/
theorem State.initCommon_response {mode : Mode} {key : Addr} {len : Nat} {iv : Option Addr} {load : State → State}
    (hload : ∀ u : State, (load { u with response := r }).respond 0 = (load u).respond 0) :
    State.initCommon { s with response := r } mode key len iv load = s.initCommon mode key len iv load := by
  have hchecks : State.initChecks { s with response := r } key len iv = s.initChecks key len iv := rfl
  rw [State.initCommon, State.initCommon, hchecks]
  cases s.initChecks key len iv with
  | some e => rfl
  | none => exact hload (s.construct mode key len)

/-- A transfer whose run ignores the response ignores it too. -/
theorem State.transfer_response {mode : Mode} {blocks : Bool} {inp out : Addr} {len : Nat} {run : State → State}
    (hrun : ∀ v, (run { s with response := r }).respond v = (run s).respond v) :
    State.transfer { s with response := r } mode blocks inp out len run = s.transfer mode blocks inp out len run := by
  have hchecks : State.xferChecks { s with response := r } mode blocks inp out len =
      s.xferChecks mode blocks inp out len := rfl
  rw [State.transfer, State.transfer, hchecks, hrun]
  cases s.xferChecks mode blocks inp out len <;> rfl

/-- A CFB transfer works on `R`, `BYTESLEFT` and the buffers, and its response takes the place of the earlier one. -/
theorem State.cfbRun_response (dec : Bool) (a b len : Nat) (v : Quad) :
    (State.cfbRun { s with response := r } dec a b len).respond v = (s.cfbRun dec a b len).respond v := by
  simp only [State.cfbRun]
  split <;> rfl

/-- No check reads the response, and `respond` and `raise` write theirs over it (rule R61). -/
theorem exec_response (i : Instr) : exec i { s with response := r } = exec i s := by
  cases i with
  | initEcb | initCbc | initCbcIv | initCbcIv64 | initCfb | initCfbIv =>
    simp only [exec_initEcb, exec_initCbc, exec_initCbcIv, exec_initCbcIv64, exec_initCfb, exec_initCfbIv]
    exact s.initCommon_response r fun _ => rfl
  | ecbEnc | ecbDec | cbcEnc | cbcDec =>
    simp only [exec_ecbEnc, exec_ecbDec, exec_cbcEnc, exec_cbcDec]
    exact s.transfer_response r fun _ => rfl
  | cfbEnc | cfbDec =>
    simp only [exec_cfbEnc, exec_cfbDec]
    exact s.transfer_response r (s.cfbRun_response r _ _ _ _)
  | cbcGetiv | cbcSetiv | cfbGetiv | cfbSetiv | cbcGetiv64 | cbcSetiv64 | cleanup | weakkey | selftest => rfl

end Response

/-! ### The statements -/

/-- Settles O54: a command has one of the effects of `RegisterEffect`, and every other action of the host leaves the
registers alone or resets them. -/
theorem stepKeepsRegistersInv : Obligations.StepKeepsRegistersInv :=
  fun _ _ hs h => step_keeps_registersInv hs h

/-- Settles O10, command by command over the shared shapes. -/
theorem earlierResponseIsNeverRead : Obligations.EarlierResponseIsNeverRead :=
  fun i s r => exec_response s r i

/-- Settles O50: of the effects in `RegisterEffect` only a construction, which needs an empty block, and `CLEANUP` write
the CipherState, `LIFE` or `MODE`. -/
theorem instanceIsImmutable : Obligations.InstanceIsImmutable :=
  fun _ _ _ hs hi h => (exec_registerEffect h).keeps_cipher_life_mode hs hi

/-- Settles O8: the CipherState is the zero one and both registers are the zero block. -/
theorem resetClearsEveryElement : Obligations.ResetClearsEveryElement :=
  fun _ _ _ => ⟨rfl, rfl, CipherState.zero_pAt, CipherState.zero_sAt,
    fun i => ⟨zeroBlock_getElem i i.isLt, zeroBlock_getElem i i.isLt⟩, rfl, rfl⟩

/-- Settles O55: a launch has the registers of a wiped block. -/
theorem launchMeetsRegistersInv : Obligations.LaunchMeetsRegistersInv := registersInv_launch

/-- Settles O57: the reset state is a launch, and its memory lists no byte. -/
theorem resetMeetsInvariants : Obligations.ResetMeetsInvariants :=
  ⟨registersInv_launch State.reset.bufSize State.reset.mem State.reset.freeCount, memoryInv_of_mem_nil rfl⟩

end Sys2Proof.Machine
end

section
/-! PROOF. The check values of the constant tables (spec/11_pi_tables.md rules R32, R33). The tables are literals, so
each check value is an evaluation. That no word repeats in a table is an evaluation too, once the pairs to compare are
cut down to those with the same low hexadecimal digit. -/

namespace Sys2Proof.Machine

open Sys2Proof

/-- Equal elements lie in the same fibre of `f`, so it is enough that no fibre has a repetition. -/
theorem nodup_of_nodup_fibres {α β : Type*} [DecidableEq β] {l : List α} (f : α → β)
    (h : ∀ c, (l.filter (f · = c)).Nodup) : l.Nodup := by
  classical
  rw [List.nodup_iff_count_le_one]
  intro a
  calc l.count a = (l.filter (f · = f a)).count a := (List.count_filter (by simp)).symm
    _ ≤ 1 := List.nodup_iff_count_le_one.mp (h (f a)) a

/-- The low hexadecimal digit of a word. -/
def lowDigit (w : Word) : Fin 16 := Fin.ofNat 16 w.toNat

theorem piS1_nodup : piS1.toList.Nodup := nodup_of_nodup_fibres lowDigit (by decide +kernel)

theorem piS2_nodup : piS2.toList.Nodup := nodup_of_nodup_fibres lowDigit (by decide +kernel)

theorem piS3_nodup : piS3.toList.Nodup := nodup_of_nodup_fibres lowDigit (by decide +kernel)

theorem piS4_nodup : piS4.toList.Nodup := nodup_of_nodup_fibres lowDigit (by decide +kernel)

/-- Settles O16: the first and last words are read off the tables, the exclusive-ors and sums are evaluated, and the
words of an S-box table are compared within each class of `lowDigit`. -/
theorem constantTablesCheck : Obligations.ConstantTablesCheck :=
  ⟨⟨rfl, rfl, by decide, by decide⟩,
    ⟨rfl, rfl, by decide +kernel, by decide +kernel⟩,
    ⟨rfl, rfl, by decide +kernel, by decide +kernel⟩,
    ⟨rfl, rfl, by decide +kernel, by decide +kernel⟩,
    ⟨rfl, rfl, by decide +kernel, by decide +kernel⟩,
    piS1_nodup, piS2_nodup, piS3_nodup, piS4_nodup⟩

end Sys2Proof.Machine
end

section
/-! PROOF. A transfer as a function: what each of the six leaves in the registers and puts into its output window
depends on the registers and the input bytes alone, wherever the output window lies (spec/20_memory.md rules R48 to R50). -/

namespace Sys2Proof.Machine

open Sys2Proof

/-! ### The registers as one value -/

/-- The elements of Table 10-1. -/
structure Registers where
  cipher : CipherState
  v : Block
  r : Block
  bytesLeft : Fin 9
  life : Life
  mode : Mode

/-- The registers of a state. -/
def State.registers (s : State) : Registers := ⟨s.cipher, s.v, s.r, s.bytesLeft, s.life, s.mode⟩

/-- The state with the registers of `x`. -/
def State.setRegisters (s : State) (x : Registers) : State :=
  { s with cipher := x.cipher, v := x.v, r := x.r, bytesLeft := x.bytesLeft, life := x.life, mode := x.mode }

@[simp] theorem State.registers_setRegisters (s : State) (x : Registers) : (s.setRegisters x).registers = x := rfl
@[simp] theorem State.registers_setMem (s : State) (m : Memory) : (s.setMem m).registers = s.registers := rfl
@[simp] theorem State.registers_setResponse (s : State) (x : Response) :
    (s.setResponse x).registers = s.registers := rfl

theorem sameRegisters_iff {s t : State} : sameRegisters s t ↔ t.registers = s.registers := by
  simp only [sameRegisters, State.registers, Registers.mk.injEq]

/-! ### Bytes read and written -/

/-- The bytes just written are read back. -/
theorem Memory.read_write_self (m : Memory) (k : Nat) (xs : List Byte) : (m.write k xs).read k xs.length = xs := by
  refine List.ext_getElem (Memory.read_length _ _ _) fun i h hi => ?_
  rw [Memory.getElem_read, Memory.readByte_write, if_pos (by omega), Nat.add_sub_cancel_left,
    List.getD_eq_getElem _ _ hi]

theorem Memory.drop_read (m : Memory) (k n j : Nat) : (m.read k (n + j)).drop j = m.read (k + j) n := by
  rw [Nat.add_comm, Memory.read_add, List.drop_left' (Memory.read_length _ _ _)]

/-- The block of the first eight bytes of a list. -/
def Block.ofBytes (xs : List Byte) : Block := Vector.ofFn fun i => xs.getD i.val 0

theorem Block.ofBytes_read (m : Memory) (k : Nat) {n : Nat} (h : 8 ≤ n) :
    Block.ofBytes (m.read k n) = m.readBlock k := by
  apply Block.ext8
  intro i hi
  have hlen : i < (m.read k n).length := by rw [Memory.read_length]; omega
  simp only [Block.ofBytes, Vector.getElem_ofFn, Memory.readBlock_getElem]
  rw [List.getD_eq_getElem _ _ hlen, Memory.getElem_read]

/-- Writing block 0 of the output leaves the later input bytes alone. -/
theorem Ranges.read_laterBlocks {a b n : Nat} (h : Ranges a b (8 * (n + 1))) (m : Memory) (x : Block) :
    (m.writeBlock b x).read (a + 8) (8 * n) = m.read (a + 8) (8 * n) := by
  apply List.map_congr_left
  intro i hi
  have := List.mem_range.mp hi
  apply Memory.readByte_writeBlock_outside
  unfold Ranges at h
  omega

/-! ### Block transfers -/

/-- `n` blocks of a list of bytes put through `f`, which gives the next chain value and the output block of a chain
value and an input block. -/
def blockChain (f : Block → Block → Block × Block) : Nat → Block → List Byte → Block × List Byte
  | 0, v, _ => (v, [])
  | n + 1, v, xs =>
    let y := f v (Block.ofBytes xs)
    let z := blockChain f n y.1 (xs.drop 8)
    (z.1, y.2.toList ++ z.2)

theorem blockChain_length (f : Block → Block → Block × Block) (n : Nat) (v : Block) (xs : List Byte) :
    (blockChain f n v xs).2.length = 8 * n := by
  induction n generalizing v xs with
  | zero => rfl
  | succ n ih =>
    rw [blockChain, List.length_append, ih, Vector.length_toList]
    omega

theorem blockChain_length_of_whole (f : Block → Block → Block × Block) (v : Block) {xs : List Byte}
    (h : xs.length % 8 = 0) : (blockChain f (xs.length / 8) v xs).2.length = xs.length := by
  rw [blockChain_length]
  omega

/-- Over ranges that do not overlap partially the block loop is the chain of the input bytes. -/
theorem CbcRun.blocks_eq_blockChain {stepAt : Nat → Nat → CbcRun → CbcRun} {f : Block → Block → Block × Block}
    (hf : ∀ a b x, stepAt a b x =
      ⟨(f x.v (x.mem.readBlock a)).1, x.mem.writeBlock b (f x.v (x.mem.readBlock a)).2⟩)
    (n a b : Nat) (x : CbcRun) (hr : Ranges a b (8 * n)) :
    CbcRun.blocks stepAt n a b x =
      ⟨(blockChain f n x.v (x.mem.read a (8 * n))).1, x.mem.write b (blockChain f n x.v (x.mem.read a (8 * n))).2⟩ := by
  induction n generalizing a b x with
  | zero => rfl
  | succ n ih =>
    rw [CbcRun.blocks, ih _ _ _ hr.tail, hf, hr.read_laterBlocks, blockChain, Block.ofBytes_read _ _ (by omega),
      Nat.mul_succ, Memory.drop_read, Memory.write_append, Vector.length_toList]
    rfl

/-- The loop of ECB is that of a chain whose value stays. -/
theorem Memory.mapBlocks_eq_blocks (g : Block → Block) (n a b : Nat) (v : Block) (m : Memory) :
    m.mapBlocks g n a b =
      (CbcRun.blocks (fun a b x => ⟨x.v, x.mem.writeBlock b (g (x.mem.readBlock a))⟩) n a b ⟨v, m⟩).mem := by
  induction n generalizing a b m with
  | zero => rfl
  | succ n ih => exact ih _ _ _

/-! ### The six transfers -/

/-- ECB in the direction `g`: no register changes. -/
def ecbFunction (g : CipherState → Block → Block) (x : Registers) (xs : List Byte) : Registers × List Byte :=
  (x, (blockChain (fun v b => (v, g x.cipher b)) (xs.length / 8) x.v xs).2)

/-- CBC with the block function `f`: `V` takes the last chain value. -/
def cbcFunction (f : CipherState → Block → Block → Block × Block) (x : Registers) (xs : List Byte) :
    Registers × List Byte :=
  let z := blockChain (f x.cipher) (xs.length / 8) x.v xs
  ({ x with v := z.1 }, z.2)

/-- One block of `CBC_ENC` (rule R120): the ciphertext block is the output and the next chain value. -/
def cbcEncBlock (c : CipherState) (v b : Block) : Block × Block :=
  let y := c.encBlock (Block.xor b v)
  (y, y)

/-- One block of `CBC_DEC` (rule R121): the ciphertext block is the next chain value. -/
def cbcDecBlock (c : CipherState) (v b : Block) : Block × Block := (b, Block.xor (c.decBlock b) v)

/-- CFB: the byte stream of rule R135. -/
def cfbFunction (dec : Bool) (x : Registers) (xs : List Byte) : Registers × List Byte :=
  let z := CfbRegister.after x.cipher dec ⟨x.r, x.bytesLeft.val⟩ xs
  ({ x with r := z.r, bytesLeft := Fin.ofNat 9 z.left },
    CfbRegister.stream x.cipher dec ⟨x.r, x.bytesLeft.val⟩ xs)

/-- The transfer's run gives its registers and its output bytes by the function `f` of the registers and the input
bytes. -/
structure TransferKind.Computes (k : TransferKind) (run : Addr → Addr → Nat → State → State)
    (f : Registers → List Byte → Registers × List Byte) : Prop where
  reads : ∀ inp out len, readWindows (k.cmd inp out len) = [(inp, len)]
  writes : ∀ inp out len, writeWindow (k.cmd inp out len) = some (out, len)
  exec_eq : ∀ inp out len s, exec (k.cmd inp out len) s = s.transfer k.mode k.blocks inp out len (run inp out len)
  length_eq : ∀ x xs, (k.blocks = true → xs.length % 8 = 0) → (f x xs).2.length = xs.length
  run_eq : ∀ inp out len (s : State), (k.blocks = true → len % 8 = 0) → Ranges inp.cell out.cell len →
    run inp out len s = (s.setRegisters (f s.registers (s.bytes inp len)).1).setMem
      (s.mem.write out.cell (f s.registers (s.bytes inp len)).2)

theorem State.bytes_length (s : State) (w : Addr) (n : Nat) : (s.bytes w n).length = n := by
  rw [State.bytes_eq, Memory.read_length]

/-- A block transfer works on `len / 8` blocks, which are the whole input. -/
theorem exists_eq_eight_mul {len : Nat} (h : len % 8 = 0) : ∃ n, len = 8 * n ∧ len / 8 = n :=
  ⟨len / 8, by omega, rfl⟩

namespace TransferKind.Computes

variable {cmd : Addr → Addr → Nat → Instr} (hreads : ∀ inp out len, readWindows (cmd inp out len) = [(inp, len)])
  (hwrites : ∀ inp out len, writeWindow (cmd inp out len) = some (out, len))
include hreads hwrites

theorem ecb (g : CipherState → Block → Block)
    (hexec : ∀ inp out len s, exec (cmd inp out len) s = s.transfer .ecb true inp out len fun s =>
      s.setMem (s.mem.mapBlocks (g s.cipher) (len / 8) inp.cell out.cell)) :
    Computes ⟨cmd, .ecb, true⟩
      (fun inp out len s => s.setMem (s.mem.mapBlocks (g s.cipher) (len / 8) inp.cell out.cell)) (ecbFunction g) where
  reads := hreads
  writes := hwrites
  exec_eq := hexec
  length_eq _ _ h := blockChain_length_of_whole _ _ (h rfl)
  run_eq inp out len s h hr := by
    obtain ⟨n, rfl, hn⟩ := exists_eq_eight_mul (h rfl)
    rw [ecbFunction, State.bytes_length, hn, State.bytes_eq, Memory.mapBlocks_eq_blocks _ _ _ _ s.v,
      CbcRun.blocks_eq_blockChain (f := fun v b => (v, g s.cipher b)) (fun _ _ _ => rfl) _ _ _ _ hr]
    rfl

theorem cbc (stepAt : CipherState → Nat → Nat → CbcRun → CbcRun) (f : CipherState → Block → Block → Block × Block)
    (hstep : ∀ c a b x, stepAt c a b x =
      ⟨(f c x.v (x.mem.readBlock a)).1, x.mem.writeBlock b (f c x.v (x.mem.readBlock a)).2⟩)
    (hexec : ∀ inp out len s, exec (cmd inp out len) s = s.transfer .cbc true inp out len fun s =>
      s.setCbcRun (CbcRun.blocks (stepAt s.cipher) (len / 8) inp.cell out.cell ⟨s.v, s.mem⟩)) :
    Computes ⟨cmd, .cbc, true⟩
      (fun inp out len s => s.setCbcRun (CbcRun.blocks (stepAt s.cipher) (len / 8) inp.cell out.cell ⟨s.v, s.mem⟩))
      (cbcFunction f) where
  reads := hreads
  writes := hwrites
  exec_eq := hexec
  length_eq _ _ h := blockChain_length_of_whole _ _ (h rfl)
  run_eq inp out len s h hr := by
    obtain ⟨n, rfl, hn⟩ := exists_eq_eight_mul (h rfl)
    rw [cbcFunction, State.bytes_length, hn, State.bytes_eq,
      CbcRun.blocks_eq_blockChain (hstep s.cipher) _ _ _ _ hr]
    rfl

theorem cfb (dec : Bool)
    (hexec : ∀ inp out len s, exec (cmd inp out len) s = s.transfer .cfb false inp out len fun s =>
      s.cfbRun dec inp.cell out.cell len) :
    Computes ⟨cmd, .cfb, false⟩ (fun inp out len s => s.cfbRun dec inp.cell out.cell len) (cfbFunction dec) where
  reads := hreads
  writes := hwrites
  exec_eq := hexec
  length_eq _ _ _ := CfbRegister.stream_length _ _ _ _
  run_eq inp out len s _ hr := by
    rw [s.cfbRun_eq _ _ _ _ hr, ← State.bytes_eq]
    rfl

end TransferKind.Computes

open TransferKind.Computes in
/-- Each transfer computes a function of the registers and the input bytes. -/
theorem exists_computes {k : TransferKind} (hk : k ∈ blockTransfers ++ streamTransfers) :
    ∃ run f, k.Computes run f := by
  simp only [blockTransfers, streamTransfers, List.cons_append, List.nil_append, List.mem_cons, List.not_mem_nil,
    or_false] at hk
  rcases hk with rfl | rfl | rfl | rfl | rfl | rfl
  · exact ⟨_, _, ecb (fun _ _ _ => rfl) (fun _ _ _ => rfl) CipherState.encBlock exec_ecbEnc⟩
  · exact ⟨_, _, ecb (fun _ _ _ => rfl) (fun _ _ _ => rfl) CipherState.decBlock exec_ecbDec⟩
  · exact ⟨_, _, cbc (fun _ _ _ => rfl) (fun _ _ _ => rfl) CbcRun.encStep cbcEncBlock (fun _ _ _ _ => rfl) exec_cbcEnc⟩
  · exact ⟨_, _, cbc (fun _ _ _ => rfl) (fun _ _ _ => rfl) CbcRun.decStep cbcDecBlock (fun _ _ _ _ => rfl) exec_cbcDec⟩
  · exact ⟨_, _, cfb (fun _ _ _ => rfl) (fun _ _ _ => rfl) false exec_cfbEnc⟩
  · exact ⟨_, _, cfb (fun _ _ _ => rfl) (fun _ _ _ => rfl) true exec_cfbDec⟩

/-- For input that the checks let pass there are as many output bytes as input bytes. -/
theorem TransferKind.Computes.length_output {k : TransferKind} {run : Addr → Addr → Nat → State → State}
    {f : Registers → List Byte → Registers × List Byte} (hk : k.Computes run f) (s : State) (inp : Addr) {len : Nat}
    (h : k.blocks = true → len % 8 = 0) : (f s.registers (s.bytes inp len)).2.length = len := by
  rw [hk.length_eq _ _ (by rwa [State.bytes_length]), State.bytes_length]

/-- A transfer whose checks pass stores the function's bytes in its output window and answers the length. -/
theorem TransferKind.Computes.exec_of_checks {k : TransferKind} {run : Addr → Addr → Nat → State → State}
    {f : Registers → List Byte → Registers × List Byte} (hk : k.Computes run f) {inp out : Addr} {len : Nat} {s : State}
    (hc : s.xferChecks k.mode k.blocks inp out len = none) (ha : apartOrSame inp out len) :
    exec (k.cmd inp out len) s = .next (((s.setRegisters (f s.registers (s.bytes inp len)).1).setMem
      (s.mem.write out.cell (f s.registers (s.bytes inp len)).2)).setResponse ⟨.ok, BitVec.ofNat 64 len⟩) := by
  obtain ⟨-, hb, hi, ho⟩ := (s.xferChecks_eq_none k.mode k.blocks inp out len).mp hc
  have hr := Ranges.of_apartOrSame (State.inBounds_lt hi).le (State.inBounds_lt ho).le ha
  rw [hk.exec_eq, State.transfer_of_checks _ hc ha, hk.run_eq inp out len s hb hr, State.respond_eq]

end Sys2Proof.Machine
end

section
/-! PROOF. What a command can answer, said once for two states that agree in everything the command may read
(spec/20_memory.md Table 20-1): the same error, the same refusal, the same registers, or the same registers and the same
bytes stored in the command's output window. With one state twice this is what a command can do. -/

namespace Sys2Proof.Machine

open Sys2Proof

/-! ### States that agree in what a command reads -/

theorem State.sizeOf_congr {s s' : State} (h : s'.bufSize = s.bufSize) (b : BufId) : s'.sizeOf b = s.sizeOf b :=
  congrArg (fun z : Vector (BitVec 32) 256 => z[b.toNat].toNat) h

/-- The states have the same registers and buffer sizes, and the same bytes in the windows. -/
structure Agree (ws : List (Addr × Nat)) (s s' : State) : Prop where
  registers : s'.registers = s.registers
  bufSize : s'.bufSize = s.bufSize
  bytes : ∀ p ∈ ws, s'.bytes p.1 p.2 = s.bytes p.1 p.2

namespace Agree

theorem refl (ws : List (Addr × Nat)) (s : State) : Agree ws s s := ⟨rfl, rfl, fun _ _ => rfl⟩

variable {ws : List (Addr × Nat)} {s s' : State} (h : Agree ws s s')
include h

theorem v : s'.v = s.v := congrArg Registers.v h.registers

theorem r : s'.r = s.r := congrArg Registers.r h.registers

theorem life : s'.life = s.life := congrArg Registers.life h.registers

theorem mode : s'.mode = s.mode := congrArg Registers.mode h.registers

theorem read {w : Addr} {n : Nat} (hw : (w, n) ∈ ws) : s'.mem.read w.cell n = s.mem.read w.cell n := by
  simpa only [State.bytes_eq] using h.bytes (w, n) hw

theorem readBlock {w : Addr} (hw : (w, 8) ∈ ws) : s'.mem.readBlock w.cell = s.mem.readBlock w.cell := by
  rw [← Block.ofBytes_read _ _ (Nat.le_refl 8), h.read hw, Block.ofBytes_read _ _ (Nat.le_refl 8)]

theorem sizeOf (b : BufId) : s'.sizeOf b = s.sizeOf b := State.sizeOf_congr h.bufSize b

theorem inBounds (a : Addr) (n : Nat) : s'.inBounds a n = s.inBounds a n := by
  simp only [State.inBounds, h.sizeOf]

theorem keyedIn (mode : Mode) : s'.keyedIn mode = s.keyedIn mode := by
  simp only [State.keyedIn, h.life, h.mode]

theorem initChecks (key : Addr) (len : Nat) (iv : Option Addr) :
    s'.initChecks key len iv = s.initChecks key len iv := by
  simp only [State.initChecks, h.life, h.inBounds]

theorem xferChecks (mode : Mode) (blocks : Bool) (inp out : Addr) (len : Nat) :
    s'.xferChecks mode blocks inp out len = s.xferChecks mode blocks inp out len := by
  simp only [State.xferChecks, h.keyedIn, h.inBounds]

theorem ivChecks (mode : Mode) (w : Addr) : s'.ivChecks mode w = s.ivChecks mode w := by
  simp only [State.ivChecks, h.keyedIn, h.inBounds]

end Agree

/-! ### The same answer -/

/-- The command answers both states alike. -/
inductive AnswersAlike (i : Instr) (s s' : State) : Prop
  /-- Both get the same error (rule R162). -/
  | raised (e : Status) (he : e ≠ .ok) (h : exec i s = s.raise e) (h' : exec i s' = s'.raise e)
  /-- Both are refused, the command being a transfer between windows that overlap partially (rule R51). -/
  | overlapped (k : TransferKind) (hk : k ∈ blockTransfers ++ streamTransfers) (inp out : Addr) (len : Nat)
    (hi : i = k.cmd inp out len) (ho : ¬ apartOrSame inp out len) (h : exec i s = .refused .partialOverlap)
    (h' : exec i s' = .refused .partialOverlap)
  /-- Both end `OK` with the same registers, and the command writes no buffer. -/
  | loaded (x : Registers) (v : Quad) (hw : writeWindow i = none) (h : exec i s = (s.setRegisters x).respond v)
    (h' : exec i s' = (s'.setRegisters x).respond v)
  /-- Both end `OK` with the same registers and the same bytes in the output window, which its buffer has. -/
  | stored (x : Registers) (v : Quad) (w : Addr) (ys : List Byte) (hw : writeWindow i = some (w, ys.length))
    (hf : s.fits w ys.length) (h : exec i s = ((s.setRegisters x).setMem (s.mem.write w.cell ys)).respond v)
    (h' : exec i s' = ((s'.setRegisters x).setMem (s'.mem.write w.cell ys)).respond v)

theorem State.transfer_of_error {s : State} {mode : Mode} {blocks : Bool} {inp out : Addr} {len : Nat} {e : Status}
    (run : State → State) (h : s.xferChecks mode blocks inp out len = some e) :
    s.transfer mode blocks inp out len run = s.raise e := by
  rw [State.transfer, h]

theorem State.transfer_of_overlap {s : State} {mode : Mode} {blocks : Bool} {inp out : Addr} {len : Nat}
    (run : State → State) (h : s.xferChecks mode blocks inp out len = none) (ho : ¬ apartOrSame inp out len) :
    s.transfer mode blocks inp out len run = .refused .partialOverlap := by
  rw [State.transfer, h]
  exact if_pos (partialOverlap_eq_true.mpr ho)

namespace AnswersAlike

variable {i : Instr} {s s' : State}

/-- A construction answers alike when it leaves both states with the same registers. -/
theorem of_initCommon {ws : List (Addr × Nat)} (h : Agree ws s s') {mode : Mode} {key : Addr} {len : Nat}
    {iv : Option Addr} {load : State → State} (x : State → Registers)
    (hexec : ∀ u, exec i u = u.initCommon mode key len iv load)
    (hload : ∀ u : State, load (u.construct mode key len) = u.setRegisters (x u)) (hw : writeWindow i = none)
    (hx : x s' = x s) : AnswersAlike i s s' := by
  have hc' := h.initChecks key len iv
  cases hc : s.initChecks key len iv with
  | some e =>
    rw [hc] at hc'
    exact .raised e (State.initChecks_ne_ok hc) (by rw [hexec, State.initCommon_of_error load hc, State.raise_eq])
      (by rw [hexec, State.initCommon_of_error load hc', State.raise_eq])
  | none =>
    rw [hc] at hc'
    exact .loaded (x s) 0 hw (by rw [hexec, State.initCommon_of_checks load hc, hload, State.respond_eq])
      (by rw [hexec, State.initCommon_of_checks load hc', hload, hx, State.respond_eq])

/-- The six transfers. -/
theorem of_transfer {k : TransferKind} (hk : k ∈ blockTransfers ++ streamTransfers) {inp out : Addr} {len : Nat}
    (h : Agree (readWindows (k.cmd inp out len)) s s') : AnswersAlike (k.cmd inp out len) s s' := by
  obtain ⟨run, f, hcomp⟩ := exists_computes hk
  rw [hcomp.reads] at h
  have hbytes : s'.bytes inp len = s.bytes inp len := h.bytes (inp, len) (List.mem_singleton_self _)
  have hc' := h.xferChecks k.mode k.blocks inp out len
  cases hc : s.xferChecks k.mode k.blocks inp out len with
  | some e =>
    rw [hc] at hc'
    exact .raised e (State.xferChecks_ne_ok hc) (by rw [hcomp.exec_eq, State.transfer_of_error _ hc])
      (by rw [hcomp.exec_eq, State.transfer_of_error _ hc'])
  | none =>
    rw [hc] at hc'
    by_cases ha : apartOrSame inp out len
    · obtain ⟨-, hwhole, -, hout⟩ := (s.xferChecks_eq_none k.mode k.blocks inp out len).mp hc
      have hlen := hcomp.length_output s inp hwhole
      have h' := hcomp.exec_of_checks hc' ha
      rw [h.registers, hbytes] at h'
      exact .stored _ _ out _ (by rw [hcomp.writes, hlen]) (by rwa [hlen, State.fits_iff])
        (hcomp.exec_of_checks hc ha) h'
    · exact .overlapped k hk inp out len rfl ha (by rw [hcomp.exec_eq, State.transfer_of_overlap _ hc ha])
        (by rw [hcomp.exec_eq, State.transfer_of_overlap _ hc' ha])

/-- A register command with a window answers alike when it does after its checks. -/
theorem of_ivChecks {ws : List (Addr × Nat)} (h : Agree ws s s') {mode : Mode} {w : Addr} {run : State → State}
    (hexec : ∀ u, exec i u = match u.ivChecks mode w with | some e => u.raise e | none => (run u).respond 0)
    (hrun : s.fits w 8 → exec i s = (run s).respond 0 → exec i s' = (run s').respond 0 → AnswersAlike i s s') :
    AnswersAlike i s s' := by
  have hc' := h.ivChecks mode w
  cases hc : s.ivChecks mode w with
  | some e =>
    rw [hc] at hc'
    exact .raised e (State.ivChecks_ne_ok hc) (by rw [hexec, hc]) (by rw [hexec, hc'])
  | none =>
    rw [hc] at hc'
    exact hrun ((s.fits_iff w 8).mpr ((s.ivChecks_eq_none mode w).mp hc).2) (by rw [hexec, hc]) (by rw [hexec, hc'])

/-- A command that stores a register in its window. -/
theorem of_getiv {ws : List (Addr × Nat)} (h : Agree ws s s') {mode : Mode} {w : Addr} (y : State → Block)
    (hexec : ∀ u, exec i u = match u.ivChecks mode w with
      | some e => u.raise e
      | none => (u.setMem (u.mem.writeBlock w.cell (y u))).respond 0)
    (hw : writeWindow i = some (w, 8)) (hy : y s' = y s) : AnswersAlike i s s' := by
  refine of_ivChecks h hexec fun hf hs hs' => ?_
  have hlen : (y s).toList.length = 8 := Vector.length_toList
  rw [hy] at hs'
  refine .stored s.registers 0 w (y s).toList (by rw [hlen, hw]) (by rwa [hlen]) hs ?_
  rw [← h.registers]
  exact hs'

/-- A command that loads a register from its window. -/
theorem of_setiv {ws : List (Addr × Nat)} (h : Agree ws s s') {mode : Mode} {w : Addr} (x : State → Registers)
    (hexec : ∀ u, exec i u = match u.ivChecks mode w with
      | some e => u.raise e
      | none => (u.setRegisters (x u)).respond 0)
    (hw : writeWindow i = none) (hx : x s' = x s) : AnswersAlike i s s' :=
  of_ivChecks h hexec fun _ hs hs' => .loaded (x s) 0 hw hs (hx ▸ hs')

/-- A command with no operand window, accepted where `p` holds. -/
theorem of_ite {ws : List (Addr × Nat)} (h : Agree ws s s') (p : Life → Mode → Prop) [∀ l m, Decidable (p l m)]
    (x : Registers → Registers) (v : Registers → Quad)
    (hexec : ∀ u, exec i u =
      if p u.life u.mode then (u.setRegisters (x u.registers)).respond (v u.registers) else u.raise .illegalState)
    (hw : writeWindow i = none) : AnswersAlike i s s' := by
  have h' := hexec s'
  rw [h.life, h.mode, h.registers] at h'
  by_cases hp : p s.life s.mode
  · exact .loaded (x s.registers) (v s.registers) hw ((hexec s).trans (if_pos hp)) (h'.trans (if_pos hp))
  · exact .raised .illegalState (by decide) ((hexec s).trans (if_neg hp)) (h'.trans (if_neg hp))

end AnswersAlike

/-! ### Every command answers alike -/

/-- The registers after a construction in a mode from the bytes of a key (rule R76), with `v` and `r` loaded. -/
def Registers.keyed (mode : Mode) (v r : Block) (key : List Byte) : Registers :=
  ⟨keySchedule key, v, r, 0, .keyed, mode⟩

theorem State.construct_eq_keyed (s : State) (mode : Mode) (key : Addr) (len : Nat) :
    s.construct mode key len = s.setRegisters (.keyed mode zeroBlock zeroBlock (s.mem.read key.cell len)) := by
  simp only [State.construct_eq, State.setRegisters, Registers.keyed]

theorem State.construct_setV_eq_keyed (s : State) (mode : Mode) (key : Addr) (len : Nat) (v : Block) :
    (s.construct mode key len).setV v = s.setRegisters (.keyed mode v zeroBlock (s.mem.read key.cell len)) := by
  simp only [State.construct_eq, State.setV, State.setRegisters, Registers.keyed]

theorem State.construct_setCfb_eq_keyed (s : State) (mode : Mode) (key : Addr) (len : Nat) (r : Block) :
    (s.construct mode key len).setCfb r 0 = s.setRegisters (.keyed mode zeroBlock r (s.mem.read key.cell len)) := by
  simp only [State.construct_eq, State.setCfb, State.setRegisters, Registers.keyed]

open AnswersAlike in
/-- A command answers alike in two states that agree in what it reads. -/
theorem exec_answersAlike {i : Instr} {s s' : State} (h : Agree (readWindows i) s s') : AnswersAlike i s s' := by
  cases i with
  | initEcb key len =>
    exact of_initCommon h (fun u => .keyed .ecb zeroBlock zeroBlock (u.mem.read key.cell len)) (exec_initEcb key len)
      (fun u => u.construct_eq_keyed _ _ _) rfl (congrArg _ (h.read (.head _)))
  | initCbc key len =>
    exact of_initCommon h (fun u => .keyed .cbc zeroBlock zeroBlock (u.mem.read key.cell len)) (exec_initCbc key len)
      (fun u => u.construct_eq_keyed _ _ _) rfl (congrArg _ (h.read (.head _)))
  | initCfb key len =>
    exact of_initCommon h (fun u => .keyed .cfb zeroBlock zeroBlock (u.mem.read key.cell len)) (exec_initCfb key len)
      (fun u => u.construct_eq_keyed _ _ _) rfl (congrArg _ (h.read (.head _)))
  | initCbcIv64 key len imm64 =>
    exact of_initCommon h (fun u => .keyed .cbc (Block.unpack imm64) zeroBlock (u.mem.read key.cell len))
      (exec_initCbcIv64 key len imm64) (fun u => u.construct_setV_eq_keyed _ _ _ _) rfl (congrArg _ (h.read (.head _)))
  | initCbcIv key len iv =>
    exact of_initCommon h (fun u => .keyed .cbc (u.mem.readBlock iv.cell) zeroBlock (u.mem.read key.cell len))
      (exec_initCbcIv key len iv) (fun u => by rw [u.construct_mem, u.construct_setV_eq_keyed]) rfl
      (congrArg₂ (Registers.keyed .cbc · zeroBlock) (h.readBlock (.tail _ (.head _))) (h.read (.head _)))
  | initCfbIv key len iv =>
    exact of_initCommon h (fun u => .keyed .cfb zeroBlock (u.mem.readBlock iv.cell) (u.mem.read key.cell len))
      (exec_initCfbIv key len iv) (fun u => by rw [u.construct_mem, u.construct_setCfb_eq_keyed]) rfl
      (congrArg₂ (Registers.keyed .cfb zeroBlock) (h.readBlock (.tail _ (.head _))) (h.read (.head _)))
  | ecbEnc inp out len => exact of_transfer (k := ⟨.ecbEnc, .ecb, true⟩) (.head _) h
  | ecbDec inp out len => exact of_transfer (k := ⟨.ecbDec, .ecb, true⟩) (.tail _ (.head _)) h
  | cbcEnc inp out len => exact of_transfer (k := ⟨.cbcEnc, .cbc, true⟩) (.tail _ (.tail _ (.head _))) h
  | cbcDec inp out len => exact of_transfer (k := ⟨.cbcDec, .cbc, true⟩) (.tail _ (.tail _ (.tail _ (.head _)))) h
  | cfbEnc inp out len =>
    exact of_transfer (k := ⟨.cfbEnc, .cfb, false⟩) (List.mem_append_right blockTransfers (.head _)) h
  | cfbDec inp out len =>
    exact of_transfer (k := ⟨.cfbDec, .cfb, false⟩) (List.mem_append_right blockTransfers (.tail _ (.head _))) h
  | cbcGetiv out => exact of_getiv h State.v (fun _ => rfl) rfl h.v
  | cfbGetiv out => exact of_getiv h State.r (fun _ => rfl) rfl h.r
  | cbcSetiv inp =>
    exact of_setiv h (fun u => { u.registers with v := u.mem.readBlock inp.cell }) (fun _ => rfl) rfl
      (by rw [h.registers, h.readBlock (.head _)])
  | cfbSetiv inp =>
    exact of_setiv h (fun u => { u.registers with r := u.mem.readBlock inp.cell, bytesLeft := 0 }) (fun _ => rfl) rfl
      (by rw [h.registers, h.readBlock (.head _)])
  | cbcGetiv64 =>
    exact of_ite h (fun l m => l = .keyed ∧ m = .cbc) id (fun x => Block.pack x.v)
      (fun u => by simp only [← State.keyedIn_iff]; rfl) rfl
  | cbcSetiv64 imm64 =>
    exact of_ite h (fun l m => l = .keyed ∧ m = .cbc) (fun x => { x with v := Block.unpack imm64 }) (fun _ => 0)
      (fun u => by simp only [← State.keyedIn_iff]; rfl) rfl
  | weakkey =>
    exact of_ite h (fun l _ => l = .keyed) id (fun x => boolResult x.cipher.weak) (fun u => ite_not _ _ _) rfl
  | cleanup =>
    exact of_ite h (fun l _ => l = .keyed) (fun _ => ⟨.zero, zeroBlock, zeroBlock, 0, .empty, .none⟩) (fun _ => 0)
      (fun u => ite_not _ _ _) rfl
  | selftest => exact .loaded s.registers _ rfl rfl (by rw [← h.registers]; rfl)

end Sys2Proof.Machine
end

section
/-! PROOF. The statements about the buffers (spec/20_memory.md): what a command may read and write of them, that a step
keeps their byte memory canonical, the host's own accesses, and the byte order. -/

namespace Sys2Proof.Machine

open Sys2Proof

/-! ### The memory after a command -/

/-- A command that goes on changes no buffer size, and of the memory at most its output window, which its buffer has. -/
theorem exec_memory_cases {i : Instr} {s t : State} (h : exec i s = .next t) :
    t.bufSize = s.bufSize ∧
      (t.mem = s.mem ∨ ∃ w ys, writeWindow i = some (w, ys.length) ∧ s.fits w ys.length ∧
        t.mem = s.mem.write w.cell ys) := by
  cases exec_answersAlike (Agree.refl (readWindows i) s) with
  | raised _ _ h1 =>
    cases h1.symm.trans h
    exact ⟨rfl, .inl rfl⟩
  | overlapped _ _ _ _ _ _ _ h1 => cases h1.symm.trans h
  | loaded _ _ _ h1 =>
    cases h1.symm.trans h
    exact ⟨rfl, .inl rfl⟩
  | stored _ _ w ys hw hf h1 =>
    cases h1.symm.trans h
    exact ⟨rfl, .inr ⟨w, ys, hw, hf, rfl⟩⟩

/-- A write into a window changes no byte outside it. -/
theorem sameOutside_of_write {s t : State} {w : Addr} {ys : List Byte} (hf : s.fits w ys.length)
    (ht : t.mem = s.mem.write w.cell ys) : sameOutside s t w ys.length := by
  refine sameOutside_of_keys (State.inBounds_lt ((s.fits_iff w _).mp hf)).le fun k hk => ?_
  rw [ht, Memory.readByte_write_outside _ _ _ hk]

theorem sameBytes_of_mem_eq {s t : State} (h : t.mem = s.mem) : sameBytes s t := fun a => by
  rw [State.byteAt, State.byteAt, h]

/-! ### The memory invariant -/

/-- The memory invariant speaks of the memory and the buffer sizes alone. -/
theorem MemoryInv.of_eq {s t : State} (hs : MemoryInv s) (hsize : t.bufSize = s.bufSize) (hmem : t.mem = s.mem) :
    MemoryInv t := by
  rwa [MemoryInv, hmem, funext (State.sizeOf_congr hsize)]

/-- Bytes written where their buffer has them keep the memory invariant. -/
theorem MemoryInv.of_write {s t : State} (hs : MemoryInv s) {w : Addr} {ys : List Byte} (hsize : t.bufSize = s.bufSize)
    (hmem : t.mem = s.mem.write w.cell ys) (hys : ∀ k < ys.length, w.off + k < s.sizeOf w.buf) : MemoryInv t := by
  obtain ⟨hwf, hcells⟩ := hs
  rw [MemoryInv, hmem, funext (State.sizeOf_congr hsize)]
  refine ⟨Memory.write_wf _ hwf _ _, fun c hc => ?_⟩
  obtain ⟨hlow, hhigh⟩ | hc := Memory.mem_write _ hc
  · obtain ⟨k, hk⟩ := Nat.exists_eq_add_of_le hlow
    exact ⟨w.plus k, hk.trans (w.cell_plus k).symm, hys k (by omega)⟩
  · exact hcells c hc

theorem exec_keeps_memoryInv {i : Instr} {s t : State} (hs : MemoryInv s) (h : exec i s = .next t) : MemoryInv t := by
  obtain ⟨hsize, hmem | ⟨w, ys, -, hf, hmem⟩⟩ := exec_memory_cases h
  · exact hs.of_eq hsize hmem
  · refine hs.of_write hsize hmem fun k hk => ?_
    rw [State.fits] at hf
    omega

theorem freeWindow_keeps_memoryInv {s : State} (hs : MemoryInv s) (w : Addr) (n : Nat) :
    MemoryInv (s.freeWindow w n) := by
  refine hs.of_write (w := w) rfl rfl fun k hk => ?_
  rw [freeBytes_length, State.present] at hk
  omega

theorem cutOff_keeps_memoryInv {s : State} (hs : MemoryInv s) (i : Instr) : MemoryInv (s.cutOff i) := by
  cases hw : writeWindow i with
  | none => rwa [State.cutOff_of_none hw]
  | some w =>
    rw [State.cutOff_of_window hw]
    exact freeWindow_keeps_memoryInv hs w.1 w.2

theorem hostReset_keeps_memoryInv {s : State} (hs : MemoryInv s) : MemoryInv (hostReset s) := hs.of_eq rfl rfl

/-- What an action of the host that goes on keeps of the buffers. -/
theorem act_keeps_memoryInv {a : HostAction} {s t : State} (h : act a s = .next t) :
    t.bufSize = s.bufSize ∧ (MemoryInv s → MemoryInv t) := by
  obtain ⟨d, i, -, -, he⟩ | ⟨d, e, -, -, rfl⟩ | ⟨w, xs, -, hb, rfl⟩ | ⟨-, rfl⟩ | ⟨d, -, hd⟩ := act_cases h
  · exact ⟨(exec_memory_cases he).1, fun hs => exec_keeps_memoryInv hs he⟩
  · exact ⟨rfl, fun hs => hs.of_eq rfl rfl⟩
  · refine ⟨rfl, fun hs => hs.of_write rfl rfl fun k hk => ?_⟩
    rw [State.inBounds_iff] at hb
    omega
  · exact ⟨rfl, hostReset_keeps_memoryInv⟩
  · obtain ⟨e, -, rfl⟩ | ⟨i, u, -, -, rfl⟩ := hostResetDuring_cases hd
    · exact ⟨rfl, hostReset_keeps_memoryInv⟩
    · exact ⟨(s.cutOff_host i).1, fun hs => hostReset_keeps_memoryInv (cutOff_keeps_memoryInv hs i)⟩

theorem step_keeps_memoryInv {s t : State} (h : step s = .next t) :
    t.bufSize = s.bufSize ∧ (MemoryInv s → MemoryInv t) := by
  obtain ⟨-, rfl⟩ | ⟨a, q, -, ha⟩ := step_cases h
  · exact ⟨rfl, id⟩
  · obtain ⟨hsize, hinv⟩ := act_keeps_memoryInv ha
    exact ⟨hsize, fun hs => hinv (hs.of_eq rfl rfl)⟩

/-! ### The host's own accesses -/

/-- A host write inside a buffer stores its bytes and changes nothing else (rule R54). -/
theorem act_writeBuffer {s : State} {w : Addr} {xs : List Byte} (hf : s.fits w xs.length) :
    act (.writeBuffer w xs) s = .next (s.setMem (s.mem.write w.cell xs)) := by
  rw [act, hostWrite, if_pos ((s.fits_iff w _).mp hf)]

theorem act_writeBuffer_outside {s : State} {w : Addr} {xs : List Byte} (hf : ¬ s.fits w xs.length) :
    act (.writeBuffer w xs) s = .fault .noSuchBufferByte := by
  rw [act, hostWrite, if_neg (by rwa [State.fits_iff] at hf)]

theorem State.bytes_setMem_write (s : State) (w : Addr) (xs : List Byte) :
    (s.setMem (s.mem.write w.cell xs)).bytes w xs.length = xs := by
  rw [State.bytes_eq, State.setMem_mem, Memory.read_write_self]

/-! ### Byte order in numbers -/

/-- The number of a concatenation: the left part weighs by the width of the right part. -/
theorem toNat_append_eq {n k : Nat} (x : BitVec n) (y : BitVec k) : (x ++ y).toNat = x.toNat * 2 ^ k + y.toNat := by
  rw [BitVec.toNat_append, ← Nat.shiftLeft_add_eq_or_of_lt y.isLt, Nat.shiftLeft_eq]

theorem toNat_slice {n : Nat} (x : BitVec n) (k : Nat) : (x.extractLsb' k 8).toNat = x.toNat / 2 ^ k % 256 := by
  rw [BitVec.extractLsb'_toNat, Nat.shiftRight_eq_div_pow]

theorem be32_toNat (b0 b1 b2 b3 : Byte) :
    (be32 b0 b1 b2 b3).toNat = b0.toNat * 2 ^ 24 + b1.toNat * 2 ^ 16 + b2.toNat * 2 ^ 8 + b3.toNat := by
  simp only [be32, toNat_append_eq]
  omega

theorem Block.pack_toNat (b : Block) :
    (Block.pack b).toNat = b[0].toNat * 2 ^ 56 + b[1].toNat * 2 ^ 48 + b[2].toNat * 2 ^ 40 + b[3].toNat * 2 ^ 32 +
      b[4].toNat * 2 ^ 24 + b[5].toNat * 2 ^ 16 + b[6].toNat * 2 ^ 8 + b[7].toNat := by
  simp only [Block.pack, toNat_append_eq]
  omega

/-- Bytes `i` and `4 + i` of a pair of halves are bytes `i` of the halves, the most significant first. -/
theorem Halves.toBlock_toNat (h : Halves) (i : Fin 4) :
    h.toBlock[i.val].toNat = h.hi.toNat / 2 ^ (24 - 8 * i.val) % 256 ∧
    h.toBlock[4 + i.val].toNat = h.lo.toNat / 2 ^ (24 - 8 * i.val) % 256 := by
  match i with
  | 0 | 1 | 2 | 3 => exact ⟨toNat_slice _ _, toNat_slice _ _⟩

theorem Block.unpack_toNat (x : Quad) (i : Fin 8) :
    (Block.unpack x)[i.val].toNat = x.toNat / 2 ^ (56 - 8 * i.val) % 256 := by
  rw [Block.getElem_unpack, toNat_slice]

/-! ### The statements -/

/-- Settles O56: a command writes inside its output window only, which its buffer has; the host's write is in bounds,
and a reset frees no byte that the buffer does not have. -/
theorem stepKeepsMemoryInv : Obligations.StepKeepsMemoryInv := fun _ _ h => step_keeps_memoryInv h

/-- Settles O7, clause by clause over the host's actions. -/
theorem stepServesTheHost : Obligations.StepServesTheHost :=
  ⟨fun _ => step_idle,
    fun s w xs q hq hf =>
      ⟨(s.setInbox q).setMem (s.mem.write w.cell xs), (step_action hq).trans (act_writeBuffer hf),
        s.bytes_setMem_write w xs, sameOutside_of_write hf rfl, ⟨rfl, rfl, rfl, rfl, rfl, rfl⟩, rfl, rfl, rfl, rfl⟩,
    fun _ _ _ _ hq hf => (step_action hq).trans (act_writeBuffer_outside hf),
    fun s q hq => (step_action hq).trans (congrArg Host.Outcome.next (hostReset_eq (s.setInbox q)))⟩

/-- Settles O11: a byte of a concatenation weighs by the width of what follows it, and a slice is a quotient modulo
256. -/
theorem byteOrderIsBigEndian : Obligations.ByteOrderIsBigEndian :=
  ⟨be32_toNat, fun _ => rfl, Halves.toBlock_toNat, Block.pack_toNat, Block.unpack_toNat⟩

/-- Settles O49: of the answers a command can give only that of a transfer with partial overlap is no next state. -/
theorem onlyPartialOverlapStops : Obligations.OnlyPartialOverlapStops := by
  intro i s
  cases exec_answersAlike (Agree.refl (readWindows i) s) with
  | raised _ _ h => exact .inl ⟨_, h⟩
  | overlapped k hk inp out len hi ho h => exact .inr ⟨h, k, hk, inp, out, len, hi, ho⟩
  | loaded _ _ _ h => exact .inl ⟨_, h⟩
  | stored _ _ _ _ _ _ h => exact .inl ⟨_, h⟩

/-- Settles O51: the memory is as before or has been written in the output window. -/
theorem onlyTheOutputWindowIsWritten : Obligations.OnlyTheOutputWindowIsWritten := by
  intro i s t h
  obtain ⟨-, hmem | ⟨w, ys, hw, hf, hmem⟩⟩ := exec_memory_cases h
  · exact ⟨fun _ _ _ a _ _ => sameBytes_of_mem_eq hmem a, fun _ => sameBytes_of_mem_eq hmem⟩
  · refine ⟨fun w' n hw' => ?_, fun hnone => ?_⟩
    · cases hw.symm.trans hw'
      exact sameOutside_of_write hf hmem
    · cases hw.symm.trans hnone

/-- Settles O52: the states agree in what the command reads, so it answers them alike, and stored bytes are read
back. -/
theorem outcomeDependsOnReadWindowsOnly : Obligations.OutcomeDependsOnReadWindowsOnly := by
  intro i s s' hregs hsize hbytes
  have hagree : Agree (readWindows i) s s' := ⟨sameRegisters_iff.mp hregs, hsize, hbytes⟩
  cases exec_answersAlike hagree with
  | raised e he h h' =>
    refine ⟨fun t ht => ?_, fun r hr => by cases h.symm.trans hr⟩
    cases h.symm.trans ht
    exact ⟨_, h', hregs, rfl, fun p x hok => by cases hok; exact absurd rfl he⟩
  | overlapped _ _ _ _ _ _ _ h h' =>
    refine ⟨fun t ht => (by cases h.symm.trans ht), fun r hr => ?_⟩
    cases h.symm.trans hr
    exact h'
  | loaded x v hw h h' =>
    refine ⟨fun t ht => ?_, fun r hr => by cases h.symm.trans hr⟩
    cases h.symm.trans ht
    exact ⟨_, h', sameRegisters_iff.mpr rfl, rfl, fun p _ _ hp => by cases hw.symm.trans hp⟩
  | stored x v w ys hw hf h h' =>
    refine ⟨fun t ht => ?_, fun r hr => by cases h.symm.trans hr⟩
    cases h.symm.trans ht
    refine ⟨_, h', sameRegisters_iff.mpr rfl, rfl, fun p _ _ hp => ?_⟩
    cases hw.symm.trans hp
    exact ((s'.setRegisters x).bytes_setMem_write w ys).trans ((s.setRegisters x).bytes_setMem_write w ys).symm

/-- Settles O53: the registers and the stored bytes are a function of the registers and the input bytes. -/
theorem inPlaceEqualsDisjoint : Obligations.InPlaceEqualsDisjoint := by
  intro k hk inp out len s hs hwhole hi ho hdisjoint
  obtain ⟨run, f, hcomp⟩ := exists_computes hk
  have hchecks : ∀ w, s.fits w len → s.xferChecks k.mode k.blocks inp w len = none :=
    fun w => (s.xferChecks_eq k.mode k.blocks inp w len).2.2.2 hs hwhole hi
  have hlen := hcomp.length_output s inp hwhole
  have hapart : apartOrSame inp out len := hdisjoint.elim (.inr ∘ .inl) (.inr ∘ .inr ∘ .inr)
  have hread := (s.setRegisters (f s.registers (s.bytes inp len)).1).bytes_setMem_write
    (xs := (f s.registers (s.bytes inp len)).2)
  rw [hlen] at hread
  exact ⟨_, _, hcomp.exec_of_checks (hchecks inp hi) (.inl rfl), hcomp.exec_of_checks (hchecks out ho) hapart,
    (hread inp).trans (hread out).symm,
    sameRegisters_iff.mpr (by
      simp only [State.registers_setResponse, State.registers_setMem, State.registers_setRegisters]),
    by simp only [State.setResponse_response]⟩

end Sys2Proof.Machine
end

section
/-! PROOF. The statements about descriptors (spec/30_encoding.md): encoder and decoder undo one another up to the bits a
format does not use, the codes of Table 30-2 are the ones that decode, a step runs the command of the descriptor presented,
and every command that goes on has given a response. -/

namespace Sys2Proof.Fields

open Sys2Proof Sys2Proof.Machine

/-! ### Operands read from fields fit (rule R59) -/

@[simp] theorem a_wellFormed (f : Fields) : f.a.wellFormed = true := decide_eq_true f.aoff.isLt

@[simp] theorem b_wellFormed (f : Fields) : f.b.wellFormed = true := decide_eq_true f.boff.isLt

@[simp] theorem lenFits_len (f : Fields) : lenFits f.len.toNat = true := decide_eq_true f.len.isLt

theorem wellFormed_of_instr {f : Fields} {i : Instr} (h : f.instr = .ok i) : i.wellFormed = true := by
  unfold Fields.instr at h
  split at h <;> cases h <;>
    simp only [Instr.wellFormed, a_wellFormed, b_wellFormed, lenFits_len, Bool.and_self]

/-! ### Formats as masks

Writing the operands of fields back in a format keeps the fields of that format and clears the others (rule R62). -/

section Formats

variable {f : Fields} {op : BitVec 8} (h : f.op = op)
include h

theorem toDescriptor_formatN :
    (formatN op).toDescriptor = f.toDescriptor &&& (Fields.mk (.allOnes 8) 0 0 0 0 0 0 0).toDescriptor := by
  simp [← h, toDescriptor_and, formatN, -BitVec.reduceAllOnes]

theorem toDescriptor_formatRD :
    (formatRD op f.a).toDescriptor =
      f.toDescriptor &&& (Fields.mk (.allOnes 8) (.allOnes 8) 0 0 (.allOnes 32) 0 0 0).toDescriptor := by
  simp [← h, toDescriptor_and, formatRD, a, -BitVec.reduceAllOnes]

theorem toDescriptor_formatWR :
    (formatWR op f.b).toDescriptor =
      f.toDescriptor &&& (Fields.mk (.allOnes 8) 0 (.allOnes 8) 0 0 (.allOnes 32) 0 0).toDescriptor := by
  simp [← h, toDescriptor_and, formatWR, b, -BitVec.reduceAllOnes]

theorem toDescriptor_formatQ :
    (formatQ op f.imm64).toDescriptor =
      f.toDescriptor &&& (Fields.mk (.allOnes 8) 0 0 0 0 0 0 (.allOnes 64)).toDescriptor := by
  simp [← h, toDescriptor_and, formatQ, -BitVec.reduceAllOnes]

theorem toDescriptor_formatK :
    (formatK op f.a f.len.toNat).toDescriptor =
      f.toDescriptor &&& (Fields.mk (.allOnes 8) (.allOnes 8) 0 0 (.allOnes 32) 0 (.allOnes 32) 0).toDescriptor := by
  simp [← h, toDescriptor_and, formatK, a, -BitVec.reduceAllOnes]

theorem toDescriptor_formatKQ :
    (formatKQ op f.a f.len.toNat f.imm64).toDescriptor = f.toDescriptor &&&
      (Fields.mk (.allOnes 8) (.allOnes 8) 0 0 (.allOnes 32) 0 (.allOnes 32) (.allOnes 64)).toDescriptor := by
  simp [← h, toDescriptor_and, formatKQ, a, -BitVec.reduceAllOnes]

theorem toDescriptor_formatX :
    (formatX op f.a f.b f.len.toNat).toDescriptor = f.toDescriptor &&&
      (Fields.mk (.allOnes 8) (.allOnes 8) (.allOnes 8) 0 (.allOnes 32) (.allOnes 32) (.allOnes 32)
        0).toDescriptor := by
  simp [← h, toDescriptor_and, formatX, a, b, -BitVec.reduceAllOnes]

end Formats

/-- A decoded command is encoded by the fields its code's format uses. The cases `h_1` to `h_21` are the rows of Table 30-2
in order, taken together by format. -/
theorem toDescriptor_fields_of_instr {f : Fields} {i : Instr} (h : f.instr = .ok i) :
    i.fields.toDescriptor = f.toDescriptor &&& usedBits f.op.toNat := by
  unfold Fields.instr at h
  split at h <;> cases h <;> rename_i hop <;> rw [hop]
  case h_7 | h_14 | h_20 | h_21 => exact toDescriptor_formatN (BitVec.eq_of_toNat_eq hop)
  case h_13 | h_19 => exact toDescriptor_formatRD (BitVec.eq_of_toNat_eq hop)
  case h_12 | h_18 => exact toDescriptor_formatWR (BitVec.eq_of_toNat_eq hop)
  case h_15 => exact toDescriptor_formatQ (BitVec.eq_of_toNat_eq hop)
  case h_1 | h_2 | h_5 => exact toDescriptor_formatK (BitVec.eq_of_toNat_eq hop)
  case h_4 => exact toDescriptor_formatKQ (BitVec.eq_of_toNat_eq hop)
  all_goals exact toDescriptor_formatX (BitVec.eq_of_toNat_eq hop)

/-! ### The command codes (Table 30-2, rule R60) -/

theorem exists_instr_of_mem_commandCodes {f : Fields} (h : f.op.toNat ∈ commandCodes) : ∃ i, f.instr = .ok i := by
  unfold Fields.instr
  split
  case h_22 => simp_all [commandCodes]
  all_goals exact ⟨_, rfl⟩

theorem instr_of_not_mem_commandCodes {f : Fields} (h : f.op.toNat ∉ commandCodes) :
    f.instr = .error (.unknownCode f.op) := by
  unfold Fields.instr
  split
  case h_22 => rfl
  all_goals
    rename_i hop
    exact absurd (hop ▸ h) (by decide)

open Laws.FieldsReadBack in
/-- The fields a command is encoded in read back as the command. -/
theorem instr_fields {i : Instr} (h : i.wellFormed = true) : i.fields.instr = .ok i :=
  match i with
  | .initEcb key len => initEcb key len h
  | .initCbc key len => initCbc key len h
  | .initCbcIv key len iv => initCbcIv key len iv h
  | .initCbcIv64 key len imm64 => initCbcIv64 key len imm64 h
  | .initCfb key len => initCfb key len h
  | .initCfbIv key len iv => initCfbIv key len iv h
  | .cleanup => cleanup h
  | .ecbEnc inp out len => ecbEnc inp out len h
  | .ecbDec inp out len => ecbDec inp out len h
  | .cbcEnc inp out len => cbcEnc inp out len h
  | .cbcDec inp out len => cbcDec inp out len h
  | .cbcGetiv out => cbcGetiv out h
  | .cbcSetiv inp => cbcSetiv inp h
  | .cbcGetiv64 => cbcGetiv64 h
  | .cbcSetiv64 imm64 => cbcSetiv64 imm64 h
  | .cfbEnc inp out len => cfbEnc inp out len h
  | .cfbDec inp out len => cfbDec inp out len h
  | .cfbGetiv out => cfbGetiv out h
  | .cfbSetiv inp => cfbSetiv inp h
  | .weakkey => weakkey h
  | .selftest => selftest h

end Sys2Proof.Fields

namespace Sys2Proof

open Sys2Proof Sys2Proof.Machine

/-! ### Decoder and encoder on descriptors -/

theorem decode_encode {i : Instr} (h : i.wellFormed = true) : decode (encode i) = .ok i := by
  rw [decode, encode, Fields.ofDescriptor_toDescriptor, Fields.instr_fields h]

theorem decode_of_eq_encode {d : Descriptor} {i : Instr} (h : i.wellFormed = true) (hd : d = encode i) :
    decode d = .ok i := by
  rw [hd, decode_encode h]

theorem wellFormed_of_decode {d : Descriptor} {i : Instr} (h : decode d = .ok i) : i.wellFormed = true :=
  Fields.wellFormed_of_instr h

theorem encode_of_decode {d : Descriptor} {i : Instr} (h : decode d = .ok i) :
    encode i = d &&& usedBits (d.extractLsb' 0 8).toNat := by
  rw [encode, Fields.toDescriptor_fields_of_instr h, Fields.toDescriptor_ofDescriptor]
  rfl

theorem decode_of_not_mem_commandCodes {d : Descriptor} (h : (d.extractLsb' 0 8).toNat ∉ commandCodes) :
    decode d = .error (.unknownCode (d.extractLsb' 0 8)) :=
  Fields.instr_of_not_mem_commandCodes h

theorem mem_commandCodes_iff_decode (d : Descriptor) :
    (d.extractLsb' 0 8).toNat ∈ commandCodes ↔ ∃ i, decode d = .ok i := by
  refine ⟨Fields.exists_instr_of_mem_commandCodes (f := .ofDescriptor d), fun ⟨i, hi⟩ => ?_⟩
  by_contra h
  rw [decode_of_not_mem_commandCodes h] at hi
  cases hi

/-- Every format uses the code. -/
theorem usedBits_code (n : Nat) : (usedBits n).extractLsb' 0 8 = .allOnes 8 := by
  unfold usedBits
  split <;> rfl

theorem code_eq_of_usedBits {d d' : Descriptor} {n : Nat} (h : d &&& usedBits n = d' &&& usedBits n) :
    d.extractLsb' 0 8 = d'.extractLsb' 0 8 := by
  simpa only [BitVec.extractLsb'_and, usedBits_code, BitVec.and_allOnes] using congrArg (BitVec.extractLsb' 0 8) h

namespace Machine

/-! ### The command a step runs -/

theorem act_command_of_ok {d : Descriptor} {i : Instr} (h : decode d = .ok i) (s : State) :
    act (.command d) s = exec i s := by
  rw [act, h]

theorem act_command_of_error {d : Descriptor} {e : DecodeError} (h : decode d = .error e) (s : State) :
    act (.command d) s = .next (s.failed .illegalCommand) := by
  rw [act, h]
  rfl

theorem step_command {s : State} {d : Descriptor} {q : List HostAction} {i : Instr} (hq : s.inbox = .command d :: q)
    (hd : decode d = .ok i) : step s = exec i (s.setInbox q) :=
  (step_action hq).trans (act_command_of_ok hd _)

theorem decode_tableDescriptor {nbits w : Nat} {i : Instr} (h : decodeTableWord nbits w = some i) :
    decode (tableDescriptor nbits w) = .ok i := by
  rw [decodeTableWord] at h
  cases hd : decode (tableDescriptor nbits w) with
  | ok j => rw [hd] at h; cases h; rfl
  | error e => rw [hd] at h; cases h

/-- Presenting a table word and taking it from the list again leaves the state. -/
theorem step_withFetchWord {s : State} {nbits w : Nat} {i : Instr} (h : decodeTableWord nbits w = some i) :
    step (s.withFetchWord nbits w) = exec i s := by
  rw [State.withFetchWord, step_command (State.setInbox_inbox s _) (decode_tableDescriptor h), State.setInbox_setInbox]
  rfl

/-! ### The statements -/

/-- Settles O3: descriptors keep fields, and the fields of every command read back as it. -/
theorem decodeEncodeRoundTrip : Obligations.DecodeEncodeRoundTrip := fun _ => decode_encode

/-- Settles O2: the decoder answers by the code, row by row of Table 30-2. -/
theorem unknownCodesAreIllegal : Obligations.UnknownCodesAreIllegal := fun d =>
  ⟨mem_commandCodes_iff_decode d, fun h => act_command_of_error (decode_of_not_mem_commandCodes h)⟩

/-- Settles O4: the operands written back in their format are the given descriptor under the mask of that format. -/
theorem encodeClearsUnusedBits : Obligations.EncodeClearsUnusedBits := fun _ _ h =>
  ⟨wellFormed_of_decode h, encode_of_decode h⟩

/-- Settles O5: the descriptors have the same code. If it is a command's, both commands are encoded by the bits the
descriptors agree in, and a command is read back from its encoding; otherwise both are rejected by that code. -/
theorem unusedFieldsAreIgnored : Obligations.UnusedFieldsAreIgnored := by
  intro d d' h
  have hcode := code_eq_of_usedBits h
  by_cases hmem : (d.extractLsb' 0 8).toNat ∈ commandCodes
  · obtain ⟨i, hi⟩ := (mem_commandCodes_iff_decode d).mp hmem
    obtain ⟨i', hi'⟩ := (mem_commandCodes_iff_decode d').mp (hcode ▸ hmem)
    have hencode : encode i = encode i' := by rw [encode_of_decode hi, encode_of_decode hi', ← hcode, h]
    calc decode d = .ok i := hi
      _ = decode (encode i) := (decode_encode (wellFormed_of_decode hi)).symm
      _ = decode (encode i') := by rw [hencode]
      _ = .ok i' := decode_encode (wellFormed_of_decode hi')
      _ = decode d' := hi'.symm
  · rw [decode_of_not_mem_commandCodes hmem, hcode, decode_of_not_mem_commandCodes (hcode ▸ hmem)]

/-- Settles O9: an error is raised with result 0, and every other answer that goes on is `OK`. -/
theorem everyCommandGivesAResponse : Obligations.EveryCommandGivesAResponse := by
  refine ⟨fun i s t ht => ?_, rfl, rfl, rfl, rfl, rfl, rfl⟩
  cases exec_answersAlike (Agree.refl (readWindows i) s) with
  | raised e _ h =>
    cases h.symm.trans ht
    exact ⟨⟨e, 0⟩, rfl, fun _ => rfl⟩
  | overlapped _ _ _ _ _ _ _ h => cases h.symm.trans ht
  | loaded _ v _ h | stored _ v _ _ _ _ h =>
    cases h.symm.trans ht
    exact ⟨⟨.ok, v⟩, rfl, fun hok => absurd rfl hok⟩

/-- Settles O1: each is the encoding of the command, which is well-formed. -/
theorem writtenOutDescriptorsDecode : Obligations.WrittenOutDescriptorsDecode := by
  refine ⟨?_, ?_, ?_, ?_, ?_, ?_, ?_, ?_⟩ <;> exact decode_of_eq_encode rfl rfl

/-- Settles O6: the action presented is taken from the list and carried out, and it decodes to the command. -/
theorem stepRunsDecodedCommand : Obligations.StepRunsDecodedCommand :=
  ⟨fun _ _ _ _ => step_command, fun _ _ _ _ => step_withFetchWord⟩

end Machine

end Sys2Proof
end

section
/-! PROOF. The statements about the key schedule (spec/40_keyschedule.md section 1): a key acts through the stream it is
cycled into alone, step 3 is a sequence of 521 derivation steps, and the schedule of the all-zero key is computed packed. -/

namespace Sys2Proof.Machine

open Sys2Proof

/-! ### Mixing the key -/

@[simp] theorem CipherState.mixKey_nil (c : CipherState) : c.mixKey [] = c := rfl

@[simp] theorem CipherState.mixKey_s (c : CipherState) (key : List Byte) : (c.mixKey key).s = c.s := by
  rw [CipherState.mixKey]
  split <;> rfl

@[simp] theorem keyStream_nil (m : Nat) : keyStream [] m = 0 := rfl

theorem keyStream_eq_getElem {key : List Byte} (h : 0 < key.length) (m : Nat) :
    keyStream key m = key[m % key.length]'(Nat.mod_lt _ h) :=
  List.getD_eq_getElem _ _ (Nat.mod_lt m h)

/-- The empty key needs no case of its own: its stream is zero. -/
theorem CipherState.pAt_mixKey (c : CipherState) (key : List Byte) (i : Fin 18) :
    (c.mixKey key).pAt i = c.pAt i ^^^ keyChunk key i.val := by
  cases key with
  | nil =>
    have hchunk : keyChunk [] i.val = 0 := by
      simp only [keyChunk, keyStream_nil]
      decide
    rw [CipherState.mixKey_nil, hchunk]
    exact BitVec.xor_zero.symm
  | cons x xs => simp [CipherState.mixKey, CipherState.pAt]

/-- A key acts through its cycled stream alone. -/
theorem keySchedule_congr {key key' : List Byte} (h : ∀ m, keyStream key m = keyStream key' m) :
    keySchedule key = keySchedule key' := by
  have hmix : piCipher.mixKey key = piCipher.mixKey key' := by
    apply CipherState.ext_words
    · intro i
      simp only [CipherState.pAt_mixKey, keyChunk, h]
    · intro k i
      simp only [CipherState.sAt, CipherState.mixKey_s]
  rw [keySchedule, keySchedule, hmix]

theorem keyStream_replicate_zero (n m : Nat) : keyStream (List.replicate n 0) m = 0 := by
  rw [keyStream, List.getD_eq_getElem?_getD, List.getElem?_replicate]
  split <;> rfl

/-- Byte `i` of a repeated list is byte `i`, modulo its length, of the list. -/
theorem getD_flatten_replicate {α : Type*} (xs : List α) (d : α) {m i : Nat} (h : i < m * xs.length) :
    (List.replicate m xs).flatten.getD i d = xs.getD (i % xs.length) d := by
  induction m generalizing i with
  | zero => omega
  | succ m ih =>
    rw [List.replicate_succ, List.flatten_cons]
    rw [Nat.succ_mul] at h
    by_cases hi : i < xs.length
    · rw [List.getD_append _ _ _ _ hi, Nat.mod_eq_of_lt hi]
    · rw [List.getD_append_right _ _ _ _ (by omega), ih (by omega), ← Nat.mod_eq_sub_mod (by omega)]

/-- A repeated key is cycled into the same stream. -/
theorem keyStream_flatten_replicate (key : List Byte) {m : Nat} (hm : 0 < m) (j : Nat) :
    keyStream (List.replicate m key).flatten j = keyStream key j := by
  have hlen : (List.replicate m key).flatten.length = m * key.length := by simp
  rcases Nat.eq_zero_or_pos key.length with hkey | hkey
  · rw [List.eq_nil_of_length_eq_zero (hlen.trans (by rw [hkey, Nat.mul_zero])), List.eq_nil_of_length_eq_zero hkey]
  · rw [keyStream, hlen, getD_flatten_replicate key 0 (Nat.mod_lt _ (Nat.mul_pos hm hkey)),
      Nat.mod_mul_left_mod, keyStream]

/-! ### The derivation steps in order -/

/-- The working block and the CipherState after the first `k` derivation steps of a key (rule R73). -/
def derivationAt (key : List Byte) (k : Nat) : Derivation :=
  (List.range' 0 k).foldl Derivation.stepAt ⟨⟨0, 0⟩, piCipher.mixKey key⟩

theorem derivationAt_succ (key : List Byte) (k : Nat) : derivationAt key (k + 1) = (derivationAt key k).stepAt k := by
  rw [derivationAt, List.range'_1_concat, List.foldl_append, Nat.zero_add]
  rfl

theorem keySchedule_eq_derivationAt (key : List Byte) : keySchedule key = (derivationAt key 521).cipher := by
  rw [keySchedule, CipherState.derive_eq, derivationAt]

/-! ### The all-zero key, computed packed -/

/-- What the examples of rules R77 and R91 list of a CipherState: four words, and the ciphertext of the zero block. -/
def CipherState.exampleWords (c : CipherState) : List Word :=
  [c.pAt 0, c.pAt 17, c.sAt 0 0, c.sAt 3 255, (c.bfEnc ⟨0, 0⟩).hi, (c.bfEnc ⟨0, 0⟩).lo]

/-- The same on numbers. -/
def Packed.exampleWords (t : Packed) : List Nat :=
  t.enc 0 0 fun hi lo => [wordAt t.p 0, wordAt t.p 17, wordAt t.s1 0, wordAt t.s4 255, hi, lo]

theorem Packed.exampleWords_eq (t : Packed) : t.exampleWords = t.cipher.exampleWords.map BitVec.toNat := by
  rw [Packed.exampleWords]
  refine (t.enc_eq ⟨0, 0⟩ _).trans ?_
  simp only [CipherState.exampleWords, List.map_cons, List.map_nil, Packed.pAt_cipher, Packed.sAt_cipher,
    toNat_ofNat_wordAt]
  rfl

theorem exampleWords_keySchedule_zero : (keySchedule (List.replicate 8 0)).exampleWords.map BitVec.toNat =
    [0x706D9FCC, 0x196A7C43, 0xBC29E0A1, 0x265939B0, 0x4EF99745, 0x6198DD78] := by
  rw [← Packed.schedule_eq _ fun c => c.exampleWords.map BitVec.toNat]
  simp only [← Packed.exampleWords_eq]
  decide +kernel

/-! ### The statements -/

/-- Settles O17: word `i` takes chunk `i` of the key's cycled stream, and the example is evaluated. -/
theorem keyMixing : Obligations.KeyMixing := by
  refine ⟨CipherState.mixKey_nil, CipherState.mixKey_s, fun c key i h => ?_, ?_, ?_⟩
  · rw [CipherState.pAt_mixKey, keyChunk]
    simp only [keyStream_eq_getElem h]
  · rw [CipherState.pAt_mixKey]
    decide
  · rw [CipherState.pAt_mixKey]
    decide

/-- Settles O18: the states after each derivation step, of which every one encrypts the working block and writes its two
words. -/
theorem keyScheduleDerivesInOrder : Obligations.KeyScheduleDerivesInOrder := by
  intro key
  refine ⟨fun k => (derivationAt key k).cipher, fun k => (derivationAt key k).block, rfl, rfl, fun k => ?_,
    keySchedule_eq_derivationAt key⟩
  simp only [derivationAt_succ]
  have hword := (derivationAt key k).stepAt_word k.isLt
  refine ⟨Derivation.stepAt_block _ k.isLt, ?_, ?_, fun n h1 h2 => ?_⟩
  · rw [hword, if_pos rfl]
  · rw [hword, if_neg (by simp), if_pos rfl]
  · rw [hword, if_neg h1, if_neg h2]

/-- Settles O19: an all-zero key has the stream of the empty key, and a repeated key that of the key. -/
theorem equivalentKeys : Obligations.EquivalentKeys :=
  ⟨fun n _ => keySchedule_congr fun m => (keyStream_replicate_zero n m).trans (keyStream_nil m).symm,
    fun key _ hm _ => keySchedule_congr (keyStream_flatten_replicate key hm)⟩

/-- Settles O20: the schedule is computed packed, and its numbers are those of the words. -/
theorem zeroKeySchedule : Obligations.ZeroKeySchedule := by
  have h := exampleWords_keySchedule_zero
  simp only [CipherState.exampleWords, List.map_cons, List.map_nil, List.cons.injEq, and_true] at h
  obtain ⟨hp0, hp17, hs0, hs3, hhi, hlo⟩ := h
  exact ⟨BitVec.eq_of_toNat_eq hp0, BitVec.eq_of_toNat_eq hp17, BitVec.eq_of_toNat_eq hs0, BitVec.eq_of_toNat_eq hs3,
    congrArg₂ Halves.mk (BitVec.eq_of_toNat_eq hhi) (BitVec.eq_of_toNat_eq hlo)⟩

end Sys2Proof.Machine
end

section
/-! PROOF. The statements about construction and cleanup (spec/40_keyschedule.md sections 2 and 3): each `INIT_*` follows
its rule, and by its rule alone the CipherState it leaves is that of the bytes in its key window; a wiped block accepts
none of the commands that need an instance. -/

namespace Sys2Proof.Machine

open Sys2Proof

/-! ### Rules of the constructions -/

/-- A construction that loads `v` and `r`, with the key read as the bytes of its window. -/
theorem State.construct_load_eq (s : State) (mode : Mode) (key : Addr) (len : Nat) (v r : Block) :
    ((s.construct mode key len).setV v).setCfb r 0 =
      { s with cipher := keySchedule (s.bytes key len), mode := mode, life := .keyed, v := v, r := r, bytesLeft := 0 } := by
  simp only [State.construct_eq, State.bytes_eq, State.setV, State.setCfb]

/-- A construction follows the rule with what its register load writes. -/
theorem InitRule.of_register_load {i : Instr} {mode : Mode} {key : Addr} {len : Nat} {iv : Option Addr}
    {v r : State → Block} {load : State → State} (hexec : ∀ s, exec i s = s.initCommon mode key len iv load)
    (hload : ∀ s : State,
      load (s.construct mode key len) = ((s.construct mode key len).setV (v s)).setCfb (r s) 0) :
    InitRule i mode key len iv v r :=
  .of_initCommon hexec fun s => (hload s).trans (s.construct_load_eq _ _ _ _ _)

theorem initRule_initEcb (key : Addr) (len : Nat) :
    InitRule (.initEcb key len) .ecb key len none (fun _ => zeroBlock) (fun _ => zeroBlock) :=
  .of_register_load (exec_initEcb key len) fun s => s.construct_eq_load _ _ _

theorem initRule_initCbc (key : Addr) (len : Nat) :
    InitRule (.initCbc key len) .cbc key len none (fun _ => zeroBlock) (fun _ => zeroBlock) :=
  .of_register_load (exec_initCbc key len) fun s => s.construct_eq_load _ _ _

theorem initRule_initCfb (key : Addr) (len : Nat) :
    InitRule (.initCfb key len) .cfb key len none (fun _ => zeroBlock) (fun _ => zeroBlock) :=
  .of_register_load (exec_initCfb key len) fun s => s.construct_eq_load _ _ _

theorem initRule_initCbcIv (key : Addr) (len : Nat) (iv : Addr) :
    InitRule (.initCbcIv key len iv) .cbc key len (some iv) (fun s => s.block iv) (fun _ => zeroBlock) :=
  .of_register_load (exec_initCbcIv key len iv) fun s => by
    rw [State.construct_mem, ← State.block_eq]
    exact s.construct_setV_eq_load _ _ _ _

theorem initRule_initCbcIv64 (key : Addr) (len : Nat) (x : Quad) :
    InitRule (.initCbcIv64 key len x) .cbc key len none (fun _ => Block.unpack x) (fun _ => zeroBlock) :=
  .of_register_load (exec_initCbcIv64 key len x) fun s => s.construct_setV_eq_load _ _ _ _

theorem initRule_initCfbIv (key : Addr) (len : Nat) (iv : Addr) :
    InitRule (.initCfbIv key len iv) .cfb key len (some iv) (fun _ => zeroBlock) (fun s => s.block iv) :=
  .of_register_load (exec_initCfbIv key len iv) fun s => by
    rw [State.construct_mem, ← State.block_eq]
    exact s.construct_setCfb_eq_load _ _ _ _

/-! ### `INIT_CBC` as `INIT_CBC_IV64` with value 0 (rule R78) -/

theorem unpack_zero : Block.unpack 0 = zeroBlock := by
  apply Block.ext8
  intro i hi
  simp

/-- Constructions that differ in their register load alone are the same when the loads do the same. -/
theorem State.initCommon_congr {s : State} {mode : Mode} {key : Addr} {len : Nat} {iv : Option Addr}
    {load load' : State → State} (h : load (s.construct mode key len) = load' (s.construct mode key len)) :
    s.initCommon mode key len iv load = s.initCommon mode key len iv load' := by
  rw [State.initCommon, State.initCommon, h]

/-! ### The CipherState of a construction -/

/-- A construction that ends `OK` has passed its checks and made the CipherState of the bytes in its key window. -/
theorem InitRule.cipher_of_ok {i : Instr} {mode : Mode} {key : Addr} {len : Nat} {iv : Option Addr} {v r : State → Block}
    (hrule : InitRule i mode key len iv v r) {s t : State} (h : exec i s = .next t)
    (hok : t.response = some ⟨.ok, 0⟩) : t.cipher = keySchedule (s.bytes key len) := by
  obtain ⟨hstate, hlength, hbounds, hdone⟩ := hrule s
  have not_failed : ∀ e ≠ Status.ok, exec i s ≠ .next (s.failed e) := by
    intro e he h'
    cases h.symm.trans h'
    cases hok
    exact he rfl
  by_cases hlife : s.life = .empty
  · by_cases hlen : len ≤ 56
    · by_cases hfits : s.fits key len ∧ ∀ a, iv = some a → s.fits a 8
      · injection h.symm.trans (hdone hlife hlen hfits.1 hfits.2) with ht
        rw [ht]
      · exact absurd (hbounds hlife hlen hfits) (not_failed _ (by decide))
    · exact absurd (hlength hlife (Nat.lt_of_not_le hlen)) (not_failed _ (by decide))
  · exact absurd (hstate hlife) (not_failed _ (by decide))

/-! ### Commands that the state of the block does not allow -/

/-- A command that Table 60-2 does not allow is answered `ILLEGAL_STATE` (rule R159). -/
theorem exec_of_not_accepted {i : Instr} {s : State} (h : ¬ accepted i s.life s.mode) :
    exec i s = .next (s.failed .illegalState) := by
  cases i with
  | initEcb key len => exact (initRule_initEcb key len s).1 h
  | initCbc key len => exact (initRule_initCbc key len s).1 h
  | initCbcIv key len iv => exact (initRule_initCbcIv key len iv s).1 h
  | initCbcIv64 key len x => exact (initRule_initCbcIv64 key len x s).1 h
  | initCfb key len => exact (initRule_initCfb key len s).1 h
  | initCfbIv key len iv => exact (initRule_initCfbIv key len iv s).1 h
  | ecbEnc | ecbDec | cbcEnc | cbcDec | cfbEnc | cfbDec =>
    simp only [exec_ecbEnc, exec_ecbDec, exec_cbcEnc, exec_cbcDec, exec_cfbEnc, exec_cfbDec, State.failed_eq]
    exact State.transfer_of_error _ ((s.xferChecks_eq _ _ _ _ _).1 h)
  | cbcGetiv w | cbcSetiv w | cfbGetiv w | cfbSetiv w =>
    simp only [exec, execCbcGetiv, execCbcSetiv, execCfbGetiv, execCfbSetiv, (s.ivChecks_eq _ w).1 h, State.failed_eq]
  | cbcGetiv64 | cbcSetiv64 => exact if_neg (mt (s.holds_iff .cbc).mpr h)
  | cleanup | weakkey => exact if_pos h
  | selftest => exact absurd trivial h

theorem not_accepted_of_empty {i : Instr} {s : State} (hs : s.life = .empty) (hi : keyLength i = none)
    (hself : i ≠ .selftest) : ¬ accepted i s.life s.mode := by
  rw [hs]
  cases i with
  | initEcb | initCbc | initCbcIv | initCbcIv64 | initCfb | initCfbIv => cases hi
  | selftest => exact absurd rfl hself
  | ecbEnc | ecbDec | cbcEnc | cbcDec | cbcGetiv | cbcSetiv | cbcGetiv64 | cbcSetiv64 | cfbEnc | cfbDec | cfbGetiv
  | cfbSetiv => exact fun h => Life.noConfusion h.1
  | cleanup | weakkey => exact fun h => Life.noConfusion h

theorem exec_cleanup {s : State} (h : s.life = .keyed) : exec .cleanup s = .next (s.wipe.setResponse ⟨.ok, 0⟩) :=
  if_neg (not_not_intro h)

/-! ### The statements -/

/-- Settles O21: nothing is loaded over the zeros of the construction. -/
theorem initWithoutRegister : Obligations.InitWithoutRegister := ⟨initRule_initEcb, initRule_initCbc, initRule_initCfb⟩

/-- Settles O22: the construction changes no buffer, so the block loaded after it is that of the window before. -/
theorem initWithIvWindow : Obligations.InitWithIvWindow := ⟨initRule_initCbcIv, initRule_initCfbIv⟩

/-- Settles O23: byte `i` of the register is its slice of the packed value, and every slice of 0 is 0. -/
theorem initWithPackedIv : Obligations.InitWithPackedIv := by
  refine ⟨initRule_initCbcIv64, fun key len s => ?_⟩
  rw [exec_initCbc, exec_initCbcIv64, unpack_zero]
  exact State.initCommon_congr ((s.construct_eq_load _ _ _).trans (s.construct_setV_eq_load _ _ _ _).symm)

/-- Settles O24: by each command's rule both CipherStates are the schedule of the same bytes. -/
theorem keyWindowIndependence : Obligations.KeyWindowIndependence := by
  intro s s' key key' len i i' t t' iv iv' x x' hbytes hmem h h' hok hok'
  have same : ∀ {mode iv v r iv' v' r'}, InitRule i mode key len iv v r → InitRule i' mode key' len iv' v' r' →
      t.cipher = t'.cipher := fun hrule hrule' => by
    rw [hrule.cipher_of_ok h hok, hrule'.cipher_of_ok h' hok', hbytes]
  simp only [List.mem_cons, List.not_mem_nil, or_false, Prod.mk.injEq] at hmem
  obtain ⟨rfl, rfl⟩ | ⟨rfl, rfl⟩ | ⟨rfl, rfl⟩ | ⟨rfl, rfl⟩ | ⟨rfl, rfl⟩ | ⟨rfl, rfl⟩ := hmem
  · exact same (initRule_initEcb key len) (initRule_initEcb key' len)
  · exact same (initRule_initCbc key len) (initRule_initCbc key' len)
  · exact same (initRule_initCbcIv key len iv) (initRule_initCbcIv key' len iv')
  · exact same (initRule_initCbcIv64 key len x) (initRule_initCbcIv64 key' len x')
  · exact same (initRule_initCfb key len) (initRule_initCfb key' len)
  · exact same (initRule_initCfbIv key len iv) (initRule_initCfbIv key' len iv')

/-- Settles O25: a cleanup is the wipe, which empties the block. -/
theorem cleanupWipesEverything : Obligations.CleanupWipesEverything :=
  ⟨fun _ h => exec_of_not_accepted h,
    fun s h => ⟨s.wipe.setResponse ⟨.ok, 0⟩, exec_cleanup h, CipherState.zero_pAt, CipherState.zero_sAt,
      fun i => ⟨zeroBlock_getElem i i.isLt, zeroBlock_getElem i i.isLt⟩, rfl, rfl, rfl, sameBytes_of_mem_eq rfl,
      ⟨rfl, rfl, rfl⟩, rfl, fun _ hi hself => exec_of_not_accepted (not_accepted_of_empty rfl hi hself)⟩⟩

end Sys2Proof.Machine
end

section
/-! PROOF. The statements about the Engine (spec/41_engine.md): each direction is one Feistel network of half-updates
along a list of P-box indices, between two whitenings of the upper half; the network along the reversed list undoes it. -/

namespace Sys2Proof.Machine

open Sys2Proof

/-! ### The round function on numbers (rule R90) -/

theorem toFin_extractLsb'_byte (x : Word) (k : Nat) :
    (x.extractLsb' k 8).toFin = Fin.ofNat 256 (x.toNat / 2 ^ k) := by
  rw [← Nat.shiftRight_eq_div_pow]
  rfl

/-- The round function with each S-box entry selected by a number. -/
theorem CipherState.f_eq_sAt (c : CipherState) (x : Word) :
    c.f x = ((c.sAt 0 (Fin.ofNat 256 (x.toNat / 2 ^ 24)) + c.sAt 1 (Fin.ofNat 256 (x.toNat / 2 ^ 16))) ^^^
      c.sAt 2 (Fin.ofNat 256 (x.toNat / 2 ^ 8))) + c.sAt 3 (Fin.ofNat 256 x.toNat) := by
  have hbyte3 := toFin_extractLsb'_byte x 0
  rw [Nat.pow_zero, Nat.div_one] at hbyte3
  simp only [CipherState.f, CipherState.sByte, byte0, byte1, byte2, byte3, hbyte3, toFin_extractLsb'_byte]

/-! ### Half-updates -/

/-- One round: the lower half takes the round function of the upper half and P-box word `i`, and the halves change places. -/
def CipherState.halfUpdate (c : CipherState) (h : Halves) (i : Fin 18) : Halves :=
  ⟨h.lo ^^^ c.f h.hi ^^^ c.pAt i, h.hi⟩

@[simp] theorem CipherState.halfUpdate_lo (c : CipherState) (h : Halves) (i : Fin 18) : (c.halfUpdate h i).lo = h.hi := rfl

@[simp] theorem CipherState.halfUpdate_hi (c : CipherState) (h : Halves) (i : Fin 18) :
    (c.halfUpdate h i).hi = h.lo ^^^ c.f h.hi ^^^ c.pAt i := rfl

theorem CipherState.twoRounds_eq_halfUpdates (c : CipherState) (h : Halves) (ij : Fin 18 × Fin 18) :
    c.twoRounds h ij = c.halfUpdate (c.halfUpdate h ij.1) ij.2 := rfl

/-- The P-box indices of a list of double rounds, one per round. -/
def roundOrder (rounds : List (Fin 18 × Fin 18)) : List (Fin 18) := rounds.flatMap fun ij => [ij.1, ij.2]

theorem CipherState.foldl_twoRounds (c : CipherState) (rounds : List (Fin 18 × Fin 18)) (h : Halves) :
    rounds.foldl c.twoRounds h = (roundOrder rounds).foldl c.halfUpdate h := by
  induction rounds generalizing h with
  | nil => rfl
  | cons ij rounds ih =>
    rw [List.foldl_cons, ih, c.twoRounds_eq_halfUpdates]
    rfl

theorem roundOrder_inverseRounds : roundOrder inverseRounds = (roundOrder forwardRounds).reverse := rfl

/-! ### The terms of a sequence of half-updates (rules R91, R92) -/

/-- The words half-updates along `order` go through: the lower half, the upper half, then the half each one writes. -/
def CipherState.terms (c : CipherState) : List (Fin 18) → Halves → Nat → Word
  | _, h, 0 => h.lo
  | [], h, _ + 1 => h.hi
  | i :: order, h, n + 1 => c.terms order (c.halfUpdate h i) n

@[simp] theorem CipherState.terms_zero (c : CipherState) (order : List (Fin 18)) (h : Halves) :
    c.terms order h 0 = h.lo := by
  cases order <;> rfl

@[simp] theorem CipherState.terms_one (c : CipherState) (order : List (Fin 18)) (h : Halves) :
    c.terms order h 1 = h.hi := by
  cases order with
  | nil => rfl
  | cons i order => exact c.terms_zero order (c.halfUpdate h i)

theorem CipherState.terms_add_two (c : CipherState) (order : List (Fin 18)) (h : Halves) (r : Nat)
    (hr : r < order.length) :
    c.terms order h (r + 2) = c.terms order h r ^^^ c.f (c.terms order h (r + 1)) ^^^ c.pAt order[r] := by
  induction order generalizing h r with
  | nil => exact absurd hr (Nat.not_lt_zero r)
  | cons i order ih =>
    cases r with
    | zero => simp [CipherState.terms]
    | succ r => exact ih (c.halfUpdate h i) r (Nat.lt_of_succ_lt_succ hr)

/-- The last two terms are the halves at the end. -/
theorem CipherState.foldl_halfUpdate_eq_terms (c : CipherState) (order : List (Fin 18)) (h : Halves) :
    order.foldl c.halfUpdate h = ⟨c.terms order h (order.length + 1), c.terms order h order.length⟩ := by
  induction order generalizing h with
  | nil => rfl
  | cons i order ih => exact ih (c.halfUpdate h i)

/-! ### The network and its inverse (rule R93) -/

/-- The halves crossed. -/
def Halves.swap (h : Halves) : Halves := ⟨h.lo, h.hi⟩

@[simp] theorem Halves.swap_swap (h : Halves) : h.swap.swap = h := rfl

/-- P-box word `i` into the upper half. -/
def CipherState.whiten (c : CipherState) (i : Fin 18) (h : Halves) : Halves := ⟨h.hi ^^^ c.pAt i, h.lo⟩

@[simp] theorem CipherState.whiten_whiten (c : CipherState) (i : Fin 18) (h : Halves) :
    c.whiten i (c.whiten i h) = h := by
  simp [CipherState.whiten]

/-- Half-updates along `order` between a whitening by word `i` and, of the crossed halves, one by word `j`. -/
def CipherState.network (c : CipherState) (i : Fin 18) (order : List (Fin 18)) (j : Fin 18) (h : Halves) : Halves :=
  c.whiten j (order.foldl c.halfUpdate (c.whiten i h)).swap

theorem CipherState.bfEnc_eq_network (c : CipherState) (h : Halves) :
    c.bfEnc h = c.network 0 (roundOrder forwardRounds) 17 h := by
  rw [CipherState.bfEnc, CipherState.foldl_twoRounds]
  rfl

theorem CipherState.bfDec_eq_network (c : CipherState) (h : Halves) :
    c.bfDec h = c.network 17 (roundOrder inverseRounds) 0 h := by
  rw [CipherState.bfDec, CipherState.foldl_twoRounds]
  rfl

/-- A half-update leaves the round function's argument alone, so it undoes itself on the crossed halves. -/
theorem CipherState.halfUpdate_swap_halfUpdate (c : CipherState) (i : Fin 18) (h : Halves) :
    c.halfUpdate (c.halfUpdate h i).swap i = h.swap := by
  have hlo : h.lo ^^^ c.f h.hi ^^^ c.pAt i ^^^ c.f h.hi ^^^ c.pAt i = h.lo := by
    rw [BitVec.xor_assoc _ (c.f h.hi) (c.pAt i), BitVec.xor_assoc _ (c.f h.hi) (c.pAt i)]
    simp
  exact congrArg (Halves.mk · h.hi) hlo

theorem CipherState.foldl_reverse_swap_foldl (c : CipherState) (order : List (Fin 18)) (h : Halves) :
    order.reverse.foldl c.halfUpdate (order.foldl c.halfUpdate h).swap = h.swap := by
  induction order generalizing h with
  | nil => rfl
  | cons i order ih =>
    rw [List.reverse_cons, List.foldl_append, List.foldl_cons (l := order), ih]
    exact c.halfUpdate_swap_halfUpdate i h

theorem CipherState.network_reverse_network (c : CipherState) (i j : Fin 18) (order : List (Fin 18)) (h : Halves) :
    c.network j order.reverse i (c.network i order j h) = h := by
  simp only [CipherState.network, CipherState.whiten_whiten, CipherState.foldl_reverse_swap_foldl, Halves.swap_swap]

theorem CipherState.bfDec_bfEnc (c : CipherState) (h : Halves) : c.bfDec (c.bfEnc h) = h := by
  rw [c.bfEnc_eq_network, c.bfDec_eq_network, roundOrder_inverseRounds, c.network_reverse_network]

theorem CipherState.bfEnc_bfDec (c : CipherState) (h : Halves) : c.bfEnc (c.bfDec h) = h := by
  have hforward : roundOrder forwardRounds = (roundOrder inverseRounds).reverse := rfl
  rw [c.bfEnc_eq_network, c.bfDec_eq_network, hforward, c.network_reverse_network]

/-- The network as the sequence of its terms. -/
theorem CipherState.network_eq_terms (c : CipherState) (i j : Fin 18) (order : List (Fin 18)) (h : Halves) :
    c.network i order j h = ⟨c.terms order (c.whiten i h) order.length ^^^ c.pAt j,
      c.terms order (c.whiten i h) (order.length + 1)⟩ := by
  rw [CipherState.network, CipherState.foldl_halfUpdate_eq_terms]
  rfl

/-! ### Blocks (rule R96) -/

theorem CipherState.decBlock_encBlock (c : CipherState) (b : Block) : c.decBlock (c.encBlock b) = b := by
  rw [CipherState.decBlock, CipherState.encBlock, ofBlock_toBlock, c.bfDec_bfEnc, toBlock_ofBlock]

theorem CipherState.encBlock_decBlock (c : CipherState) (b : Block) : c.encBlock (c.decBlock b) = b := by
  rw [CipherState.encBlock, CipherState.decBlock, ofBlock_toBlock, c.bfEnc_bfDec, toBlock_ofBlock]

/-- A word is the big-endian word of four bytes when its number is. -/
theorem eq_be32_of_toNat {x : Word} {b0 b1 b2 b3 : Byte}
    (h : x.toNat = b0.toNat * 2 ^ 24 + b1.toNat * 2 ^ 16 + b2.toNat * 2 ^ 8 + b3.toNat) : x = be32 b0 b1 b2 b3 :=
  BitVec.eq_of_toNat_eq (h.trans (be32_toNat b0 b1 b2 b3).symm)

/-! ### The statements -/

/-- Settles O12: the entries are selected by the numbers of the bytes, and word addition wraps modulo 2^32; the examples
are evaluated. -/
theorem roundFunction : Obligations.RoundFunction := by
  refine ⟨fun c x => ?_, fun c x h0 h1 h2 h3 => ?_, by decide, by decide⟩
  · rw [c.f_eq_sAt, BitVec.toNat_add, BitVec.toNat_xor, BitVec.toNat_add]
  · rw [c.f_eq_sAt, h0, h1, h2, h3]
    rfl

/-- Settles O13: the sequence is the terms of the direction's network, whose order lists the P-box indices. -/
theorem sixteenRounds : Obligations.SixteenRounds := by
  intro c h
  have hforward : ∀ r : Fin 16, (roundOrder forwardRounds)[r.val]'r.isLt = ⟨r.val + 1, by omega⟩ := by decide
  have hinverse : ∀ r : Fin 16, (roundOrder inverseRounds)[r.val]'r.isLt = ⟨16 - r.val, by omega⟩ := by decide
  refine ⟨⟨c.terms (roundOrder forwardRounds) (c.whiten 0 h), c.terms_zero _ _, c.terms_one _ _, fun r => ?_, ?_⟩,
    ⟨c.terms (roundOrder inverseRounds) (c.whiten 17 h), c.terms_zero _ _, c.terms_one _ _, fun r => ?_, ?_⟩⟩
  · rw [← hforward r]
    exact c.terms_add_two (roundOrder forwardRounds) _ r.val r.isLt
  · exact (c.bfEnc_eq_network h).trans (c.network_eq_terms 0 17 _ h)
  · rw [← hinverse r]
    exact c.terms_add_two (roundOrder inverseRounds) _ r.val r.isLt
  · exact (c.bfDec_eq_network h).trans (c.network_eq_terms 17 0 _ h)

/-- Settles O14: the directions are networks along reversed orders. -/
theorem engineInverts : Obligations.EngineInverts := fun c h => ⟨c.bfDec_bfEnc h, c.bfEnc_bfDec h⟩

/-- Settles O15: the two words are the halves of the block. -/
theorem blockTransforms : Obligations.BlockTransforms := by
  intro c b hi lo hhi hlo
  have hhalves : Halves.ofBlock b = ⟨hi, lo⟩ := by
    rw [eq_be32_of_toNat hhi, eq_be32_of_toNat hlo, Halves.ofBlock]
  refine ⟨?_, ?_, c.decBlock_encBlock b, c.encBlock_decBlock b⟩
  · rw [CipherState.encBlock, hhalves]
  · rw [CipherState.decBlock, hhalves]

end Sys2Proof.Machine
end

section
/-! PROOF. The statements about the diagnostics (spec/42_diagnostics.md): a diagnostic changes nothing but the response,
which the registers alone decide; the weak key test compares the pairs of entries of each S-box; the known answers are
computed packed. -/

namespace Sys2Proof.Machine

open Sys2Proof

/-! ### The weak key test (rule R100) -/

theorem hasRepeat_eq_false_iff_nodup (xs : List Word) : hasRepeat xs = false ↔ xs.Nodup := by
  induction xs with
  | nil => simp [hasRepeat]
  | cons x xs ih =>
    rw [hasRepeat, Bool.or_eq_false_iff, ih, List.nodup_cons, List.contains_eq_mem, decide_eq_false_iff_not]

theorem nodup_toList_iff {α : Type*} {n : Nat} (v : Vector α n) :
    v.toList.Nodup ↔ ∀ i j : Fin n, i < j → v[i] ≠ v[j] := by
  simp only [List.Nodup, List.pairwise_iff_getElem, Vector.length_toList, Vector.getElem_toList, Fin.forall_iff,
    Fin.getElem_fin, Fin.mk_lt_mk]
  exact ⟨fun h i hi j hj => h i j hi hj, fun h i j hi hj => h i hi j hj⟩

/-- A key is not weak exactly when the entries of each S-box are pairwise different. -/
theorem CipherState.weak_eq_false_iff (c : CipherState) :
    c.weak = false ↔ ∀ k i j, i < j → c.sAt k i ≠ c.sAt k j := by
  simp only [CipherState.weak, List.any_eq_false, Vector.mem_toList_iff, Vector.forall_mem_iff_forall_getElem,
    Bool.not_eq_true, hasRepeat_eq_false_iff_nodup, nodup_toList_iff, CipherState.sAt, Fin.getElem_fin,
    Fin.forall_iff (n := 4)]

/-! ### The known answers (rule R102) -/

/-- Every known answer of Table 42-1 holds, computed packed. -/
theorem selftestVectors_pass : selftestVectors.all KnownAnswer.passes = true := by
  simp only [selftestVectors, List.all_cons, List.all_nil, KnownAnswer.passes_eq]
  decide +kernel

/-! ### The two commands -/

theorem exec_weakkey {s : State} (h : s.life = .keyed) :
    exec .weakkey s = .next (s.setResponse ⟨.ok, boolResult s.cipher.weak⟩) :=
  if_neg (not_not_intro h)

theorem exec_selftest (s : State) : exec .selftest s = .next (s.setResponse ⟨.ok, 1⟩) := by
  rw [exec, execSelftest, selftestVectors_pass]
  rfl

/-- The response to `WEAKKEY`. -/
def Registers.weakkeyResponse (x : Registers) : Response :=
  if x.life = .keyed then ⟨.ok, boolResult x.cipher.weak⟩ else ⟨.illegalState, 0⟩

theorem exec_weakkey_eq (s : State) : exec .weakkey s = .next (s.setResponse s.registers.weakkeyResponse) := by
  by_cases h : s.life = .keyed
  · have hanswer : s.registers.weakkeyResponse = ⟨.ok, boolResult s.cipher.weak⟩ := if_pos h
    rw [exec_weakkey h, hanswer]
  · have hanswer : s.registers.weakkeyResponse = ⟨.illegalState, 0⟩ := if_neg h
    rw [hanswer]
    exact exec_of_not_accepted (i := .weakkey) h

/-- A diagnostic gives a response that the registers alone decide, and changes nothing else. -/
theorem exec_diagnostic {i : Instr} (hi : i ∈ [Instr.weakkey, Instr.selftest]) :
    ∃ answer : Registers → Response, ∀ s, exec i s = .next (s.setResponse (answer s.registers)) := by
  simp only [List.mem_cons, List.not_mem_nil, or_false] at hi
  obtain rfl | rfl := hi
  · exact ⟨Registers.weakkeyResponse, exec_weakkey_eq⟩
  · exact ⟨fun _ => ⟨.ok, 1⟩, exec_selftest⟩

/-! ### The statements -/

/-- Settles O43: the answer is the weak key test's, which finds a repeated word exactly where one is. -/
theorem weakKeyQuery : Obligations.WeakKeyQuery := by
  refine ⟨fun _ h => exec_of_not_accepted h, fun s h hrepeat => ?_, fun s h hdistinct => ?_⟩
  · have hweak : s.cipher.weak = true := by
      obtain ⟨k, i, j, hij, heq⟩ := hrepeat
      rw [← Bool.not_eq_false, s.cipher.weak_eq_false_iff]
      exact fun hdistinct => hdistinct k i j hij heq
    rw [exec_weakkey h, hweak]
    rfl
  · rw [exec_weakkey h, s.cipher.weak_eq_false_iff.mpr hdistinct]
    rfl

/-- Settles O44: every known answer passes, whatever the state. -/
theorem selftestPasses : Obligations.SelftestPasses := exec_selftest

/-- Settles O45: a response changes no register, so the same one is given again. -/
theorem diagnosticsAreIdempotent : Obligations.DiagnosticsAreIdempotent := by
  intro i s hi
  obtain ⟨answer, hexec⟩ := exec_diagnostic hi
  refine ⟨s.setResponse (answer s.registers), hexec s, sameRegisters_iff.mpr (s.registers_setResponse _),
    sameBytes_of_mem_eq (s.setResponse_mem _), ⟨rfl, rfl, rfl⟩, ?_⟩
  rw [hexec, State.registers_setResponse, State.setResponse_setResponse]

end Sys2Proof.Machine
end

section
/-! PROOF. The statements about ECB (spec/43_ecb.md): each direction maps the input blocks one by one, and the two block
maps undo one another. -/

namespace Sys2Proof.Machine

open Sys2Proof

/-! ### Windows that the checks let pass -/

theorem State.fits.le_offLimit {s : State} {w : Addr} {n : Nat} (h : s.fits w n) : w.off + n ≤ Config.offLimit :=
  (State.inBounds_lt ((s.fits_iff w n).mp h)).le

theorem State.fits.of_bufSize_eq {s t : State} {w : Addr} {n : Nat} (h : s.fits w n) (hsize : t.bufSize = s.bufSize) :
    t.fits w n := by
  rwa [State.fits, State.sizeOf_congr hsize]

/-- Windows that fit and do not overlap partially, as ranges of keys. -/
theorem Ranges.of_fits {s : State} {inp out : Addr} {n : Nat} (hi : s.fits inp n) (ho : s.fits out n)
    (h : apartOrSame inp out n) : Ranges inp.cell out.cell n :=
  .of_apartOrSame hi.le_offLimit ho.le_offLimit h

theorem State.holds.of_sameRegisters {s t : State} {mode : Mode} (hs : s.holds mode) (h : sameRegisters s t) :
    t.holds mode := by
  obtain ⟨-, -, -, -, hlife, hmode⟩ := h
  exact ⟨hlife.trans hs.1, hmode.trans hs.2⟩

/-! ### Windows as blocks -/

theorem State.getElem_block (s : State) (w : Addr) (i : Nat) (h : i < 8) : (s.block w)[i] = s.byteAt (w.plus i) := by
  simp [State.block]

/-- Windows of whole blocks hold the same bytes when they hold the same blocks. -/
theorem State.bytes_eq_of_blocks {s t : State} {v w : Addr} {len : Nat} (hlen : len % 8 = 0)
    (h : ∀ i < len / 8, t.block (w.plus (8 * i)) = s.block (v.plus (8 * i))) : t.bytes w len = s.bytes v len := by
  refine List.map_congr_left fun j hj => ?_
  have hj : j < len := List.mem_range.mp hj
  have hbyte := congrArg (·[j % 8]'(Nat.mod_lt j (by decide))) (h (j / 8) (by omega))
  simpa only [State.getElem_block, Addr.plus_plus, Nat.div_add_mod] using hbyte

/-! ### The rule of ECB -/

/-- Output block `i` is `g` of input block `i`, and no register changes. -/
def MapsBlocks (g : CipherState → Block → Block) (inp out : Addr) (len : Nat) (s t : State) : Prop :=
  (∀ i, i < len / 8 → t.block (out.plus (8 * i)) = g s.cipher (s.block (inp.plus (8 * i)))) ∧ sameRegisters s t

/-- A transfer that runs the block loop with `g` maps the blocks through `g` (rules R110, R111). -/
theorem transferRule_ecb {cmd : Addr → Addr → Nat → Instr} (g : CipherState → Block → Block)
    (hexec : ∀ inp out len s, exec (cmd inp out len) s = s.transfer .ecb true inp out len fun s =>
      s.setMem (s.mem.mapBlocks (g s.cipher) (len / 8) inp.cell out.cell)) :
    TransferRule cmd .ecb true (MapsBlocks g) := by
  refine .of_transfer hexec fun inp out len s hwhole hi ho ha => ?_
  have hr := Ranges.of_fits hi ho ha
  obtain ⟨n, rfl, hn⟩ := exists_eq_eight_mul (hwhole rfl)
  rw [hn]
  refine ⟨⟨fun i hlt => ?_, sameRegisters_iff.mpr rfl⟩, sameOutside_of_keys ho.le_offLimit fun k hk => ?_,
    rfl, rfl, rfl⟩
  · rw [hn] at hlt
    rw [State.block_eq, State.block_eq, Addr.cell_plus, Addr.cell_plus, State.setResponse_mem, State.setMem_mem]
    exact Memory.mapBlocks_block _ n _ _ _ hr hlt
  · rw [State.setMem_mem, Memory.mapBlocks_outside _ n _ _ _ hk]

theorem transferRule_ecbEnc : TransferRule .ecbEnc .ecb true (MapsBlocks CipherState.encBlock) :=
  transferRule_ecb _ exec_ecbEnc

theorem transferRule_ecbDec : TransferRule .ecbDec .ecb true (MapsBlocks CipherState.decBlock) :=
  transferRule_ecb _ exec_ecbDec

/-- A block map followed by its inverse leaves the bytes of the message (rule R113). -/
theorem exists_roundTrip {first second : Addr → Addr → Nat → Instr} {g g' : CipherState → Block → Block}
    (hfirst : TransferRule first .ecb true (MapsBlocks g)) (hsecond : TransferRule second .ecb true (MapsBlocks g'))
    (hinv : ∀ c b, g' c (g c b) = b) {inp mid out : Addr} {len : Nat} {s : State} (hs : s.holds .ecb)
    (hlen : len % 8 = 0) (hi : s.fits inp len) (hm : s.fits mid len) (ho : s.fits out len)
    (him : apartOrSame inp mid len) (hmo : apartOrSame mid out len) :
    ∃ t u, exec (first inp mid len) s = .next t ∧ exec (second mid out len) t = .next u ∧
      u.bytes out len = s.bytes inp len := by
  obtain ⟨-, -, -, -, hrun⟩ := hfirst inp mid len s
  obtain ⟨t, ht, ⟨hblocks, hregs⟩, -, ⟨hsize, -, -⟩, -⟩ := hrun hs (fun _ => hlen) hi hm him
  obtain ⟨-, -, -, -, hrun'⟩ := hsecond mid out len t
  obtain ⟨u, hu, ⟨hblocks', -⟩, -⟩ := hrun' (hs.of_sameRegisters hregs) (fun _ => hlen) (hm.of_bufSize_eq hsize)
    (ho.of_bufSize_eq hsize) hmo
  have hcipher : t.cipher = s.cipher := hregs.1
  refine ⟨t, u, ht, hu, State.bytes_eq_of_blocks hlen fun i hlt => ?_⟩
  rw [hblocks' i hlt, hblocks i hlt, hcipher, hinv]

/-! ### The statements -/

/-- Settles O26: the block loop with the forward direction. -/
theorem ecbEncrypt : Obligations.EcbEncrypt := transferRule_ecbEnc

/-- Settles O27: the block loop with the inverse direction. -/
theorem ecbDecrypt : Obligations.EcbDecrypt := transferRule_ecbDec

/-- Settles O28: the two directions of the block transform undo one another, in both orders. -/
theorem ecbRoundTrip : Obligations.EcbRoundTrip := by
  intro first second hpair inp mid out len s hs hlen hi hm ho him hmo
  simp only [List.mem_cons, List.not_mem_nil, or_false, Prod.mk.injEq] at hpair
  obtain ⟨rfl, rfl⟩ | ⟨rfl, rfl⟩ := hpair
  · exact exists_roundTrip transferRule_ecbEnc transferRule_ecbDec
      CipherState.decBlock_encBlock hs hlen hi hm ho him hmo
  · exact exists_roundTrip transferRule_ecbDec transferRule_ecbEnc
      CipherState.encBlock_decBlock hs hlen hi hm ho him hmo

end Sys2Proof.Machine
end

section
/-! PROOF. A transfer cut into commands over consecutive sub-windows (spec/43_ecb.md rule R113, spec/44_cbc.md rule
R127): two commands in a row end as one command of the total length, and so does every list of commands. -/

namespace Sys2Proof

/-! ### Parts of windows -/

theorem apartOrSame.take {inp out : Addr} {n m : Nat} (h : apartOrSame inp out (n + m)) : apartOrSame inp out n :=
  h.imp_right (Or.imp_right (by omega))

theorem apartOrSame.drop {inp out : Addr} {n m : Nat} (h : apartOrSame inp out (n + m)) :
    apartOrSame (inp.plus n) (out.plus n) m :=
  h.imp (congrArg (Addr.plus · n)) (Or.imp_right (by simp only [Addr.plus_off]; omega))

namespace Machine

theorem State.fits.take {s : State} {w : Addr} {n m : Nat} (h : s.fits w (n + m)) : s.fits w n := by
  unfold State.fits at *
  omega

theorem State.fits.drop {s : State} {w : Addr} {n m : Nat} (h : s.fits w (n + m)) : s.fits (w.plus n) m := by
  unfold State.fits at *
  rwa [Addr.plus_buf, Addr.plus_off, Nat.add_assoc]

/-! ### Transfers that run -/

/-- No check turns the transfer away, and it is not refused (rules R51, R112). -/
structure TransferKind.Ready (k : TransferKind) (inp out : Addr) (len : Nat) (s : State) : Prop where
  holds : s.holds k.mode
  whole : k.blocks = true → len % 8 = 0
  inp_fits : s.fits inp len
  out_fits : s.fits out len
  apart : apartOrSame inp out len

theorem TransferKind.cmd_ne_cleanup {k : TransferKind} (hk : k ∈ blockTransfers ++ streamTransfers) (inp out : Addr)
    (len : Nat) : k.cmd inp out len ≠ .cleanup := by
  obtain ⟨_, _, hcomp⟩ := exists_computes hk
  intro h
  cases (congrArg writeWindow h).symm.trans (hcomp.writes inp out len)

namespace TransferKind.Ready

variable {k : TransferKind} {inp out : Addr} {n m len : Nat} {s t : State}

theorem exec_eq (h : k.Ready inp out len s) {run : State → State}
    (hexec : exec (k.cmd inp out len) s = s.transfer k.mode k.blocks inp out len run) :
    exec (k.cmd inp out len) s = .next ((run s).setResponse ⟨.ok, BitVec.ofNat 64 len⟩) := by
  obtain ⟨-, -, -, hchecks⟩ := s.xferChecks_eq k.mode k.blocks inp out len
  rw [hexec, State.transfer_of_checks run (hchecks h.holds h.whole h.inp_fits h.out_fits) h.apart, State.respond_eq]

/-- No check reads the response. -/
theorem of_setResponse {x : Response} (h : k.Ready inp out len (s.setResponse x)) : k.Ready inp out len s :=
  ⟨h.holds, h.whole, h.inp_fits, h.out_fits, h.apart⟩

/-- The first part of a transfer that runs would run alone. -/
theorem take (h : k.Ready inp out (n + m) s) (hn : k.blocks = true → n % 8 = 0) : k.Ready inp out n s :=
  ⟨h.holds, hn, h.inp_fits.take, h.out_fits.take, h.apart.take⟩

/-- After the first part of a transfer the rest of it runs: no command but `CLEANUP` empties the block. -/
theorem rest (h : k.Ready inp out (n + m) s) (hk : k ∈ blockTransfers ++ streamTransfers)
    (hn : k.blocks = true → n % 8 = 0) (ht : exec (k.cmd inp out n) s = .next t) :
    k.Ready (inp.plus n) (out.plus n) m t := by
  obtain ⟨hkeyed, hmode⟩ := h.holds
  obtain ⟨-, hlife', hmode'⟩ := (exec_registerEffect ht).keeps_cipher_life_mode hkeyed (k.cmd_ne_cleanup hk _ _ _)
  obtain ⟨hsize, -⟩ := exec_memory_cases ht
  refine ⟨⟨hlife'.trans hkeyed, hmode'.trans hmode⟩, fun hb => ?_, h.inp_fits.drop.of_bufSize_eq hsize,
    h.out_fits.drop.of_bufSize_eq hsize, h.apart.drop⟩
  have hwhole := h.whole hb
  have hfirst := hn hb
  omega

end TransferKind.Ready

/-! ### Runs that can be cut -/

/-- The run of a transfer over no bytes does nothing, and its run over `n + m` bytes is that over the first `n` and then
that over the rest. -/
structure TransferKind.Cuttable (k : TransferKind) (run : Addr → Addr → Nat → State → State) : Prop where
  mem : k ∈ blockTransfers ++ streamTransfers
  exec_eq : ∀ inp out len s, exec (k.cmd inp out len) s = s.transfer k.mode k.blocks inp out len (run inp out len)
  run_zero : ∀ inp out s, run inp out 0 s = s
  run_add : ∀ inp out n m s, (k.blocks = true → n % 8 = 0) → Ranges inp.cell out.cell (n + m) →
    run inp out (n + m) s = run (inp.plus n) (out.plus n) m (run inp out n s)

/-- A command writes its response over the earlier one, which it does not read. -/
theorem exec_setResponse (i : Instr) (s : State) (x : Response) : exec i (s.setResponse x) = exec i s :=
  exec_response s (some x) i

namespace TransferKind.Cuttable

section
variable {k : TransferKind} {run : Addr → Addr → Nat → State → State} {inp out : Addr} {s : State}

/-- Two commands in a row end as one command of the total length does, but for the response. -/
theorem exec_add (hcut : k.Cuttable run) {n m : Nat} {t u : State} (h : k.Ready inp out (n + m) s)
    (hn : k.blocks = true → n % 8 = 0) (ht : exec (k.cmd inp out n) s = .next t)
    (hu : exec (k.cmd (inp.plus n) (out.plus n) m) t = .next u) :
    exec (k.cmd inp out (n + m)) s = .next (u.setResponse ⟨.ok, BitVec.ofNat 64 (n + m)⟩) := by
  have hrest := h.rest hcut.mem hn ht
  cases ht.symm.trans ((h.take hn).exec_eq (hcut.exec_eq _ _ _ _))
  rw [exec_setResponse, hrest.of_setResponse.exec_eq (hcut.exec_eq _ _ _ _)] at hu
  cases hu
  rw [h.exec_eq (hcut.exec_eq _ _ _ _), hcut.run_add _ _ _ _ _ hn (.of_fits h.inp_fits h.out_fits h.apart),
    State.setResponse_setResponse]

/-- A list of commands ends as one command of the total length does, but for the response. -/
theorem exists_runChunks (hcut : k.Cuttable run) {ns : List Nat} (h : k.Ready inp out ns.sum s)
    (hns : k.blocks = true → ∀ n ∈ ns, n % 8 = 0) :
    ∃ t, runChunks k.cmd ns inp out s = .next t ∧
      exec (k.cmd inp out ns.sum) s = .next (t.setResponse ⟨.ok, BitVec.ofNat 64 ns.sum⟩) := by
  induction ns generalizing inp out s with
  | nil =>
    rw [List.sum_nil] at h ⊢
    exact ⟨s, rfl, by rw [h.exec_eq (hcut.exec_eq _ _ _ _), hcut.run_zero]⟩
  | cons n ns ih =>
    rw [List.sum_cons] at h ⊢
    have hn : k.blocks = true → n % 8 = 0 := fun hb => hns hb n List.mem_cons_self
    have ht := (h.take hn).exec_eq (hcut.exec_eq _ _ _ _)
    obtain ⟨u, hchunks, hu⟩ := ih (h.rest hcut.mem hn ht) fun hb m hm => hns hb m (List.mem_cons_of_mem n hm)
    refine ⟨u, ?_, ?_⟩
    · rw [runChunks, ht]
      exact hchunks
    · rw [hcut.exec_add h hn ht hu, State.setResponse_setResponse]

end

/-- The block loop of ECB can be cut between blocks. -/
theorem ecb {cmd : Addr → Addr → Nat → Instr} (hk : ⟨cmd, .ecb, true⟩ ∈ blockTransfers ++ streamTransfers)
    (g : CipherState → Block → Block)
    (hexec : ∀ inp out len s, exec (cmd inp out len) s = s.transfer .ecb true inp out len fun s =>
      s.setMem (s.mem.mapBlocks (g s.cipher) (len / 8) inp.cell out.cell)) :
    Cuttable ⟨cmd, .ecb, true⟩
      fun inp out len s => s.setMem (s.mem.mapBlocks (g s.cipher) (len / 8) inp.cell out.cell) where
  mem := hk
  exec_eq := hexec
  run_zero _ _ _ := rfl
  run_add inp out n m s hn _ := by
    obtain ⟨b, rfl, hb⟩ := exists_eq_eight_mul (hn rfl)
    rw [Nat.mul_add_div (by decide), Memory.mapBlocks_add, hb, Addr.cell_plus, Addr.cell_plus]
    rfl

/-- The block loop of CBC can be cut between blocks: `V` carries the chain on. -/
theorem cbc {cmd : Addr → Addr → Nat → Instr} (hk : ⟨cmd, .cbc, true⟩ ∈ blockTransfers ++ streamTransfers)
    (stepAt : CipherState → Nat → Nat → CbcRun → CbcRun)
    (hexec : ∀ inp out len s, exec (cmd inp out len) s = s.transfer .cbc true inp out len fun s =>
      s.setCbcRun (CbcRun.blocks (stepAt s.cipher) (len / 8) inp.cell out.cell ⟨s.v, s.mem⟩)) :
    Cuttable ⟨cmd, .cbc, true⟩
      fun inp out len s => s.setCbcRun (CbcRun.blocks (stepAt s.cipher) (len / 8) inp.cell out.cell ⟨s.v, s.mem⟩) where
  mem := hk
  exec_eq := hexec
  run_zero _ _ _ := rfl
  run_add inp out n m s hn _ := by
    obtain ⟨b, rfl, hb⟩ := exists_eq_eight_mul (hn rfl)
    rw [Nat.mul_add_div (by decide), CbcRun.blocks_add, hb, Addr.cell_plus, Addr.cell_plus]
    rfl

end TransferKind.Cuttable

open TransferKind.Cuttable in
/-- Each block transfer can be cut. -/
theorem exists_cuttable {k : TransferKind} (hk : k ∈ blockTransfers) : ∃ run, k.Cuttable run := by
  have hmem := List.mem_append_left streamTransfers hk
  simp only [blockTransfers, List.mem_cons, List.not_mem_nil, or_false] at hk
  rcases hk with rfl | rfl | rfl | rfl
  · exact ⟨_, ecb hmem CipherState.encBlock exec_ecbEnc⟩
  · exact ⟨_, ecb hmem CipherState.decBlock exec_ecbDec⟩
  · exact ⟨_, cbc hmem CbcRun.encStep exec_cbcEnc⟩
  · exact ⟨_, cbc hmem CbcRun.decStep exec_cbcDec⟩

/-! ### The statement -/

/-- Settles O40: the total length is whole blocks, and the commands end as one does but for the response. -/
theorem blockChunkingInvariance : Obligations.BlockChunkingInvariance := by
  intro k hk ns inp out s hs hwhole hi ho hapart
  obtain ⟨run, hcut⟩ := exists_cuttable hk
  have hsum : ns.sum % 8 = 0 :=
    Nat.mod_eq_zero_of_dvd (List.dvd_sum fun n hn => Nat.dvd_of_mod_eq_zero (hwhole n hn))
  obtain ⟨t, hchunks, hone⟩ := hcut.exists_runChunks ⟨hs, fun _ => hsum, hi, ho, hapart⟩ fun _ => hwhole
  exact ⟨t, _, hchunks, hone, rfl⟩

end Machine

end Sys2Proof
end

section
/-! PROOF. The statements about CBC (spec/44_cbc.md): what the two transfers chain, that one undoes the other from the
same `V`, and the raw and packed accessors of `V`. -/

namespace Sys2Proof.Machine

open Sys2Proof

/-! ### Blocks of a window -/

theorem State.block_plus (s : State) (w : Addr) (j : Nat) : s.block (w.plus j) = s.mem.readBlock (w.cell + j) := by
  rw [State.block_eq, Addr.cell_plus]

/-- A block stored in a window is read back. -/
theorem State.block_setMem_writeBlock (s : State) (w : Addr) (b : Block) :
    (s.setMem (s.mem.writeBlock w.cell b)).block w = b := by
  rw [State.block_eq, State.setMem_mem, Memory.readBlock_writeBlock_self]

/-! ### The rules of the two transfers -/

/-- A CBC transfer changes its output window and `V` alone, so its rule follows from what its loop of `n` blocks leaves
in these two. -/
theorem transferRule_cbc {cmd : Addr → Addr → Nat → Instr} {effect : Addr → Addr → Nat → State → State → Prop}
    (stepAt : CipherState → Nat → Nat → CbcRun → CbcRun) (hwrites : ∀ c, CbcRun.WritesBlock (stepAt c))
    (hexec : ∀ inp out len s, exec (cmd inp out len) s = s.transfer .cbc true inp out len fun s =>
      s.setCbcRun (CbcRun.blocks (stepAt s.cipher) (len / 8) inp.cell out.cell ⟨s.v, s.mem⟩))
    (heff : ∀ inp out n s x, Ranges inp.cell out.cell (8 * n) → effect inp out (8 * n) s ((s.setCbcRun
      (CbcRun.blocks (stepAt s.cipher) n inp.cell out.cell ⟨s.v, s.mem⟩)).setResponse x)) :
    TransferRule cmd .cbc true effect := by
  refine .of_transfer hexec fun inp out len s hwhole hi ho ha => ?_
  have hr := Ranges.of_fits hi ho ha
  obtain ⟨n, rfl, hn⟩ := exists_eq_eight_mul (hwhole rfl)
  rw [hn]
  refine ⟨heff inp out n s _ hr, sameOutside_of_keys ho.le_offLimit fun k hk => ?_, rfl, rfl, rfl⟩
  rw [State.setCbcRun_mem, CbcRun.blocks_outside (hwrites _) n _ _ _ hk]

/-- Output block `i` is the encryption of input block `i` exclusive-ored with output block `i - 1`, the first with `V`;
`V` ends as the last output block (rule R120). -/
def ChainsEncryption (inp out : Addr) (len : Nat) (s t : State) : Prop :=
  (∀ i, i < len / 8 → t.block (out.plus (8 * i)) =
    s.cipher.encBlock (Block.xor (s.block (inp.plus (8 * i)))
      (if i = 0 then s.v else t.block (out.plus (8 * (i - 1)))))) ∧
  (t.v = if len = 0 then s.v else t.block (out.plus (len - 8))) ∧ sameButV s t

/-- Output block `i` is the decryption of input block `i` exclusive-ored with input block `i - 1` as it was before, the
first with `V`; `V` ends as the last input block (rule R121). -/
def ChainsDecryption (inp out : Addr) (len : Nat) (s t : State) : Prop :=
  (∀ i, i < len / 8 → t.block (out.plus (8 * i)) =
    Block.xor (s.cipher.decBlock (s.block (inp.plus (8 * i))))
      (if i = 0 then s.v else s.block (inp.plus (8 * (i - 1))))) ∧
  (t.v = if len = 0 then s.v else s.block (inp.plus (len - 8))) ∧ sameButV s t

/-- Where the last of `n` blocks lies, by the length and by the number of blocks. -/
theorem ite_lastBlock_eq (n : Nat) (v : Block) (blockAt : Nat → Block) :
    (if 8 * n = 0 then v else blockAt (8 * n - 8)) = if n = 0 then v else blockAt (8 * (n - 1)) := by
  rw [Nat.mul_sub_one]
  exact if_congr (by omega) rfl rfl

theorem transferRule_cbcEnc : TransferRule .cbcEnc .cbc true ChainsEncryption := by
  refine transferRule_cbc _ CbcRun.encStep_writes exec_cbcEnc fun inp out n s x hr => ?_
  obtain ⟨hblocks, hv⟩ := CbcRun.encBlocks_spec s.cipher n _ _ ⟨s.v, s.mem⟩ hr
  refine ⟨fun i hi => ?_, ?_, rfl, rfl, rfl, rfl, rfl⟩
  · simp only [State.block_plus]
    exact hblocks i (by omega)
  · simp only [State.block_plus]
    rw [ite_lastBlock_eq n _ fun j => Memory.readBlock _ (out.cell + j)]
    exact hv

theorem transferRule_cbcDec : TransferRule .cbcDec .cbc true ChainsDecryption := by
  refine transferRule_cbc _ CbcRun.decStep_writes exec_cbcDec fun inp out n s x hr => ?_
  obtain ⟨hblocks, hv⟩ := CbcRun.decBlocks_spec s.cipher n _ _ ⟨s.v, s.mem⟩ hr
  refine ⟨fun i hi => ?_, ?_, rfl, rfl, rfl, rfl, rfl⟩
  · simp only [State.block_plus]
    exact hblocks i (by omega)
  · simp only [State.block_plus]
    rw [ite_lastBlock_eq n _ fun j => Memory.readBlock _ (inp.cell + j)]
    exact hv

theorem State.holds.of_sameButV {s t : State} {mode : Mode} (hs : s.holds mode) (h : sameButV s t) : t.holds mode := by
  obtain ⟨-, -, -, hlife, hmode⟩ := h
  exact ⟨hlife.trans hs.1, hmode.trans hs.2⟩

/-! ### Register commands in CBC mode -/

theorem State.holds.setV {s : State} {mode : Mode} (hs : s.holds mode) (x : Block) : (s.setV x).holds mode := hs

theorem State.holds.setMem {s : State} {mode : Mode} (hs : s.holds mode) (m : Memory) : (s.setMem m).holds mode := hs

theorem State.holds.setResponse {s : State} {mode : Mode} (hs : s.holds mode) (x : Response) :
    (s.setResponse x).holds mode := hs

section
variable {s : State} (hs : s.holds .cbc)
include hs

theorem exec_cbcSetiv_of_holds {w : Addr} (hf : s.fits w 8) :
    exec (.cbcSetiv w) s = .next ((s.setV (s.block w)).setResponse ⟨.ok, 0⟩) := by
  obtain ⟨-, -, hchecks⟩ := s.ivChecks_eq .cbc w
  rw [exec, execCbcSetiv, hchecks hs hf, State.block_eq, State.respond_eq]

theorem exec_cbcGetiv_of_holds {w : Addr} (hf : s.fits w 8) :
    exec (.cbcGetiv w) s = .next ((s.setMem (s.mem.writeBlock w.cell s.v)).setResponse ⟨.ok, 0⟩) := by
  obtain ⟨-, -, hchecks⟩ := s.ivChecks_eq .cbc w
  rw [exec, execCbcGetiv, hchecks hs hf, State.respond_eq]

theorem exec_cbcSetiv64_of_holds (x : Quad) :
    exec (.cbcSetiv64 x) s = .next ((s.setV (Block.unpack x)).setResponse ⟨.ok, 0⟩) := by
  rw [exec, execCbcSetiv64, if_pos ((s.holds_iff .cbc).mp hs), State.respond_eq]

theorem exec_cbcGetiv64_of_holds : exec .cbcGetiv64 s = .next (s.setResponse ⟨.ok, Block.pack s.v⟩) := by
  rw [exec, execCbcGetiv64, if_pos ((s.holds_iff .cbc).mp hs), State.respond_eq]

end

/-! ### The statements -/

/-- Settles O29: the block loop of encryption. -/
theorem cbcEncrypt : Obligations.CbcEncrypt := transferRule_cbcEnc

/-- Settles O30: the block loop of decryption. -/
theorem cbcDecrypt : Obligations.CbcDecrypt := transferRule_cbcDec

/-- Settles O31: decryption chains the ciphertext blocks that encryption chained, and exclusive-or with the same chain
value cancels. -/
theorem cbcRoundTrip : Obligations.CbcRoundTrip := by
  intro inp mid out len s hs hlen hi hm ho him hmo
  obtain ⟨-, -, -, -, hrun⟩ := transferRule_cbcEnc inp mid len s
  obtain ⟨t, ht, ⟨hblocks, hv, hregs⟩, -, ⟨hsize, -, -⟩, -⟩ := hrun hs (fun _ => hlen) hi hm him
  obtain ⟨-, -, -, -, hrun'⟩ := transferRule_cbcDec mid out len { t with v := s.v }
  obtain ⟨u, hu, ⟨hblocks', hv', -⟩, -⟩ := hrun' (hs.of_sameButV hregs) (fun _ => hlen) (hm.of_bufSize_eq hsize)
    (ho.of_bufSize_eq hsize) hmo
  have hcipher : t.cipher = s.cipher := hregs.1
  refine ⟨t, u, ht, hu, State.bytes_eq_of_blocks hlen fun i hlt => ?_, hv'.trans hv.symm⟩
  calc u.block (out.plus (8 * i))
      = Block.xor (t.cipher.decBlock (t.block (mid.plus (8 * i))))
          (if i = 0 then s.v else t.block (mid.plus (8 * (i - 1)))) := hblocks' i hlt
    _ = s.block (inp.plus (8 * i)) := by
      rw [hblocks i hlt, hcipher, CipherState.decBlock_encBlock, Block.xor_xor_cancel_right]

/-- Settles O32: both write the encryption of the input block, which exclusive-or with zero leaves as it is. -/
theorem firstCbcBlockIsEcb : Obligations.FirstCbcBlockIsEcb := by
  intro inp out len s hs hv hlen hpos hi ho ha
  obtain ⟨m, rfl⟩ : ∃ m, len = 8 + m := Nat.exists_eq_add_of_le (by omega)
  obtain ⟨-, -, -, -, hcbc⟩ := transferRule_cbcEnc inp out (8 + m) s
  obtain ⟨t, ht, ⟨hblocks, -⟩, -⟩ := hcbc hs (fun _ => hlen) hi ho ha
  obtain ⟨-, -, -, -, hecb⟩ := transferRule_ecbEnc inp out 8 { s with mode := .ecb }
  obtain ⟨u, hu, ⟨hblocks', -⟩, -⟩ := hecb ⟨hs.1, rfl⟩ (fun _ => rfl) hi.take ho.take ha.take
  have ht0 : t.block out = s.cipher.encBlock (s.block inp) := by
    simpa [hv, Block.xor_zeroBlock] using hblocks 0 (by omega)
  have hu0 : u.block out = s.cipher.encBlock (s.block inp) := hblocks' 0 (by decide)
  exact ⟨t, u, ht, hu, ht0.trans hu0.symm, ht0⟩

/-- Settles O33: `V` and the window are one block, loaded or stored whole. -/
theorem cbcRegisterAsBytes : Obligations.CbcRegisterAsBytes := by
  refine ⟨.of_ivChecks (fun _ _ => rfl) fun w s _ => ⟨⟨fun i => ?_, ?_⟩, rfl, rfl, rfl⟩,
    .of_ivChecks (fun _ _ => rfl) fun w s hf => ⟨⟨fun i => ?_, ?_, sameRegisters_iff.mpr rfl⟩, rfl, rfl, rfl⟩⟩
  · rw [← State.getElem_block _ _ _ i.isLt, State.block_eq]
    rfl
  · exact ⟨⟨rfl, rfl, rfl, rfl, rfl⟩, sameBytes_of_mem_eq rfl⟩
  · rw [State.byteAt_setResponse, ← State.getElem_block _ _ _ i.isLt, State.block_setMem_writeBlock]
    rfl
  · exact sameOutside_of_keys hf.le_offLimit fun k hk => Memory.readByte_writeBlock_outside _ _ _ hk

/-- Settles O34: the packed form of `V` is its big-endian number. -/
theorem cbcRegisterAsNumber : Obligations.CbcRegisterAsNumber :=
  ⟨fun x _ => exec_of_not_accepted (i := .cbcSetiv64 x), fun x _ hs => exec_cbcSetiv64_of_holds hs x,
    fun _ => exec_of_not_accepted (i := .cbcGetiv64),
    fun s hs => ⟨Block.pack s.v, exec_cbcGetiv64_of_holds hs, Block.pack_toNat s.v⟩⟩

/-- Settles O35: a block written into the window is read back from it, and packing and unpacking undo one another. -/
theorem cbcAccessorsAgree : Obligations.CbcAccessorsAgree := by
  intro s w x y hs hf
  refine ⟨⟨_, _, exec_cbcSetiv64_of_holds hs x, exec_cbcGetiv_of_holds ((hs.setV _).setResponse _) hf, fun i => ?_⟩,
    ⟨_, exec_cbcSetiv_of_holds hs hf, exec_cbcGetiv64_of_holds ((hs.setV _).setResponse _)⟩,
    ⟨_, _, exec_cbcGetiv_of_holds hs hf, exec_cbcSetiv_of_holds (((hs.setMem _).setResponse _).setV y) hf, ?_⟩,
    ⟨_, _, _, exec_cbcGetiv64_of_holds hs, rfl, exec_cbcSetiv64_of_holds ((hs.setResponse _).setV y) _, ?_⟩⟩
  · rw [State.byteAt_setResponse, ← State.getElem_block _ _ _ i.isLt, State.block_setMem_writeBlock]
    exact Block.getElem_unpack x i i.isLt
  · exact s.block_setMem_writeBlock w s.v
  · exact unpack_pack s.v

end Sys2Proof.Machine
end

section
/-! PROOF. The statements about CFB (spec/45_cfb.md): the byte stream that each transfer follows, that decryption undoes
encryption byte by byte, that from a consumed register the stream is full-block feedback, and that it can be cut between
any two bytes. -/

namespace Sys2Proof.Machine

open Sys2Proof

/-! ### The streams of the two directions undo one another -/

section
variable (c : CipherState) (q : CfbRegister)

/-- Decryption of the ciphertext byte gives the plaintext byte back: the keystream byte is the same. -/
theorem CfbRegister.output_output (i : Byte) : q.output c (q.output c i) = i := by
  rw [output, output, BitVec.xor_assoc, BitVec.xor_self, BitVec.xor_zero]

/-- Both directions put the ciphertext byte into the register. -/
theorem CfbRegister.next_dec_output (i : Byte) : q.next c true (q.output c i) = q.next c false i := rfl

theorem CfbRegister.after_dec_stream (is : List Byte) :
    q.after c true (q.stream c false is) = q.after c false is := by
  induction is generalizing q with
  | nil => rfl
  | cons i is ih => exact ih (q.next c false i)

theorem CfbRegister.stream_dec_stream (is : List Byte) : q.stream c true (q.stream c false is) = is := by
  induction is generalizing q with
  | nil => rfl
  | cons i is ih => rw [stream, stream, output_output, next_dec_output, ih]

end

/-! ### The ciphertext of a stream -/

/-- The ciphertext bytes of a stream: its output when encrypting, its input when decrypting. -/
def CfbRegister.ciphertext (c : CipherState) (dec : Bool) (q : CfbRegister) (xs : List Byte) : List Byte :=
  if dec then xs else q.stream c dec xs

/-- The block whose encryption is the keystream of group `g`: the register, then the ciphertext block before. -/
def feedbackBlock (r : Block) (ys : List Byte) (g : Nat) : Block :=
  if g = 0 then r else Block.ofBytes (ys.drop (8 * (g - 1)))

theorem Block.getElem_ofBytes_drop (xs : List Byte) (k i : Nat) (h : i < 8) :
    (Block.ofBytes (xs.drop k))[i] = xs.getD (k + i) 0 := by
  simp [Block.ofBytes, List.getD_eq_getElem?_getD]

section
variable (c : CipherState) (dec : Bool) (q : CfbRegister) {xs : List Byte} {i : Nat}

theorem CfbRegister.after_take_succ (hi : i < xs.length) :
    q.after c dec (xs.take (i + 1)) = (q.after c dec (xs.take i)).next c dec (xs.getD i 0) := by
  rw [List.take_succ_eq_append_getElem hi, after_append, List.getD_eq_getElem _ _ hi]
  rfl

/-- Byte `i` of the output is due when the bytes before it have passed. -/
theorem CfbRegister.getD_stream (hi : i < xs.length) :
    (q.stream c dec xs).getD i 0 = (q.after c dec (xs.take i)).output c (xs.getD i 0) := by
  induction xs generalizing q i with
  | nil => cases hi
  | cons x xs ih =>
    cases i with
    | zero => rfl
    | succ i => exact ih (q.next c dec x) (Nat.lt_of_succ_lt_succ hi)

/-- Byte `i` of the ciphertext is the byte that the register takes. -/
theorem CfbRegister.getD_ciphertext (hi : i < xs.length) :
    (q.ciphertext c dec xs).getD i 0 =
      if dec then xs.getD i 0 else (q.after c dec (xs.take i)).output c (xs.getD i 0) := by
  rw [ciphertext]
  cases dec with
  | false => exact q.getD_stream c false hi
  | true => rfl

end

/-- The register when byte `i` of a stream from a consumed register `r` is due: `i % 8` of its bytes are ciphertext bytes
of `ys`, the rest is keystream, the encryption of the feedback block. -/
def CfbRegister.DueAt (c : CipherState) (r : Block) (ys : List Byte) (q : CfbRegister) (i : Nat) : Prop :=
  q.left = 8 - i % 8 ∧
  ∀ p < 8, Block.byteAt q.r p =
    if p < i % 8 then ys.getD (8 * (i / 8) + p) 0 else Block.byteAt (c.encBlock (feedbackBlock r ys (i / 8))) p

namespace CfbRegister.DueAt

variable {c : CipherState} {r : Block} {ys : List Byte} {q : CfbRegister} {i : Nat}

/-- The eighth byte of a group completes its ciphertext block. -/
theorem setByte_last (h : q.DueAt c r ys i) (hi : i % 8 = 7) :
    Block.setByte q.r 7 (ys.getD i 0) = feedbackBlock r ys (i / 8 + 1) := by
  obtain ⟨-, hbytes⟩ := h
  apply Block.ext8
  intro p hp
  rw [feedbackBlock, if_neg (Nat.succ_ne_zero _), Nat.add_sub_cancel, Block.getElem_ofBytes_drop,
    Block.getElem_setByte, ← Block.byteAt_eq _ hp, hbytes p hp]
  by_cases hlast : 7 = p
  · rw [if_pos hlast]
    congr 1; omega
  · rw [if_neg hlast, if_pos (by omega)]

/-- When the ciphertext byte has replaced the used keystream byte, the next byte is due. -/
theorem ready_setByte (h : q.DueAt c r ys i) :
    ((mk (Block.setByte q.r (8 - q.left) (ys.getD i 0)) (q.left - 1)).ready c).DueAt c r ys (i + 1) := by
  have hblock := h.setByte_last
  obtain ⟨hleft, hbytes⟩ := h
  rw [hleft, Nat.sub_sub_self (by omega)]
  by_cases hlast : i % 8 = 7
  · rw [hlast, hblock hlast, ready, if_pos rfl, DueAt, show (i + 1) % 8 = 0 by omega,
      show (i + 1) / 8 = i / 8 + 1 by omega]
    exact ⟨rfl, fun p _ => rfl⟩
  · rw [ready, if_neg (show ¬ 8 - i % 8 - 1 = 0 by omega), DueAt, show (i + 1) % 8 = i % 8 + 1 by omega,
      show (i + 1) / 8 = i / 8 by omega]
    refine ⟨Nat.sub_sub _ _ _, fun p hp => ?_⟩
    rw [Block.byteAt_setByte _ _ _ hp, hbytes p hp]
    by_cases hused : i % 8 = p
    · rw [if_pos hused, if_pos (by omega), ← hused, Nat.div_add_mod]
    · rw [if_neg hused]
      exact if_congr (by omega) rfl rfl

end CfbRegister.DueAt

/-- After `i` bytes of a stream from a consumed register, byte `i` is due. -/
theorem CfbRegister.dueAt_ready_after_take (c : CipherState) (dec : Bool) (r : Block) {xs : List Byte} {i : Nat}
    (hi : i ≤ xs.length) :
    (((mk r 0).after c dec (xs.take i)).ready c).DueAt c r ((mk r 0).ciphertext c dec xs) i := by
  induction i with
  | zero => exact ⟨rfl, fun p _ => rfl⟩
  | succ i ih =>
    rw [after_take_succ c dec _ hi, next, ← getD_ciphertext c dec _ hi]
    exact (ih (Nat.le_of_succ_le hi)).ready_setByte

/-- From a consumed register, byte `i` of the output is byte `i` of the input exclusive-ored with byte `i % 8` of the
encrypted feedback block (rule R143). -/
theorem CfbRegister.getD_stream_fresh (c : CipherState) (dec : Bool) (r : Block) {xs : List Byte} {i : Nat}
    (hi : i < xs.length) :
    ((mk r 0).stream c dec xs).getD i 0 = xs.getD i 0 ^^^
      Block.byteAt (c.encBlock (feedbackBlock r ((mk r 0).ciphertext c dec xs) (i / 8))) (i % 8) := by
  obtain ⟨hleft, hbytes⟩ := dueAt_ready_after_take c dec r hi.le
  rw [getD_stream c dec _ hi, output, hleft, Nat.sub_sub_self (by omega), hbytes _ (by omega), if_neg (by omega)]

/-! ### The rule of the two transfers -/

/-- The output bytes, `R` and `BYTESLEFT` are those of the byte stream that `R` and `BYTESLEFT` stand for, and the other
registers stay (rule R135). -/
def FollowsStream (dec : Bool) (inp out : Addr) (len : Nat) (s t : State) : Prop :=
  t.bytes out len = CfbRegister.stream s.cipher dec ⟨s.r, s.bytesLeft.val⟩ (s.bytes inp len) ∧
  CfbRegister.mk t.r t.bytesLeft.val = CfbRegister.after s.cipher dec ⟨s.r, s.bytesLeft.val⟩ (s.bytes inp len) ∧
  sameButR s t

/-- `BYTESLEFT` holds the count that a stream ends with. -/
theorem CfbRegister.val_after_left (c : CipherState) (dec : Bool) (r : Block) (n : Fin 9) (xs : List Byte) :
    (Fin.ofNat 9 (CfbRegister.after c dec ⟨r, n.val⟩ xs).left).val = (CfbRegister.after c dec ⟨r, n.val⟩ xs).left :=
  Nat.mod_eq_of_lt (Nat.lt_succ_of_le (after_left_le _ _ _ _ (Nat.le_of_lt_succ n.isLt)))

theorem transferRule_cfb {cmd : Addr → Addr → Nat → Instr} (dec : Bool)
    (hexec : ∀ inp out len s, exec (cmd inp out len) s = s.transfer .cfb false inp out len fun s =>
      s.cfbRun dec inp.cell out.cell len) :
    TransferRule cmd .cfb false (FollowsStream dec) := by
  refine .of_transfer hexec fun inp out len s _ hi ho ha => ?_
  have hlen : (CfbRegister.stream s.cipher dec ⟨s.r, s.bytesLeft.val⟩ (s.mem.read inp.cell len)).length = len := by
    rw [CfbRegister.stream_length, Memory.read_length]
  rw [s.cfbRun_eq dec _ _ _ (.of_fits hi ho ha)]
  refine ⟨⟨?_, ?_, rfl, rfl, rfl, rfl⟩, sameOutside_of_keys ho.le_offLimit fun k hk => ?_, rfl, rfl, rfl⟩
  · have hread := Memory.read_write_self s.mem out.cell
      (CfbRegister.stream s.cipher dec ⟨s.r, s.bytesLeft.val⟩ (s.mem.read inp.cell len))
    rw [hlen] at hread
    rw [State.bytes_eq, State.bytes_eq]
    exact hread
  · rw [State.bytes_eq]
    exact congrArg (CfbRegister.mk _) (CfbRegister.val_after_left _ _ _ _ _)
  · exact Memory.readByte_write_outside _ _ _ (by rwa [hlen])

theorem transferRule_cfbEnc : TransferRule .cfbEnc .cfb false (FollowsStream false) :=
  transferRule_cfb false exec_cfbEnc

theorem transferRule_cfbDec : TransferRule .cfbDec .cfb false (FollowsStream true) :=
  transferRule_cfb true exec_cfbDec

/-- A transfer of bytes whose windows fit and do not overlap partially has its effect. -/
theorem TransferRule.exists_next {cmd : Addr → Addr → Nat → Instr} {mode : Mode}
    {effect : Addr → Addr → Nat → State → State → Prop} (h : TransferRule cmd mode false effect) {inp out : Addr}
    {len : Nat} {s : State} (hs : s.holds mode) (hi : s.fits inp len) (ho : s.fits out len)
    (ha : apartOrSame inp out len) :
    ∃ t, exec (cmd inp out len) s = .next t ∧ effect inp out len s t ∧ sameHost s t := by
  obtain ⟨-, -, -, -, hrun⟩ := h inp out len s
  obtain ⟨t, ht, heffect, -, hhost, -⟩ := hrun hs (nomatch ·) hi ho ha
  exact ⟨t, ht, heffect, hhost⟩

/-- The two byte-stream transfers run one loop, each in its own direction. -/
theorem exists_exec_eq_cfbRun {k : TransferKind} (hk : k ∈ streamTransfers) :
    ∃ cmd dec, k = ⟨cmd, .cfb, false⟩ ∧ ∀ inp out len s, exec (cmd inp out len) s =
      s.transfer .cfb false inp out len fun s => s.cfbRun dec inp.cell out.cell len := by
  simp only [streamTransfers, List.mem_cons, List.not_mem_nil, or_false] at hk
  rcases hk with rfl | rfl
  · exact ⟨_, false, rfl, exec_cfbEnc⟩
  · exact ⟨_, true, rfl, exec_cfbDec⟩

/-! ### Windows as lists of bytes -/

@[simp] theorem State.bytes_setCfb (s : State) (x : Block) (n : Fin 9) (w : Addr) (k : Nat) :
    (s.setCfb x n).bytes w k = s.bytes w k := rfl

theorem State.getD_bytes (s : State) (w : Addr) {n i : Nat} (h : i < n) :
    (s.bytes w n).getD i 0 = s.byteAt (w.plus i) := by
  rw [State.bytes_eq, List.getD_eq_getElem _ _ (by rwa [Memory.read_length]), Memory.getElem_read, State.byteAt_plus]

/-- The block of a window that starts at its byte `j`. -/
theorem Block.ofBytes_drop_bytes (s : State) (w : Addr) {n j : Nat} (h : j + 8 ≤ n) :
    Block.ofBytes ((s.bytes w n).drop j) = s.block (w.plus j) := by
  obtain ⟨m, rfl⟩ := Nat.exists_eq_add_of_le' (Nat.le_of_add_right_le h)
  rw [State.bytes_eq, Memory.drop_read, Block.ofBytes_read _ _ (by omega), State.block_plus]

theorem feedbackBlock_bytes (r : Block) (s : State) (w : Addr) {n i : Nat} (hi : i < n) :
    feedbackBlock r (s.bytes w n) (i / 8) = if i < 8 then r else s.block (w.plus (8 * (i / 8) - 8)) := by
  rw [feedbackBlock, Nat.mul_sub_one]
  by_cases h : i < 8
  · rw [if_pos h, if_pos (by omega)]
  · rw [if_neg h, if_neg (by omega), Block.ofBytes_drop_bytes _ _ (by omega)]

/-! ### What a followed stream leaves -/

namespace FollowsStream

variable {dec : Bool} {inp out : Addr} {len : Nat} {s t : State}

/-- Each byte takes one from the count, modulo 8 (rule R141). -/
theorem bytesLeft_eq (h : FollowsStream dec inp out len s t) (hleft : s.bytesLeft.val ≤ 7) :
    t.bytesLeft.val = (s.bytesLeft.val + 7 * len) % 8 := by
  obtain ⟨-, hreg, -⟩ := h
  have hcount := congrArg CfbRegister.left hreg
  rwa [CfbRegister.after_left _ _ _ _ hleft, State.bytes_length] at hcount

/-- The ciphertext of a transfer stands in its output window when encrypting, in its input window when decrypting. -/
theorem ciphertext_eq (h : FollowsStream dec inp out len s t) :
    CfbRegister.ciphertext s.cipher dec ⟨s.r, s.bytesLeft.val⟩ (s.bytes inp len) =
      if dec then s.bytes inp len else t.bytes out len := by
  rw [h.1, CfbRegister.ciphertext]

/-- From a consumed register a transfer is full-block feedback over its ciphertext `ys` (rule R143). -/
theorem byteAt_of_consumed (h : FollowsStream dec inp out len s t) (hleft : s.bytesLeft = 0) {i : Nat} (hi : i < len) :
    t.byteAt (out.plus i) = s.byteAt (inp.plus i) ^^^ Block.byteAt (s.cipher.encBlock
      (feedbackBlock s.r (if dec then s.bytes inp len else t.bytes out len) (i / 8))) (i % 8) := by
  have hct := h.ciphertext_eq
  obtain ⟨hbytes, -⟩ := h
  rw [hleft] at hct hbytes
  rw [← hct, ← State.getD_bytes t out hi, ← State.getD_bytes s inp hi, hbytes]
  exact CfbRegister.getD_stream_fresh _ _ _ (by rwa [State.bytes_length])

theorem holds {mode : Mode} (h : FollowsStream dec inp out len s t) (hs : s.holds mode) : t.holds mode := by
  obtain ⟨-, -, -, -, hlife, hmode⟩ := h
  exact ⟨hlife.trans hs.1, hmode.trans hs.2⟩

/-- Decryption of an encryption from the same register gives the plaintext back and ends with the same register. -/
theorem roundTrip {mid : Addr} {u : State} (ht : FollowsStream false inp mid len s t)
    (hu : FollowsStream true mid out len (t.setCfb s.r s.bytesLeft) u) :
    u.bytes out len = s.bytes inp len ∧ u.r = t.r ∧ u.bytesLeft = t.bytesLeft := by
  obtain ⟨hbytes, hreg, hcipher, -⟩ := ht
  obtain ⟨hbytes', hreg', -⟩ := hu
  simp only [State.bytes_setCfb, State.setCfb_cipher, State.setCfb_r, State.setCfb_bytesLeft, hcipher, hbytes]
    at hbytes' hreg'
  rw [CfbRegister.after_dec_stream, ← hreg] at hreg'
  obtain ⟨hr, hleft⟩ := CfbRegister.mk.inj hreg'
  exact ⟨hbytes'.trans (CfbRegister.stream_dec_stream _ _ _), hr, Fin.ext hleft⟩

end FollowsStream

/-! ### A stream cut between any two bytes -/

/-- The loop of CFB can be cut between any two bytes: `R` and `BYTESLEFT` carry the stream on (rule R142). -/
theorem TransferKind.Cuttable.cfb {cmd : Addr → Addr → Nat → Instr} (hk : ⟨cmd, .cfb, false⟩ ∈ streamTransfers)
    (dec : Bool) (hexec : ∀ inp out len s, exec (cmd inp out len) s = s.transfer .cfb false inp out len fun s =>
      s.cfbRun dec inp.cell out.cell len) :
    Cuttable ⟨cmd, .cfb, false⟩ fun inp out len s => s.cfbRun dec inp.cell out.cell len where
  mem := List.mem_append_right blockTransfers hk
  exec_eq := hexec
  run_zero inp out s := by
    rw [s.cfbRun_eq dec _ _ 0 (.inr (.inl rfl))]
    show (s.setCfb s.r (Fin.ofNat 9 s.bytesLeft.val)).setMem s.mem = s
    rw [Fin.ofNat_val_eq_self]
    rfl
  run_add inp out n m s _ hr := by
    have hcount := CfbRegister.val_after_left s.cipher dec s.r s.bytesLeft (s.mem.read inp.cell n)
    rw [s.cfbRun_eq_run dec _ _ _ hr, CfbRegister.run_add, s.cfbRun_eq_run dec _ _ _ hr.take,
      CfbRegister.run_eq _ _ _ _ _ _ _ hr.take, Addr.cell_plus, Addr.cell_plus,
      State.cfbRun_eq_run _ dec _ _ _ hr.drop]
    simp only [State.setMem_r, State.setMem_bytesLeft, State.setMem_mem, State.setMem_cipher, State.setCfb_r,
      State.setCfb_bytesLeft, State.setCfb_cipher, hcount]
    rfl

/-- A list of byte-stream commands ends as one of the total length does, but for the response. -/
theorem exists_runChunks_stream {k : TransferKind} (hk : k ∈ streamTransfers) {ns : List Nat} {inp out : Addr}
    {s : State} (hs : s.holds .cfb) (hi : s.fits inp ns.sum) (ho : s.fits out ns.sum)
    (ha : apartOrSame inp out ns.sum) :
    ∃ t, runChunks k.cmd ns inp out s = .next t ∧
      exec (k.cmd inp out ns.sum) s = .next (t.setResponse ⟨.ok, BitVec.ofNat 64 ns.sum⟩) := by
  obtain ⟨cmd, dec, rfl, hexec⟩ := exists_exec_eq_cfbRun hk
  exact (TransferKind.Cuttable.cfb hk dec hexec).exists_runChunks ⟨hs, (nomatch ·), hi, ho, ha⟩
    (nomatch ·)

/-- A list of byte-stream commands follows the stream of its whole window. -/
theorem exists_runChunks_followsStream {k : TransferKind} {dec : Bool} (hk : k ∈ streamTransfers)
    (h : TransferRule k.cmd .cfb false (FollowsStream dec)) {ns : List Nat} {inp out : Addr} {s : State}
    (hs : s.holds .cfb) (hi : s.fits inp ns.sum) (ho : s.fits out ns.sum) (ha : apartOrSame inp out ns.sum) :
    ∃ t, runChunks k.cmd ns inp out s = .next t ∧ FollowsStream dec inp out ns.sum s t ∧ t.bufSize = s.bufSize := by
  obtain ⟨t, hchunks, hone⟩ := exists_runChunks_stream hk hs hi ho ha
  obtain ⟨u, hu, hstream, hsize, -⟩ := h.exists_next hs hi ho ha
  cases hone.symm.trans hu
  exact ⟨t, hchunks, hstream, hsize⟩

/-! ### The statements -/

/-- Settles O36: the three phases are one byte stream. -/
theorem cfbIsOneByteStream : Obligations.CfbIsOneByteStream := ⟨transferRule_cfbEnc, transferRule_cfbDec⟩

/-- Settles O37: the feedback block of a group is the ciphertext block of the group before, which encryption writes and
decryption reads. -/
theorem cfbIsFullBlockFeedback : Obligations.CfbIsFullBlockFeedback := by
  intro inp out len s hs hleft hi ho ha
  obtain ⟨t, ht, henc, -⟩ := transferRule_cfbEnc.exists_next hs hi ho ha
  obtain ⟨u, hu, hdec, -⟩ := transferRule_cfbDec.exists_next hs hi ho ha
  refine ⟨⟨t, ht, fun i hlt => ?_⟩, u, hu, fun i hlt => ?_⟩
  · rw [← feedbackBlock_bytes s.r t out hlt]
    exact henc.byteAt_of_consumed hleft hlt
  · rw [← feedbackBlock_bytes s.r s inp hlt]
    exact hdec.byteAt_of_consumed hleft hlt

/-- Settles O38: a stream counts down modulo 8, and the rows of the table are cases of the formula. -/
theorem bytesLeftAfterCfb : Obligations.BytesLeftAfterCfb := by
  intro k hk inp out len s hs hleft hi ho ha
  obtain ⟨cmd, dec, rfl, hexec⟩ := exists_exec_eq_cfbRun hk
  obtain ⟨t, ht, hstream, -⟩ := (transferRule_cfb dec hexec).exists_next hs hi ho ha
  have hcount := hstream.bytesLeft_eq hleft
  refine ⟨t, ht, ?_⟩
  omega

/-- Settles O39: the commands end as one does but for the response. -/
theorem cfbChunkingInvariance : Obligations.CfbChunkingInvariance := by
  intro k hk ns inp out s hs hi ho ha
  obtain ⟨t, hchunks, hone⟩ := exists_runChunks_stream hk hs hi ho ha
  exact ⟨t, _, hchunks, hone, rfl⟩

/-- Settles O41: each side follows one stream, and the two streams undo one another. -/
theorem cfbRoundTrip : Obligations.CfbRoundTrip := by
  intro ns ms inp mid out s hsum hs hi hm ho him hmo
  obtain ⟨t, ht, henc, hsize⟩ := exists_runChunks_followsStream (k := ⟨.cfbEnc, .cfb, false⟩)
    List.mem_cons_self transferRule_cfbEnc hs hi hm him
  rw [hsum] at hm ho hmo henc ⊢
  obtain ⟨u, hu, hdec, -⟩ := exists_runChunks_followsStream (k := ⟨.cfbDec, .cfb, false⟩)
    (s := t.setCfb s.r s.bytesLeft) (List.mem_cons_of_mem _ List.mem_cons_self) transferRule_cfbDec
    (henc.holds hs) (hm.of_bufSize_eq hsize) (ho.of_bufSize_eq hsize) hmo
  exact ⟨t, u, ht, hu, henc.roundTrip hdec⟩

/-- Settles O42: `R` and the window are one block, loaded or stored whole. -/
theorem cfbRegisterAsBytes : Obligations.CfbRegisterAsBytes := by
  refine ⟨.of_ivChecks (fun _ _ => rfl) fun w s _ => ⟨⟨fun i => ?_, rfl, ⟨rfl, rfl, rfl, rfl⟩, ?_⟩, rfl, rfl, rfl⟩,
    .of_ivChecks (fun _ _ => rfl) fun w s hf => ⟨⟨fun i => ?_, ?_, sameRegisters_iff.mpr rfl⟩, rfl, rfl, rfl⟩⟩
  · exact (Memory.readBlock_getElem _ _ _ i.isLt).trans (s.byteAt_plus w i).symm
  · exact sameBytes_of_mem_eq rfl
  · rw [State.byteAt_setResponse, ← State.getElem_block _ _ _ i.isLt, State.block_setMem_writeBlock]
    rfl
  · exact sameOutside_of_keys hf.le_offLimit fun k hk => Memory.readByte_writeBlock_outside _ _ _ hk

end Sys2Proof.Machine
end

section
/-! PROOF. The statements about errors (spec/60_exceptions.md): an accepted command follows the operand checks of rules
R156 to R158, read off the rule of its shape, so the error it answers is the first by the priority of rule R161. -/

namespace Sys2Proof.Machine

open Sys2Proof

/-! ### One answer, one error -/

theorem State.failed_inj {s : State} {e e' : Status} (h : s.failed e = s.failed e') : e = e' := by
  injection congrArg State.response h with hresponse
  exact congrArg Response.status hresponse

/-- A command that ends `OK` answers no error. -/
theorem exec_ne_failed_of_ok {i : Instr} {s t : State} {v : Quad} (h : exec i s = .next t)
    (hok : t.response = some ⟨.ok, v⟩) (e : Status) (he : e ≠ .ok) : exec i s ≠ .next (s.failed e) := by
  intro hfailed
  cases h.symm.trans hfailed
  cases hok
  exact he rfl

/-! ### The operand checks of an accepted command -/

/-- What a command answers to its operands, once the state of the block accepts it. -/
structure ChecksOperands (i : Instr) (s : State) : Prop where
  invalidKeyLength : (∃ n, keyLength i = some n ∧ 56 < n) → exec i s = .next (s.failed .invalidKeyLength)
  invalidBlockAlignment : (∃ n, blockLength i = some n ∧ n % 8 ≠ 0) → exec i s = .next (s.failed .invalidBlockAlignment)
  bufferBounds : ¬ badLength i → (∃ w ∈ windows i, ¬ s.fits w.1 w.2) → exec i s = .next (s.failed .bufferBounds)
  passed : ¬ badLength i → (∀ w ∈ windows i, s.fits w.1 w.2) → ∀ e ≠ Status.ok, exec i s ≠ .next (s.failed e)

/-- A construction checks its key length and its windows. -/
theorem InitRule.checksOperands {i : Instr} {mode : Mode} {key : Addr} {len : Nat} {iv : Option Addr}
    {v r : State → Block} (hrule : InitRule i mode key len iv v r) {s : State} (hs : s.life = .empty)
    (hkey : keyLength i = some len) (hblock : blockLength i = none)
    (hwindows : windows i = (key, len) :: (iv.map (·, 8)).toList) : ChecksOperands i s := by
  obtain ⟨-, hlength, hbounds, hdone⟩ := hrule s
  have hbad : badLength i ↔ 56 < len := by simp [badLength, hkey, hblock]
  have hfits : (∀ w ∈ windows i, s.fits w.1 w.2) ↔ s.fits key len ∧ ∀ a, iv = some a → s.fits a 8 := by
    rw [hwindows]
    cases iv <;> simp
  simp only [← Nat.not_lt, ← hbad] at hbounds hdone
  refine ⟨fun hlong => hlength hs (hbad.mp (.inl hlong)), fun ⟨n, hn, _⟩ => ?_, fun hb ⟨w, hw, hout⟩ => ?_,
    fun hb hf e he => ?_⟩
  · cases hblock.symm.trans hn
  · exact hbounds hs hb fun hf => hout (hfits.mpr hf w hw)
  · obtain ⟨hk, hiv⟩ := hfits.mp hf
    exact exec_ne_failed_of_ok (hdone hs hb hk hiv) rfl e he

/-- A transfer checks whole blocks where its mode asks for them, and its windows. -/
theorem TransferRule.checksOperands {cmd : Addr → Addr → Nat → Instr} {mode : Mode} {blocks : Bool}
    {effect : Addr → Addr → Nat → State → State → Prop} (hrule : TransferRule cmd mode blocks effect) {inp out : Addr}
    {len : Nat} {s : State} (hs : s.holds mode) (hkey : keyLength (cmd inp out len) = none)
    (hblock : blockLength (cmd inp out len) = if blocks then some len else none)
    (hwindows : windows (cmd inp out len) = [(inp, len), (out, len)]) : ChecksOperands (cmd inp out len) s := by
  obtain ⟨-, halign, hbounds, hoverlap, hdone⟩ := hrule inp out len s
  have hbad : ¬ badLength (cmd inp out len) ↔ (blocks = true → len % 8 = 0) := by
    cases blocks <;> simp [badLength, hkey, hblock]
  have hfits : (∀ w ∈ windows (cmd inp out len), s.fits w.1 w.2) ↔ s.fits inp len ∧ s.fits out len := by
    simp [hwindows]
  refine ⟨fun ⟨n, hn, _⟩ => ?_, fun hsplit => ?_, fun hb ⟨w, hw, hout⟩ => ?_, fun hb hf e he => ?_⟩
  · cases hkey.symm.trans hn
  · obtain ⟨hblocks, hlen⟩ := Classical.not_imp.mp (mt hbad.mpr (not_not_intro (.inr hsplit)))
    exact halign hs hblocks hlen
  · exact hbounds hs (hbad.mp hb) fun hf => hout (hfits.mpr hf w hw)
  · obtain ⟨hi, ho⟩ := hfits.mp hf
    by_cases hapart : apartOrSame inp out len
    · obtain ⟨t, ht, -, -, -, hok⟩ := hdone hs (hbad.mp hb) hi ho hapart
      exact exec_ne_failed_of_ok ht hok e he
    · intro hfailed
      cases (hoverlap hs (hbad.mp hb) hi ho hapart).symm.trans hfailed

/-- A register command checks its window. -/
theorem WindowRule.checksOperands {cmd : Addr → Instr} {mode : Mode} {effect : Addr → State → State → Prop}
    (hrule : WindowRule cmd mode effect) {w : Addr} {s : State} (hs : s.holds mode)
    (hkey : keyLength (cmd w) = none) (hblock : blockLength (cmd w) = none) (hwindows : windows (cmd w) = [(w, 8)]) :
    ChecksOperands (cmd w) s := by
  obtain ⟨-, hbounds, hdone⟩ := hrule w s
  have hfits : (∀ p ∈ windows (cmd w), s.fits p.1 p.2) ↔ s.fits w 8 := by simp [hwindows]
  refine ⟨fun ⟨n, hn, _⟩ => ?_, fun ⟨n, hn, _⟩ => ?_, fun _ ⟨p, hp, hout⟩ => ?_, fun _ hf e he => ?_⟩
  · cases hkey.symm.trans hn
  · cases hblock.symm.trans hn
  · exact hbounds hs fun hf => hout (hfits.mpr hf p hp)
  · obtain ⟨t, ht, -, -, hok⟩ := hdone hs (hfits.mp hf)
    exact exec_ne_failed_of_ok ht hok e he

/-- A command with no length and no window that ends `OK` has nothing to check. -/
theorem ChecksOperands.of_ok {i : Instr} {s t : State} {v : Quad} (h : exec i s = .next t)
    (hok : t.response = some ⟨.ok, v⟩) (hkey : keyLength i = none) (hblock : blockLength i = none)
    (hwindows : windows i = []) : ChecksOperands i s := by
  refine ⟨fun ⟨n, hn, _⟩ => ?_, fun ⟨n, hn, _⟩ => ?_, fun _ ⟨w, hw, _⟩ => ?_,
    fun _ _ => exec_ne_failed_of_ok h hok⟩
  · cases hkey.symm.trans hn
  · cases hblock.symm.trans hn
  · rw [hwindows] at hw
    cases hw

/-- Every accepted command checks its operands, by the rule of its shape. -/
theorem exec_checksOperands {i : Instr} {s : State} (h : accepted i s.life s.mode) : ChecksOperands i s := by
  cases i with
  | initEcb key len => exact (initRule_initEcb key len).checksOperands h rfl rfl rfl
  | initCbc key len => exact (initRule_initCbc key len).checksOperands h rfl rfl rfl
  | initCbcIv key len iv => exact (initRule_initCbcIv key len iv).checksOperands h rfl rfl rfl
  | initCbcIv64 key len x => exact (initRule_initCbcIv64 key len x).checksOperands h rfl rfl rfl
  | initCfb key len => exact (initRule_initCfb key len).checksOperands h rfl rfl rfl
  | initCfbIv key len iv => exact (initRule_initCfbIv key len iv).checksOperands h rfl rfl rfl
  | ecbEnc => exact transferRule_ecbEnc.checksOperands h rfl rfl rfl
  | ecbDec => exact transferRule_ecbDec.checksOperands h rfl rfl rfl
  | cbcEnc => exact transferRule_cbcEnc.checksOperands h rfl rfl rfl
  | cbcDec => exact transferRule_cbcDec.checksOperands h rfl rfl rfl
  | cfbEnc => exact transferRule_cfbEnc.checksOperands h rfl rfl rfl
  | cfbDec => exact transferRule_cfbDec.checksOperands h rfl rfl rfl
  | cbcSetiv => exact cbcRegisterAsBytes.1.checksOperands h rfl rfl rfl
  | cbcGetiv => exact cbcRegisterAsBytes.2.checksOperands h rfl rfl rfl
  | cfbSetiv => exact cfbRegisterAsBytes.1.checksOperands h rfl rfl rfl
  | cfbGetiv => exact cfbRegisterAsBytes.2.checksOperands h rfl rfl rfl
  | cbcSetiv64 x => exact .of_ok (exec_cbcSetiv64_of_holds h x) rfl rfl rfl rfl
  | cbcGetiv64 => exact .of_ok (exec_cbcGetiv64_of_holds h) rfl rfl rfl rfl
  | cleanup => exact .of_ok (exec_cleanup h) rfl rfl rfl rfl
  | weakkey => exact .of_ok (exec_weakkey h) rfl rfl rfl rfl
  | selftest => exact .of_ok (exec_selftest s) rfl rfl rfl rfl

/-! ### The first error -/

/-- The error of a command in a state: its condition holds and none of higher priority does (rule R161). -/
inductive FirstError (i : Instr) (s : State) : Status → Prop
  | illegalState (h : ¬ accepted i s.life s.mode) : FirstError i s .illegalState
  | invalidKeyLength (h : accepted i s.life s.mode) (hlong : ∃ n, keyLength i = some n ∧ 56 < n) :
    FirstError i s .invalidKeyLength
  | invalidBlockAlignment (h : accepted i s.life s.mode) (hsplit : ∃ n, blockLength i = some n ∧ n % 8 ≠ 0) :
    FirstError i s .invalidBlockAlignment
  | bufferBounds (h : accepted i s.life s.mode) (hlen : ¬ badLength i) (hw : ∃ w ∈ windows i, ¬ s.fits w.1 w.2) :
    FirstError i s .bufferBounds

namespace FirstError

variable {i : Instr} {s : State} {e : Status}

theorem exec_eq (h : FirstError i s e) : exec i s = .next (s.failed e) := by
  cases h with
  | illegalState h => exact exec_of_not_accepted h
  | invalidKeyLength h hlong => exact (exec_checksOperands h).invalidKeyLength hlong
  | invalidBlockAlignment h hsplit => exact (exec_checksOperands h).invalidBlockAlignment hsplit
  | bufferBounds h hlen hw => exact (exec_checksOperands h).bufferBounds hlen hw

/-- A command with no error is accepted and names lengths and windows that its checks let pass. -/
theorem passes_of_forall_not (h : ∀ e, ¬ FirstError i s e) :
    accepted i s.life s.mode ∧ ¬ badLength i ∧ ∀ w ∈ windows i, s.fits w.1 w.2 := by
  have ha : accepted i s.life s.mode := by_contra fun ha => h _ (.illegalState ha)
  have hlen : ¬ badLength i := fun hbad =>
    hbad.elim (fun hlong => h _ (.invalidKeyLength ha hlong)) fun hsplit => h _ (.invalidBlockAlignment ha hsplit)
  exact ⟨ha, hlen, fun w hw => by_contra fun hout => h _ (.bufferBounds ha hlen ⟨w, hw, hout⟩)⟩

end FirstError

/-- A command answers an error exactly when it is the first that applies. -/
theorem exec_eq_failed_iff {i : Instr} {s : State} {e : Status} (he : e ≠ .ok) :
    exec i s = .next (s.failed e) ↔ FirstError i s e := by
  refine ⟨fun h => ?_, FirstError.exec_eq⟩
  by_cases hany : ∃ e', FirstError i s e'
  · obtain ⟨e', hfirst⟩ := hany
    rwa [State.failed_inj (Host.Outcome.next.inj (h.symm.trans hfirst.exec_eq))]
  · obtain ⟨ha, hlen, hw⟩ := FirstError.passes_of_forall_not (not_exists.mp hany)
    exact absurd h ((exec_checksOperands ha).passed hlen hw e he)

/-! ### The statements -/

/-- Settles O46: `ILLEGAL_STATE` has the highest priority, so it is the first error wherever the table says no. -/
theorem illegalStateExactlyByTable : Obligations.IllegalStateExactlyByTable :=
  fun _ _ => (exec_eq_failed_iff (by decide)).trans ⟨fun | .illegalState h => h, .illegalState⟩

/-- Settles O47: for an accepted command each error is the first one under its own condition. -/
theorem operandErrorsExactlyWhen : Obligations.OperandErrorsExactlyWhen := fun _ _ h =>
  ⟨(exec_eq_failed_iff (by decide)).trans ⟨fun | .invalidKeyLength _ hlong => hlong, .invalidKeyLength h⟩,
    (exec_eq_failed_iff (by decide)).trans
      ⟨fun | .invalidBlockAlignment _ hsplit => hsplit, .invalidBlockAlignment h⟩,
    (exec_eq_failed_iff (by decide)).trans
      ⟨fun | .bufferBounds _ hlen hw => ⟨hlen, hw⟩, fun ⟨hlen, hw⟩ => .bufferBounds h hlen hw⟩⟩

/-- Settles O48: a command that goes on has raised an error or ended `OK`, and it does not read the response it left. -/
theorem errorsHaveNoEffect : Obligations.ErrorsHaveNoEffect := by
  intro i s t e x h hresponse he
  cases exec_answersAlike (Agree.refl (readWindows i) s) with
  | raised e' _ hraise =>
    cases hraise.symm.trans h
    cases hresponse
    exact ⟨rfl, (exec_setResponse i s ⟨e, 0⟩).trans h⟩
  | overlapped _ _ _ _ _ _ _ hrefused => cases hrefused.symm.trans h
  | loaded _ _ _ hok | stored _ _ _ _ _ _ hok =>
    cases hok.symm.trans h
    cases hresponse
    exact absurd rfl he

end Sys2Proof.Machine
end

section
/-! PROOF. The statement about reset while a command is in flight (spec/70_reset_and_hazards.md rule R180,
spec/93_implementation_defined.md U6): what a freed window holds, and what it leaves alone. -/

namespace Sys2Proof.Machine

open Sys2Proof

/-! ### A freed window -/

theorem State.lt_present_iff {s : State} {w : Addr} {n k : Nat} :
    k < s.present w n ↔ k < n ∧ w.off + k < s.sizeOf w.buf := by
  rw [State.present]
  omega

/-- Byte `k` of a freed window holds free value `k` of those not used before. -/
theorem State.freeWindow_byteAt_plus {s : State} {w : Addr} {n k : Nat} (hk : k < s.present w n) :
    (s.freeWindow w n).byteAt (w.plus k) = Config.freeByte (s.freeCount + k) := by
  rw [State.byteAt_plus, State.freeWindow_readByte, if_pos ⟨Nat.le_add_right _ _, Nat.add_lt_add_left hk _⟩,
    Nat.add_sub_cancel_left]

/-- A freed byte is one its buffer has, so its key is the key of no other address. -/
theorem State.sameOutside_freeWindow (s : State) (w : Addr) (n : Nat) : sameOutside s (s.freeWindow w n) w n := by
  intro a ha hout
  refine (s.freeWindow_readByte w n a.cell).trans (if_neg fun ⟨hlow, hhigh⟩ => hout ?_)
  obtain ⟨k, hk⟩ := Nat.exists_eq_add_of_le hlow
  obtain ⟨hkn, hsize⟩ := State.lt_present_iff.mp (show k < s.present w n by omega)
  have heq : a = w.plus k :=
    Addr.cell_inj ha (hsize.trans (s.sizeOf_lt w.buf)) (hk.trans (w.cell_plus k).symm)
  subst heq
  exact ⟨rfl, Nat.le_add_right _ _, Nat.add_lt_add_left hkn _⟩

/-! ### The step that resets a command in flight -/

theorem step_resetDuring {s : State} {d : Descriptor} {q : List HostAction} (hq : s.inbox = .resetDuring d :: q) :
    step s = hostResetDuring d (s.setInbox q) :=
  step_action hq

/-- A command cut off by reset leaves the reset state, with the host's side as the cut left it. -/
theorem hostReset_cutOff_eq (s : State) (i : Instr) :
    hostReset (s.cutOff i) =
      { State.launch s.bufSize (s.cutOff i).mem (s.cutOff i).freeCount with inbox := s.inbox } := by
  obtain ⟨hsize, hinbox, -⟩ := s.cutOff_host i
  rw [hostReset_eq, hsize, hinbox]

/-! ### The statement -/

/-- Settles O58: the reset leaves the buffers as the cut left them, and the cut has freed the output window if the command
has one. -/
theorem resetCutsOffACommand : Obligations.ResetCutsOffACommand := by
  refine ⟨fun s d q e hq hd => ?_, fun s u d q i hq hd he => ?_, fun s d q i r hq hd he => ?_⟩
  · exact (step_resetDuring hq).trans (hostResetDuring_of_error hd)
  · refine ⟨_, (step_resetDuring hq).trans (hostResetDuring_of_next hd he), hostReset_cutOff_eq (s.setInbox q) i,
      ((s.setInbox q).cutOff_host i).2.2, fun hnone => ?_, fun w n hw => ?_⟩
    · rw [State.cutOff_of_none hnone]
      exact sameBytes_of_mem_eq rfl
    · rw [State.cutOff_of_window hw]
      refine ⟨(s.setInbox q).sameOutside_freeWindow w n, fun k hkn hsize => ?_⟩
      have hk : k < (s.setInbox q).present w n := State.lt_present_iff.mpr ⟨hkn, hsize⟩
      exact ⟨State.freeWindow_byteAt_plus hk, Nat.add_lt_add_left hk _⟩
  · exact (step_resetDuring hq).trans (hostResetDuring_of_refused hd he)

end Sys2Proof.Machine
end
